-- ==== Sys2Proof/Word.lean ====
section
/-! DEFINITION. The word types of 00_scope.md R8 and R11. -/

namespace Sys2Proof

/-- An unsigned 8-bit value (R11). -/
abbrev Byte := BitVec 8

/-- A 16-bit unit of the encoded stream (R8 `UNIT_SIZE`, R11). -/
abbrev StreamUnit := BitVec 16

/-- A chunk of four bytes, `c0` in bits [31:24] (R8 `CHUNK_SIZE`, R65). -/
abbrev Chunk := BitVec 32

/-- A 32-bit register value or command word (R22, R89). -/
abbrev Word := BitVec 32

end Sys2Proof
end

