-- ==== Sys2Proof/Config.lean ====
section
/-! DEFINITION. The build-time parameters of 00_scope.md R8 and R9, and the free values of 93_implementation_defined.md. -/

namespace Sys2Proof

/-- The open parameter behind IBUF_BYTES (R9, I7), with no body: every capacity R9 allows is
`4 * q + 4` for one `q < 2^28`. DESIGN CHOICE of form, safe: log entry 1. -/
opaque Config.ibufQuads : Fin 268435456

/-- `IBUF_BYTES`: a multiple of 4, from 4 to 2^30 (R9). -/
def Config.ibufBytes : Nat := 4 * Config.ibufQuads.val + 4

/-- `OBUF_BYTES = 2 * IBUF_BYTES` (R9). -/
def Config.obufBytes : Nat := 2 * Config.ibufBytes

/-- `FREQ_DEPTH = IBUF_BYTES / 4` (R9). -/
def Config.freqDepth : Nat := Config.ibufBytes / 4

/-- `CODE_BASE_RST`, the default (R9, I9). DEDUCED, unsafe for another build: log entry 2. -/
def Config.codeBaseRst : BitVec 16 := 0x8001

/-- `TOP_N_RST`, the default (R9, I9). DEDUCED, unsafe for another build: log entry 2. -/
def Config.topNRst : BitVec 8 := 10

/-- The open parameter behind DICT_DEPTH (R9, I8), with no body: how many slots there are beyond
`TOP_N_RST`, at most 245. DESIGN CHOICE of form, safe: log entry 20. -/
opaque Config.spareSlots : Fin 246

/-- `DICT_DEPTH`: from `TOP_N_RST` to 255 (R9). The build with 16 slots is one of them. -/
def Config.dictDepth : Nat := Config.spareSlots.val + Config.topNRst.toNat

/-- What the IBUF byte at an address reads as when nothing has written it since reset: one draw per
byte, stable until written (R76, I3). The first argument is the generation of draws, which a
hardware reset advances. Log entry 6. -/
opaque Config.freeIbufByte : Nat → Nat → Byte

/-- What the OBUF byte at an address reads as when it is unspecified (R75, R76, I2 to I4). The first
argument is the generation of draws. Log entries 6 and 7. -/
opaque Config.freeObufByte : Nat → Nat → Byte

/-- The value of the n-th unspecified read while BUSY = 1 (R176, I1). Log entry 8. -/
opaque Config.freeRead : Nat → Word

end Sys2Proof
end

