-- ==== Sys2Proof/Syntax.lean ====
section
/-! DEFINITION. The instructions: one constructor for each row of spec/opcode_table.json. The command
words carry their ignored bits and the tails their unread bytes, so that a word is read without loss
(log entry 14). -/

namespace Sys2Proof

/-- The rows of the opcode table: command words written to CTRL (30_encoding.md R89) and forms of the
encoded stream (30_encoding.md R80). -/
inductive Instr where
  /-- NOP, CMD 0x0 (R178); `ign` is bits [31:4]. -/
  | nop (ign : BitVec 28)
  /-- ANALYZE, CMD 0x1 (R179). -/
  | analyze (ign : BitVec 28)
  /-- ENCODE, CMD 0x2 (R180). -/
  | encode (ign : BitVec 28)
  /-- COMPRESS, CMD 0x3 (R181). -/
  | compress (ign : BitVec 28)
  /-- DECODE, CMD 0x4 (R182). -/
  | decode (ign : BitVec 28)
  /-- DICT_CLEAR, CMD 0x5 (R183). -/
  | dictClear (ign : BitVec 28)
  /-- RESERVED_CMD_6_7 (R90, R202); `low` is bit [0]. -/
  | reservedCmd67 (ign : BitVec 28) (low : BitVec 1)
  /-- RESERVED_CMD_8_F (R90, R202); `low` is bits [2:0]. -/
  | reservedCmd8F (ign : BitVec 28) (low : BitVec 3)
  /-- CODE: a code unit whose key the dictionary holds (R82, R152). -/
  | code (key : StreamUnit)
  /-- UNKNOWN_CODE: a code unit whose key the dictionary does not hold (R82, R153). -/
  | unknownCode (key : StreamUnit)
  /-- VERBATIM: one chunk unchanged (R83, R154). -/
  | verbatim (chunk : Chunk)
  /-- TAIL_HALF: a first half with no complete second half, and the byte after it if there is one
  (R84, R156). -/
  | tailHalf (u0 : StreamUnit) (extra : Option Byte)
  /-- TAIL_BYTE: one byte left (R85, R157). -/
  | tailByte (b : Byte)
  /-- END: no byte left (R86, R155). -/
  | endOfStream
  deriving DecidableEq, Repr

end Sys2Proof
end

