-- ==== Sys2Proof/WellFormed.lean ====
section
/-! DEFINITION. Which terms of `Instr` are instructions of the spec: the tag bit of a stream form
(30_encoding.md R82 to R84). Every other field's range is its type. -/

namespace Sys2Proof

/-- The tag of a unit, its bit 15 (R81). -/
def StreamUnit.tagged (u : StreamUnit) : Bool := u.getLsbD 15

/-- The fixed bits of each row hold: a code unit has bit 15 set (R82), the first unit of a verbatim
pair and of a half tail has it clear (R83, R84). -/
def Instr.wellFormed : Instr → Bool
  | .nop _ => true
  | .analyze _ => true
  | .encode _ => true
  | .compress _ => true
  | .decode _ => true
  | .dictClear _ => true
  | .reservedCmd67 _ _ => true
  | .reservedCmd8F _ _ => true
  | .code key => key.tagged
  | .unknownCode key => key.tagged
  | .verbatim chunk => !chunk.getLsbD 31
  | .tailHalf u0 _ => !u0.tagged
  | .tailByte _ => true
  | .endOfStream => true

end Sys2Proof
end

