-- ==== Sys2Proof/Decode.lean ====
section
/-! DEFINITION. Reading a command word or the rest of a stream as an instruction, and the encoder.
30_encoding.md R80 to R91. -/

namespace Sys2Proof

/-! ## Byte order (20_memory.md R63 to R66) -/

/-- Two bytes read big-endian as a unit: the first byte holds bits [15:8] (R63, R81). -/
def unitOfBytes (b0 b1 : Byte) : StreamUnit := b0 ++ b1

/-- Two units concatenated as a chunk, `u0` more significant (R64). -/
def chunkOfUnits (u0 u1 : StreamUnit) : Chunk := u0 ++ u1

/-- The chunk of four bytes in their order (R64, R65). -/
def chunkOfBytes (b0 b1 b2 b3 : Byte) : Chunk := chunkOfUnits (unitOfBytes b0 b1) (unitOfBytes b2 b3)

/-- A unit's bytes as they stand in memory, `[15:8]` first (R63, R65). -/
def unitBytes (u : StreamUnit) : List Byte := [u.extractLsb' 8 8, u.extractLsb' 0 8]

/-- A chunk's bytes `c0, c1, c2, c3` (R64, R65). -/
def chunkBytes (c : Chunk) : List Byte :=
  [c.extractLsb' 24 8, c.extractLsb' 16 8, c.extractLsb' 8 8, c.extractLsb' 0 8]

/-! ## Decoding -/

/-- What an instruction is read from: a word written to CTRL, or the rest of the encoded stream. -/
inductive Words where
  /-- A 32-bit command word (R89). -/
  | ctrl (w : Word)
  /-- The stream's bytes from the decoder's position on (R80). -/
  | stream (bs : List Byte)
  deriving DecidableEq, Repr

/-- The command of a CMD field, with the word's ignored bits (R89, R90). -/
def commandOf (ign : BitVec 28) (c : BitVec 4) : Instr :=
  match c.toNat with
  | 0 => .nop ign
  | 1 => .analyze ign
  | 2 => .encode ign
  | 3 => .compress ign
  | 4 => .decode ign
  | 5 => .dictClear ign
  | 6 => .reservedCmd67 ign (c.extractLsb' 0 1)
  | 7 => .reservedCmd67 ign (c.extractLsb' 0 1)
  | _ => .reservedCmd8F ign (c.extractLsb' 0 3)

/-- A command word's reading: CMD = bits [3:0], bits [31:4] ignored (R89). -/
def decodeCtrl (w : Word) : Instr := commandOf (w.extractLsb' 4 28) (w.extractLsb' 0 4)

/-- The next form of the stream, by the bytes left and the tag alone (R86); a code unit is CODE or
UNKNOWN_CODE by whether the dictionary knows its full 16-bit key (R82, 44_decoder.md R150). -/
def decodeStream (known : StreamUnit → Bool) : List Byte → Instr
  | [] => .endOfStream
  | [b] => .tailByte b
  | b0 :: b1 :: rest =>
    if (unitOfBytes b0 b1).tagged then
      if known (unitOfBytes b0 b1) then .code (unitOfBytes b0 b1) else .unknownCode (unitOfBytes b0 b1)
    else
      match rest with
      | [] => .tailHalf (unitOfBytes b0 b1) none
      | [b2] => .tailHalf (unitOfBytes b0 b1) (some b2)
      | b2 :: b3 :: _ => .verbatim (chunkOfUnits (unitOfBytes b0 b1) (unitOfBytes b2 b3))

/-- The decoder, total on every word and every byte list: the spec gives each of them a reading. -/
def decode (known : StreamUnit → Bool) : Words → Instr
  | .ctrl w => decodeCtrl w
  | .stream bs => decodeStream known bs

/-! ## Encoding -/

/-- A command word of CMD `c` with ignored bits `ign` (R89). -/
def ctrlWord (ign : BitVec 28) (c : BitVec 4) : Words := .ctrl (ign ++ c)

/-- The words of an instruction, by the encodings R80 and R89. -/
def encode : Instr → Words
  | .nop ign => ctrlWord ign 0x0
  | .analyze ign => ctrlWord ign 0x1
  | .encode ign => ctrlWord ign 0x2
  | .compress ign => ctrlWord ign 0x3
  | .decode ign => ctrlWord ign 0x4
  | .dictClear ign => ctrlWord ign 0x5
  | .reservedCmd67 ign low => ctrlWord ign (0b011#3 ++ low)
  | .reservedCmd8F ign low => ctrlWord ign (0b1#1 ++ low)
  | .code key => .stream (unitBytes key)
  | .unknownCode key => .stream (unitBytes key)
  | .verbatim chunk => .stream (chunkBytes chunk)
  | .tailHalf u0 extra => .stream (unitBytes u0 ++ extra.toList)
  | .tailByte b => .stream [b]
  | .endOfStream => .stream []

/-! ## The opcode table's numbering of an instruction's bits -/

/-- Why a row's word is rejected before it is read. -/
inductive DecodeReject where
  /-- No row of the table has this many bits. -/
  | noRowOfWidth (nbits : Nat)
  /-- The word has a bit set above the row's width. -/
  | bitsAboveRow
  deriving DecidableEq, Repr

/-- A table row's word as the machine meets it. A ctrl32 row is a word for CTRL; a unit16 row lies
big-endian in the stream, a byte8 row is one byte, END is no byte. The table also gives VERBATIM 32
bits: a 32-bit word alone does not say which of the two it is, and is read as a command word here
(log entry 15). -/
def tableWords (nbits w : Nat) : Except DecodeReject Words :=
  if 2 ^ nbits ≤ w then .error .bitsAboveRow
  else if nbits = 32 then .ok (.ctrl (BitVec.ofNat 32 w))
  else if nbits = 16 then .ok (.stream (unitBytes (BitVec.ofNat 16 w)))
  else if nbits = 8 then .ok (.stream [BitVec.ofNat 8 w])
  else if nbits = 0 then .ok (.stream [])
  else .error (.noRowOfWidth nbits)

/-- The instruction a table row's word reads as, or the reject's name. CODE and UNKNOWN_CODE share
their bits; a code unit is read as CODE, the form's name in R80 (log entry 15). -/
def decodeTableRow (nbits w : Nat) : Except DecodeReject Instr :=
  match tableWords nbits w with
  | .ok ws => .ok (decode (fun _ => true) ws)
  | .error e => .error e

/-- `decodeTableRow` with the reject's name dropped. -/
def decodeTableWord (nbits w : Nat) : Option Instr :=
  match decodeTableRow nbits w with
  | .ok i => some i
  | .error _ => none

end Sys2Proof
end

