-- ==== Sys2Proof/Machine/State.lean ====
section
/-! DEFINITION. The architectural state of 10_state.md R20, the model's own fields beside it, the two
stop types, and the state after reset (10_state.md R51). Plain data throughout. -/

namespace Sys2Proof.Machine

/-- The block's phase (R47). -/
inductive Phase where
  | idle
  | count
  | select
  | enc
  | dec
  deriving DecidableEq, Repr

/-- The accepted command (R47). -/
inductive Cmd where
  | analyze
  | encode
  | compress
  | decode
  deriving DecidableEq, Repr

/-- STATUS.ERR's values (60_exceptions.md R200); 6 to 15 are never produced. -/
inductive ErrCode where
  | none
  | unknownCode
  | badCmd
  | badLen
  | badCfg
  | badDict
  deriving DecidableEq, Repr

/-- STATUS but for BUSY, which is `phase ≠ IDLE` and has no storage of its own (R26, R27). -/
structure Status where
  /-- bit [1] (R28) -/
  done : Bool
  /-- bit [2] (R29) -/
  tail : Bool
  /-- bit [3] (R30) -/
  haz : Bool
  /-- bit [4] (R31) -/
  busyWr : Bool
  /-- bit [5] (R32) -/
  short : Bool
  /-- bits [11:8] (R33) -/
  err : ErrCode
  deriving DecidableEq, Repr

/-- STATUS with every bit 0 (R51, R177). -/
def Status.clear : Status :=
  { done := false, tail := false, haz := false, busyWr := false, short := false, err := .none }

/-- One DICT slot (R44). -/
structure Slot where
  valid : Bool
  chunk : Chunk
  code : BitVec 16
  freq : BitVec 32
  deriving DecidableEq, Repr

/-- The slot with every field 0 (R51, R120, R128). -/
def Slot.empty : Slot := { valid := false, chunk := 0, code := 0, freq := 0 }

/-- One FREQ entry (R46). -/
structure FreqEntry where
  chunk : Chunk
  count : BitVec 32
  deriving DecidableEq, Repr

/-- The host's five transactions (45_commands.md R170). Offsets and addresses are numbers of any size
(log entry 17). -/
inductive Tx where
  | regRead (off : Nat)
  | regWrite (off : Nat) (v : Word)
  | ibufRead (a : Nat)
  | ibufWrite (a : Nat) (b : Byte)
  | obufRead (a : Nat)
  deriving DecidableEq, Repr

/-- Whose turn is next in the one total order of 20_memory.md R72 (log entry 3). -/
inductive Turn where
  /-- The host's next transaction. -/
  | host (t : Tx)
  /-- One block step, if the block has one (R184). -/
  | block
  /-- A hardware reset (R220). -/
  | reset
  deriving DecidableEq, Repr

/-- What a read returned to the host (log entry 3). -/
inductive Reply where
  | reg (off : Nat) (v : Word)
  | ibuf (a : Nat) (b : Byte)
  | obuf (a : Nat) (b : Byte)
  deriving DecidableEq, Repr

/-- A register of the map R22, found from its byte offset. -/
inductive Reg where
  | ctrl
  | status
  | codeBase
  | topN
  | inLen
  | origSize
  | outLen
  | padLen
  | paddedLen
  | dictCount
  | distinct
  | errPos
  | errVal
  | dictDepth
  | ibufSize
  | obufSize
  | dictChunk (j : Nat)
  | dictCode (j : Nat)
  | dictFreq (j : Nat)
  | reserved
  deriving DecidableEq, Repr

/-- A byte memory: the bytes that hold a value, by strictly rising address. A byte that is not listed
has no value of its own (R76; log entry 6). -/
abbrev Memory := List Host.Cell

structure State where
  /-- STATUS (R26) -/
  status : Status
  /-- CODE_BASE (R24) -/
  codeBase : BitVec 16
  /-- TOP_N (R25) -/
  topN : BitVec 8
  /-- IN_LEN (R34) -/
  inLen : BitVec 32
  /-- ORIG_SIZE (R35) -/
  origSize : BitVec 32
  /-- OUT_LEN (R36) -/
  outLen : BitVec 32
  /-- PAD_LEN (R37) -/
  padLen : BitVec 2
  /-- PADDED_LEN (R38) -/
  paddedLen : BitVec 32
  /-- DISTINCT (R40) -/
  distinct : BitVec 32
  /-- ERR_POS (R41) -/
  errPos : BitVec 32
  /-- ERR_VAL (R42) -/
  errVal : BitVec 16
  /-- DICT, slot `j` at index `j`, up to its last slot that is not empty (R44): every slot from the end
  of the list to `DICT_DEPTH` is empty (log entry 21) -/
  dict : List Slot
  /-- FREQ, in first-seen order (R46) -/
  freq : List FreqEntry
  /-- the block's phase (R47) -/
  phase : Phase
  /-- the accepted command (R47); once idle, any value (I5), which the model leaves at the ended
  command's (log entry 22) -/
  cmd : Cmd
  /-- the block's position (R48) -/
  pos : BitVec 32
  /-- the block's output position (R49) -/
  opos : BitVec 32
  /-- IBUF (R60) -/
  ibuf : Memory
  /-- OBUF (R61) -/
  obuf : Memory
  /-- the model's own: which free bytes unlisted IBUF addresses read as (log entry 6) -/
  ibufGen : Nat
  /-- the model's own: which free bytes unlisted OBUF addresses read as (log entries 6 and 7) -/
  obufGen : Nat
  /-- the model's own: how many unspecified reads have been drawn (log entry 8) -/
  draws : Nat
  /-- the model's own: the turns still to come (log entry 3) -/
  turns : List Turn
  /-- the model's own: the host's read values, newest first (log entry 3) -/
  replies : List Reply
  deriving DecidableEq, Repr

/-- Why the machine stops. The spec's own errors do not stop it: they are recorded in STATUS (R204).
These arise only in states that no run reaches (log entry 12). -/
inductive Fault where
  /-- Raised by a block read of IBUF at or above `IBUF_BYTES`, an address that does not exist (R60).
  Safe: R67 and R102 exclude it, and the model stops where it cannot go on by the rules. -/
  | ibufReadOutOfRange
  /-- Raised by a block write of OBUF at or above `OBUF_BYTES`, an address that does not exist (R61).
  Safe: R144 and R162 exclude it. -/
  | obufWriteOutOfRange
  /-- Raised by a block step in a state the phase table has no row for (R185: "No other combination
  of phase and cmd arises"; R155: "`pos > L` never happens"). Safe: no effect is given. -/
  | noPhaseRow
  deriving DecidableEq, Repr

/-- Why an instruction has no meaning. No arm of `exec` answers so. -/
inductive Refusal where
  /-- An instruction the model gives no meaning, by its mnemonic. Safe: nothing is claimed of it. -/
  | notModelled (mnemonic : String)
  deriving DecidableEq, Repr

/-- What a meaning and a step answer. -/
abbrev Result := Host.Outcome State Fault Refusal

/-- The state after a hardware reset, with no turn placed (R51, R222). `cmd` has no reset value in the
spec: DESIGN CHOICE, log entry 9. The model's own fields start at 0 or empty: log entry 10. -/
def State.reset : State where
  status := Status.clear
  codeBase := Config.codeBaseRst
  topN := Config.topNRst
  inLen := 0
  origSize := 0
  outLen := 0
  padLen := 0
  paddedLen := 0
  distinct := 0
  errPos := 0
  errVal := 0
  dict := []
  freq := []
  phase := .idle
  cmd := .analyze
  pos := 0
  opos := 0
  ibuf := []
  obuf := []
  ibufGen := 0
  obufGen := 0
  draws := 0
  turns := []
  replies := []

end Sys2Proof.Machine
end

