-- ==== Sys2Proof/Machine/Flags.lean ====
section
/-! DEFINITION. The flags of STATUS: their values and the rule that sets each of them (10_state.md R26
to R33, 60_exceptions.md R200). -/

namespace Sys2Proof.Machine

/-- STATUS.ERR's numbers (R200). -/
def ErrCode.bits : ErrCode → BitVec 4
  | .none => 0
  | .unknownCode => 1
  | .badCmd => 2
  | .badLen => 3
  | .badCfg => 4
  | .badDict => 5

/-- BUSY is 1 exactly when `phase ≠ IDLE` (R27). -/
def State.busy (s : State) : Bool := decide (s.phase ≠ .idle)

/-- STATUS as a 32-bit word: [11:8] ERR, [5] SHORT, [4] BUSY_WR, [3] HAZ, [2] TAIL, [1] DONE, [0] BUSY,
the rest 0 (R26). -/
def Status.word (busy : Bool) (st : Status) : Word :=
  0#20 ++ (st.err.bits ++ (0#2 ++ (BitVec.ofBool st.short ++ (BitVec.ofBool st.busyWr ++
    (BitVec.ofBool st.haz ++ (BitVec.ofBool st.tail ++ (BitVec.ofBool st.done ++ BitVec.ofBool busy)))))))

/-- The value a read of STATUS returns, its HAZ bit given (R26, R176). -/
def State.statusWord (haz : Bool) (s : State) : Word := ({ s.status with haz := haz }).word s.busy

/-- A missed chunk is a collision when its bit 31, the first byte's bit 7, is set (R141, R143). -/
def collides (c : Chunk) : Bool := c.getLsbD 31

/-- SHORT's condition: a recorded size, above the decoded length (R32, R160). -/
def isShort (origSize dlen : BitVec 32) : Bool := decide (origSize ≠ 0) && decide (dlen < origSize)

/-- HAZ after an ENC_MISS of a chunk: set by a collision, otherwise as it was (R141). -/
def Status.withMiss (c : Chunk) (st : Status) : Status := { st with haz := st.haz || collides c }

/-- TAIL set (R156, R157). -/
def Status.withTail (st : Status) : Status := { st with tail := true }

/-- SHORT by its condition, otherwise as it was (R158). -/
def Status.withShort (origSize dlen : BitVec 32) (st : Status) : Status :=
  { st with short := st.short || isShort origSize dlen }

/-- BUSY_WR set (R31, R176). -/
def Status.withBusyWr (st : Status) : Status := { st with busyWr := true }

/-- DONE set (R28, R187). -/
def Status.withDone (st : Status) : Status := { st with done := true }

/-- ERR set (R33, R204). -/
def Status.withErr (e : ErrCode) (st : Status) : Status := { st with err := e }

end Sys2Proof.Machine
end

