-- ==== Sys2Proof/Machine/Operands.lean ====
section
/-! DEFINITION. Reading operands: the bytes of IBUF and OBUF, MemRead, PadRead and Chunk (00_scope.md
R14, 20_memory.md R60 to R67, 40_chunker.md R101). -/

namespace Sys2Proof.Machine

/-- The value a memory lists for an address, if it lists one. -/
def Memory.read (m : Memory) (a : Nat) : Option Byte := m.lookup a

/-- The canonical form: addresses strictly rising. An unlisted address has no value, so no listed
byte can equal it. -/
abbrev Memory.wf (m : Memory) : Prop := m.Pairwise (fun c d => c.1 < d.1)

/-- `IBUF[a]`: the byte last written, or the draw for a byte not written since reset (R76). -/
def State.ibufByte (s : State) (a : Nat) : Byte := (s.ibuf.read a).getD (Config.freeIbufByte s.ibufGen a)

/-- `OBUF[a]`: the byte last written, or a free byte where it is unspecified (R75, R76). -/
def State.obufByte (s : State) (a : Nat) : Byte := (s.obuf.read a).getD (Config.freeObufByte s.obufGen a)

/-- The `n` bytes of IBUF from address `a` on. -/
def State.ibufSlice (s : State) (a n : Nat) : List Byte := (List.range' a n).map s.ibufByte

/-- The `n` bytes of OBUF from address `a` on. -/
def State.obufSlice (s : State) (a n : Nat) : List Byte := (List.range' a n).map s.obufByte

/-- `MemRead(a, 2)`: a unit, big-endian (R14, R81). -/
def State.unitAt (s : State) (a : Nat) : StreamUnit := unitOfBytes (s.ibufByte a) (s.ibufByte (a + 1))

/-- One byte of `PadRead`: IBUF below IN_LEN, 0x00 at and above it (R14, R103). -/
def State.padByte (s : State) (a : Nat) : Byte := if a < s.inLen.toNat then s.ibufByte a else 0

/-- `Chunk(k) = PadRead(4*k, 4)` (R101). -/
def State.chunkAt (s : State) (k : Nat) : Chunk :=
  chunkOfBytes (s.padByte (4 * k)) (s.padByte (4 * k + 1)) (s.padByte (4 * k + 2)) (s.padByte (4 * k + 3))

/-- `C = PADDED_LEN / 4`, the number of chunks (R102). -/
def State.chunkCount (s : State) : Nat := s.paddedLen.toNat / 4

/-- The bytes left of the stream, `rem = IN_LEN - pos` (R86, R150). -/
def State.bytesLeft (s : State) : Nat := s.inLen.toNat - s.pos.toNat

/-- What the decoder reads at its position: the bytes left, and of them at most four, since no form is
longer (R80, R86). -/
def State.streamWindow (s : State) : List Byte := s.ibufSlice s.pos.toNat (min 4 s.bytesLeft)

end Sys2Proof.Machine
end

