-- ==== Sys2Proof/Machine/Ops.lean ====
section
/-! DEFINITION. The shared operations over memory, registers and control state: MemWrite, PAD, the end
of a command, the raising of an error, refusal, TRUNCATE, hardware reset. -/

namespace Sys2Proof.Machine

/-! ## Memory -/

/-- One byte written, the canonical form kept. -/
def Memory.write : Memory → Nat → Byte → Memory
  | [], a, b => [(a, b)]
  | (x, c) :: m, a, b =>
    if a < x then (a, b) :: (x, c) :: m
    else if a = x then (a, b) :: m
    else (x, c) :: Memory.write m a b

/-- Bytes written one after another from an address on. -/
def Memory.writeBytes : Memory → Nat → List Byte → Memory
  | m, _, [] => m
  | m, a, b :: bs => Memory.writeBytes (m.write a b) (a + 1) bs

/-- The bytes below an address kept, the others without a value again (R75). -/
def Memory.keepBelow (n : Nat) (m : Memory) : Memory := m.filter (fun c => decide (c.1 < n))

/-- Bytes put into OBUF. -/
def State.writeObuf (a : Nat) (bs : List Byte) (s : State) : State :=
  { s with obuf := s.obuf.writeBytes a bs }

/-- One byte put into IBUF by the host (R174). -/
def State.writeIbuf (a : Nat) (b : Byte) (s : State) : State := { s with ibuf := s.ibuf.write a b }

/-- `MemWrite` of whole bytes at an OBUF address (R14), then what the step does next; an address
outside OBUF does not exist (log entry 12). -/
def memWrite (a : Nat) (bs : List Byte) (k : State → State) (s : State) : Result :=
  if a + bs.length ≤ Config.obufBytes then .next (k (s.writeObuf a bs)) else .fault .obufWriteOutOfRange

/-! ## Control state -/

/-- `pos` and `opos` moved on (R48, R49). -/
def State.advance (dpos dopos : BitVec 32) (s : State) : State :=
  { s with pos := s.pos + dpos, opos := s.opos + dopos }

/-- A phase entered (R185). -/
def State.enter (p : Phase) (s : State) : State := { s with phase := p }

/-- A command started: `cmd` and `phase` set (R47, R179 to R182). -/
def State.start (c : Cmd) (p : Phase) (s : State) : State := { s with cmd := c, phase := p }

/-- `pos <- 0` and `opos <- 0` (R48, R49, R185). -/
def State.rewind (s : State) : State := { s with pos := 0, opos := 0 }

/-- `pos <- 0` alone (R179). -/
def State.rewindPos (s : State) : State := { s with pos := 0 }

/-- `FREQ <- []` (R179). -/
def State.clearFreq (s : State) : State := { s with freq := [] }

/-! ## The end of a command -/

/-- STATUS, ERR_POS and ERR_VAL cleared at acceptance (R177). -/
def State.clearForCommand (s : State) : State := { s with status := Status.clear, errPos := 0, errVal := 0 }

/-- DONE set in the CTRL write itself, for a command that completes inside it (R178, R183). -/
def State.markDone (s : State) : State := { s with status := s.status.withDone }

/-- `finish` (R187). `cmd`, which has any value from here to the next acceptance (R47, I5), keeps the
ended command's: DESIGN CHOICE, log entry 22. `pos`, `opos` and FREQ keep theirs: log entry 18. -/
def State.finish (s : State) : State := { s with phase := .idle, status := s.status.withDone }

/-- `raise E(info)`: ERR, the captured position and unit, then `finish` (R15, R187, R204). There is no
return from an error (R206): the next acceptance clears it, `State.clearForCommand`. `cmd` is as in
`State.finish` (log entry 22). -/
def State.raise (e : ErrCode) (errPos : BitVec 32) (errVal : BitVec 16) (s : State) : State :=
  { s with phase := .idle, status := (s.status.withErr e).withDone, errPos := errPos, errVal := errVal }

/-- `refuse E` at acceptance: ERR and DONE, nothing else (R177, R202). -/
def State.refuse (e : ErrCode) (s : State) : State := { s with status := (s.status.withErr e).withDone }

/-- A host write while BUSY = 1: dropped, BUSY_WR set (R176). -/
def State.dropWrite (s : State) : State := { s with status := s.status.withBusyWr }

/-- The output closed at a length: OUT_LEN, and the bytes at and above it unspecified from now on
(R75). -/
def State.closeOutput (n : BitVec 32) (s : State) : State :=
  { s with outLen := n, obuf := s.obuf.keepBelow n.toNat, obufGen := s.obufGen + 1 }

/-- TAIL set (R156, R157). -/
def State.setTail (s : State) : State := { s with status := s.status.withTail }

/-- SHORT by its condition (R158). -/
def State.setShort (dlen : BitVec 32) (s : State) : State :=
  { s with status := s.status.withShort s.origSize dlen }

/-- HAZ by a missed chunk (R141). -/
def State.setMiss (c : Chunk) (s : State) : State := { s with status := s.status.withMiss c }

/-- The length TRUNCATE leaves: ORIG_SIZE where it is recorded and not above the decoded length,
otherwise the decoded length (R158 to R160). -/
def truncatedLen (origSize dlen : BitVec 32) : BitVec 32 :=
  if origSize = 0 then dlen else if origSize ≤ dlen then origSize else dlen

/-- TRUNCATE(dlen), through `finish` (R158). -/
def State.truncate (dlen : BitVec 32) (s : State) : State :=
  ((s.setShort dlen).closeOutput (truncatedLen s.origSize dlen)).finish

/-! ## PAD (40_chunker.md R100) -/

/-- The number of pad bytes of a length. -/
def padOf (len : Nat) : Nat := (4 - len % 4) % 4

/-- PAD_LEN, PADDED_LEN and ORIG_SIZE from IN_LEN. -/
def State.pad (s : State) : State :=
  { s with
    padLen := BitVec.ofNat 2 (padOf s.inLen.toNat)
    paddedLen := BitVec.ofNat 32 (s.inLen.toNat + padOf s.inLen.toNat)
    origSize := s.inLen }

/-! ## The model's own fields -/

/-- The first turn taken off. -/
def State.popTurn (s : State) : State := { s with turns := s.turns.tail }

/-- A read's value handed to the host (log entry 3). -/
def State.reply (r : Reply) (s : State) : State := { s with replies := r :: s.replies }

/-- The next unspecified value (R176; log entry 8). -/
def State.freeValue (s : State) : Word := Config.freeRead s.draws

/-- The next draw used up. -/
def State.nextDraw (s : State) : State := { s with draws := s.draws + 1 }

/-- A hardware reset: every piece of the spec's state at its reset value, both buffers unspecified
anew (R51, R220); the model's own turns, replies and draws go on (log entry 11). -/
def State.hardwareReset (s : State) : State :=
  { State.reset with
    ibufGen := s.ibufGen + 1
    obufGen := s.obufGen + 1
    draws := s.draws
    turns := s.turns
    replies := s.replies }

end Sys2Proof.Machine
end

