-- ==== Sys2Proof/Machine/Dictionary.lean ====
section
/-! DEFINITION. The dictionary family, 42_dictionary.md: BUILD, CFG_CHECK, LOOKUP_CHUNK, LOOKUP_CODE,
WF_CHECK, host loading and CLEAR. -/

namespace Sys2Proof.Machine

/-- LOOKUP_CHUNK: the code of the lowest valid slot that holds the chunk (R124). -/
def lookupChunk (dict : List Slot) (c : Chunk) : Option (BitVec 16) :=
  (dict.find? (fun d => d.valid && d.chunk == c)).map (·.code)

/-- LOOKUP_CODE: the chunk of the lowest valid slot whose code is the whole unit (R125). -/
def lookupCode (dict : List Slot) (key : StreamUnit) : Option Chunk :=
  (dict.find? (fun d => d.valid && d.code == key)).map (·.chunk)

/-- The valid slots, in slot order (R44). -/
def validSlots (dict : List Slot) : List Slot := dict.filter (·.valid)

/-- DICT_COUNT (R39, R129). -/
def dictCount (dict : List Slot) : Nat := (validSlots dict).length

/-- WF_CHECK: every valid code has bit 15 set, and valid codes and valid chunks are pairwise distinct
(R126). -/
def dictWellFormed (dict : List Slot) : Bool :=
  (validSlots dict).all (fun d => StreamUnit.tagged d.code)
    && decide ((validSlots dict).map (·.code)).Nodup
    && decide ((validSlots dict).map (·.chunk)).Nodup

/-- CFG_CHECK, on naturals (R121). -/
def configOk (codeBase : BitVec 16) (topN : BitVec 8) : Bool :=
  StreamUnit.tagged codeBase && decide (topN.toNat ≤ Config.dictDepth)
    && decide (codeBase.toNat + topN.toNat ≤ 0x10000)

/-! ## The table's slots (R44) -/

/-- Slot `j` of a table: the one listed, or the empty slot past the list's end (log entry 21). -/
def slotOf (dict : List Slot) (j : Nat) : Slot := dict.getD j Slot.empty

/-- A slot put before the listed ones; an empty slot before none is not listed. -/
def consSlot (d : Slot) (dict : List Slot) : List Slot :=
  if d = Slot.empty ∧ dict = [] then [] else d :: dict

/-- A table with its slot `j` set, the form kept. -/
def putSlot (d : Slot) : Nat → List Slot → List Slot
  | 0, [] => consSlot d []
  | 0, _ :: dict => consSlot d dict
  | j + 1, [] => consSlot Slot.empty (putSlot d j [])
  | j + 1, e :: dict => consSlot e (putSlot d j dict)

/-- The table's form: no slot at or above `DICT_DEPTH`, and the last slot listed is not empty. -/
abbrev DictForm (dict : List Slot) : Prop :=
  dict.length ≤ Config.dictDepth ∧ dict.getLast? ≠ some Slot.empty

/-- The slot BUILD leaves at index `j` (R120). -/
def builtSlot (codeBase : BitVec 16) (sel : List FreqEntry) (j : Nat) : Slot :=
  match sel[j]? with
  | some e => { valid := true, chunk := e.chunk, code := BitVec.ofNat 16 (codeBase.toNat + j), freq := e.count }
  | none => Slot.empty

/-- BUILD's dictionary: every slot overwritten, those past the selection empty and so not listed
(R120). -/
def buildDict (codeBase : BitVec 16) (sel : List FreqEntry) : List Slot :=
  (List.range (min sel.length Config.dictDepth)).map (builtSlot codeBase sel)

/-- CLEAR's dictionary: every slot empty (R128). -/
def clearedDict : List Slot := []

/-- CLEAR (R128). -/
def State.clearDict (s : State) : State := { s with dict := clearedDict }

/-- `DICT[j]` (R44). -/
def State.slot (s : State) (j : Nat) : Slot := slotOf s.dict j

/-- One slot changed by the host, its FREQ cleared (R45, R127). -/
def State.loadSlot (j : Nat) (f : Slot → Slot) (s : State) : State :=
  { s with dict := putSlot { f (s.slot j) with freq := 0 } j s.dict }

end Sys2Proof.Machine
end

