-- ==== Sys2Proof/Machine/Frequency.lean ====
section
/-! DEFINITION. The frequency analyzer, 41_frequency.md: COUNT's list update and SELECT's order. -/

namespace Sys2Proof.Machine

/-- COUNT's update of FREQ: the matching entry's count up by one, or a new entry at the end (R110). -/
def countChunk (c : Chunk) : List FreqEntry → List FreqEntry
  | [] => [{ chunk := c, count := 1 }]
  | e :: l => if e.chunk = c then { e with count := e.count + 1 } :: l else e :: countChunk c l

/-- `stable_sort_desc` by count: an insertion sort from the right, so that equal counts keep their
first-seen order (R16, R112, R113). -/
def sortByCount (l : List FreqEntry) : List FreqEntry :=
  l.insertionSort (fun a b => b.count.toNat ≤ a.count.toNat)

/-- SELECT's `sel`: the first TOP_N of the order (R112, R114). -/
def selectTop (topN : BitVec 8) (freq : List FreqEntry) : List FreqEntry := (sortByCount freq).take topN.toNat

/-- SELECT and BUILD: DISTINCT and every DICT slot (R112, R120). -/
def State.selectAndBuild (s : State) : State :=
  { s with
    distinct := BitVec.ofNat 32 s.freq.length
    dict := buildDict s.codeBase (selectTop s.topN s.freq) }

end Sys2Proof.Machine
end

