-- ==== Sys2Proof/Machine/Block.lean ====
section
/-! DEFINITION. The block steps that run no row of the opcode table: the phases COUNT, SELECT and ENC of
the phase table 45_commands.md R185. Phase DEC's steps are instructions. -/

namespace Sys2Proof.Machine

/-- `Chunk(k)` handed to the step that needs it; an address outside IBUF does not exist (R101; log
entry 12). -/
def withChunk (k : Nat) (f : Chunk → Result) (s : State) : Result :=
  if 4 * k + 4 ≤ Config.ibufBytes then f (s.chunkAt k) else .fault .ibufReadOutOfRange

/-- COUNT of one chunk (R110). -/
def State.countOne (c : Chunk) (s : State) : State :=
  { s with freq := countChunk c s.freq, pos := s.pos + 1 }

/-- Phase COUNT: COUNT, or its exit (R185). -/
def countStep (s : State) : Result :=
  if s.pos.toNat < s.chunkCount then withChunk s.pos.toNat (fun c => .next (s.countOne c)) s
  else if s.pos.toNat = s.chunkCount then .next (s.enter .select)
  else .fault .noPhaseRow

/-- Phase SELECT: SELECT and BUILD, then the end of ANALYZE or COMPRESS's way into ENC (R185). -/
def selectStep (s : State) : Result :=
  match s.cmd with
  | .analyze => .next s.selectAndBuild.finish
  | .compress => .next (s.selectAndBuild.rewind.enter .enc)
  | .encode => .fault .noPhaseRow
  | .decode => .fault .noPhaseRow

/-- ENC_HIT (R140). -/
def encHit (code : BitVec 16) (s : State) : Result :=
  memWrite s.opos.toNat (unitBytes code) (fun s => s.advance 1 2) s

/-- ENC_MISS (R141). -/
def encMiss (c : Chunk) (s : State) : Result :=
  memWrite s.opos.toNat (chunkBytes c) (fun s => (s.setMiss c).advance 1 4) s

/-- One chunk encoded: a hit or a miss (R140, R141). -/
def encodeChunk (c : Chunk) (s : State) : Result :=
  match lookupChunk s.dict c with
  | some code => encHit code s
  | none => encMiss c s

/-- ENC_END (R142). -/
def State.encEnd (s : State) : State := (s.closeOutput s.opos).finish

/-- Phase ENC: one chunk, or the end (R185). -/
def encStep (s : State) : Result :=
  if s.pos.toNat < s.chunkCount then withChunk s.pos.toNat (fun c => encodeChunk c s) s
  else if s.pos.toNat = s.chunkCount then .next s.encEnd
  else .fault .noPhaseRow

/-- A block step outside phase DEC (R184, R185); an idle block has none and its turn passes (log
entry 4). -/
def blockStep (s : State) : Result :=
  match s.phase with
  | .idle => .next s
  | .count => countStep s
  | .select => selectStep s
  | .enc => encStep s
  | .dec => .fault .noPhaseRow

end Sys2Proof.Machine
end

