-- ==== Sys2Proof/Machine/Commands.lean ====
section
/-! DEFINITION. The command family, 45_commands.md R177 to R183: one meaning for each command word a
host writes to CTRL. -/

namespace Sys2Proof.Machine

/-- CHECK(c): the first failing check, in the order of 60_exceptions.md R202. -/
def check (c : BitVec 4) (s : State) : Option ErrCode :=
  if 6 ≤ c.toNat then some .badCmd
  else if c.toNat = 0 ∨ c.toNat = 5 then none
  else if Config.ibufBytes < s.inLen.toNat then some .badLen
  else if (c.toNat = 1 ∨ c.toNat = 3) ∧ configOk s.codeBase s.topN = false then some .badCfg
  else if (c.toNat = 2 ∨ c.toNat = 4) ∧ dictWellFormed s.dict = false then some .badDict
  else none

/-- A write of CTRL with CMD `c`: dropped while BUSY (R176); otherwise STATUS and the captures are
cleared, the checks run, and the command is refused or its acceptance action is done (R177). -/
def ctrlWrite (c : BitVec 4) (act : State → State) (s : State) : Result :=
  if s.busy then .next s.dropWrite
  else
    match check c s.clearForCommand with
    | some e => .next (s.clearForCommand.refuse e)
    | none => .next (act s.clearForCommand)

/-- The acceptance action of ANALYZE and COMPRESS (R179, R181). -/
def State.startCount (c : Cmd) (s : State) : State := (s.pad.clearFreq.rewindPos).start c .count

/-- NOP (R178). -/
def execNop (_ign : BitVec 28) (s : State) : Result := ctrlWrite 0x0 State.markDone s

/-- ANALYZE (R179). -/
def execAnalyze (_ign : BitVec 28) (s : State) : Result := ctrlWrite 0x1 (State.startCount .analyze) s

/-- ENCODE (R180). -/
def execEncode (_ign : BitVec 28) (s : State) : Result :=
  ctrlWrite 0x2 (fun s => s.pad.rewind.start .encode .enc) s

/-- COMPRESS (R181). -/
def execCompress (_ign : BitVec 28) (s : State) : Result := ctrlWrite 0x3 (State.startCount .compress) s

/-- DECODE (R182). -/
def execDecode (_ign : BitVec 28) (s : State) : Result :=
  ctrlWrite 0x4 (fun s => s.rewind.start .decode .dec) s

/-- DICT_CLEAR (R183). -/
def execDictClear (_ign : BitVec 28) (s : State) : Result :=
  ctrlWrite 0x5 (fun s => s.clearDict.markDone) s

/-- RESERVED_CMD_6_7: always refused with BAD_CMD (R90, R202). -/
def execReservedCmd67 (_ign : BitVec 28) (low : BitVec 1) (s : State) : Result :=
  ctrlWrite (0b011#3 ++ low) (fun s => s) s

/-- RESERVED_CMD_8_F: always refused with BAD_CMD (R90, R202). -/
def execReservedCmd8F (_ign : BitVec 28) (low : BitVec 3) (s : State) : Result :=
  ctrlWrite (0b1#1 ++ low) (fun s => s) s

end Sys2Proof.Machine
end

