-- ==== Sys2Proof/Machine/Forms.lean ====
section
/-! DEFINITION. The stream-form family, 44_decoder.md R152 to R158: one meaning for each operation of
phase DEC. A meaning does not look at the phase: the step dispatches it (log entry 16). -/

namespace Sys2Proof.Machine

/-- DEC_UNKNOWN: the output closed at what is decoded, UNKNOWN_CODE raised with the unit's offset and
value, nothing written for the unit (R153, R205). -/
def State.unknownUnit (val : StreamUnit) (s : State) : State :=
  (s.closeOutput s.opos).raise .unknownCode s.pos val

/-- A decoded chunk appended to OBUF, and the stream's position moved on (R152, R154). -/
def emitChunk (ch : Chunk) (dpos : BitVec 32) (s : State) : Result :=
  memWrite s.opos.toNat (chunkBytes ch) (fun s => s.advance dpos 4) s

/-- CODE: the chunk of the key is emitted (R152). A key that no valid slot holds is an unassigned
code and raises UNKNOWN_CODE (R82). -/
def execCode (key : StreamUnit) (s : State) : Result :=
  match lookupCode s.dict key with
  | some ch => emitChunk ch 2 s
  | none => .next (s.unknownUnit key)

/-- UNKNOWN_CODE (R153). -/
def execUnknownCode (key : StreamUnit) (s : State) : Result := .next (s.unknownUnit key)

/-- VERBATIM: the four bytes are emitted unchanged (R154). -/
def execVerbatim (chunk : Chunk) (s : State) : Result := emitChunk chunk 4 s

/-- TAIL_HALF: TAIL and TRUNCATE; nothing is written for the half (R156). -/
def execTailHalf (_u0 : StreamUnit) (_extra : Option Byte) (s : State) : Result :=
  .next (s.setTail.truncate s.opos)

/-- TAIL_BYTE: TAIL and TRUNCATE; the byte is not used (R157). -/
def execTailByte (_b : Byte) (s : State) : Result := .next (s.setTail.truncate s.opos)

/-- END: TRUNCATE (R155). -/
def execEndOfStream (s : State) : Result := .next (s.truncate s.opos)

end Sys2Proof.Machine
end

