-- ==== Sys2Proof/Machine/Dispatch.lean ====
section
/-! DEFINITION. The meaning of each instruction, one arm per row of the opcode table. -/

namespace Sys2Proof.Machine

def exec (i : Instr) (s : State) : Host.Outcome State Fault Refusal :=
  match i with
  | .nop ign => Sys2Proof.Machine.execNop ign s
  | .analyze ign => Sys2Proof.Machine.execAnalyze ign s
  | .encode ign => Sys2Proof.Machine.execEncode ign s
  | .compress ign => Sys2Proof.Machine.execCompress ign s
  | .decode ign => Sys2Proof.Machine.execDecode ign s
  | .dictClear ign => Sys2Proof.Machine.execDictClear ign s
  | .reservedCmd67 ign low => Sys2Proof.Machine.execReservedCmd67 ign low s
  | .reservedCmd8F ign low => Sys2Proof.Machine.execReservedCmd8F ign low s
  | .code key => Sys2Proof.Machine.execCode key s
  | .unknownCode key => Sys2Proof.Machine.execUnknownCode key s
  | .verbatim chunk => Sys2Proof.Machine.execVerbatim chunk s
  | .tailHalf u0 extra => Sys2Proof.Machine.execTailHalf u0 extra s
  | .tailByte b => Sys2Proof.Machine.execTailByte b s
  | .endOfStream => Sys2Proof.Machine.execEndOfStream s

end Sys2Proof.Machine
end

