-- ==== Sys2Proof/Machine/Registers.lean ====
section
/-! DEFINITION. The register map of 10_state.md R22 and the host's five transactions, 45_commands.md
R170 to R176. A write to CTRL is not here: it is an instruction. -/

namespace Sys2Proof.Machine

/-- The register of a slot's window by the offset inside it (R45). -/
def windowRegAt (j r : Nat) : Reg :=
  if r = 0x0 then .dictChunk j else if r = 0x4 then .dictCode j else if r = 0x8 then .dictFreq j else .reserved

/-- The registers below the DICT window, by byte offset (R22). -/
def fixedRegs : List (Nat × Reg) :=
  [(0x000, .ctrl), (0x004, .status), (0x008, .codeBase), (0x00C, .topN), (0x010, .inLen), (0x014, .origSize),
   (0x018, .outLen), (0x01C, .padLen), (0x020, .paddedLen), (0x024, .dictCount), (0x028, .distinct),
   (0x02C, .errPos), (0x030, .errVal), (0x034, .dictDepth), (0x038, .ibufSize), (0x03C, .obufSize)]

/-- The register at a byte offset (R22): one of the fixed ones, or one of a slot's window (R45); every
other offset is reserved. -/
def regAt (off : Nat) : Reg :=
  if 0x100 ≤ off then
    if (off - 0x100) / 0x10 < Config.dictDepth then windowRegAt ((off - 0x100) / 0x10) ((off - 0x100) % 0x10)
    else .reserved
  else (fixedRegs.lookup off).getD .reserved

/-- DICT_CODE's word: [31] VALID, [15:0] CODE, the rest 0 (R45, R91). -/
def Slot.codeWord (d : Slot) : Word := BitVec.ofBool d.valid ++ (0#15 ++ d.code)

/-- A register's value as a read returns it, bits outside "width used" 0 (R22 to R45). -/
def State.readReg (s : State) : Reg → Word
  | .ctrl => 0
  | .status => s.statusWord s.status.haz
  | .codeBase => s.codeBase.setWidth 32
  | .topN => s.topN.setWidth 32
  | .inLen => s.inLen
  | .origSize => s.origSize
  | .outLen => s.outLen
  | .padLen => s.padLen.setWidth 32
  | .paddedLen => s.paddedLen
  | .dictCount => BitVec.ofNat 32 (dictCount s.dict)
  | .distinct => s.distinct
  | .errPos => s.errPos
  | .errVal => s.errVal.setWidth 32
  | .dictDepth => BitVec.ofNat 32 Config.dictDepth
  | .ibufSize => BitVec.ofNat 32 Config.ibufBytes
  | .obufSize => BitVec.ofNat 32 Config.obufBytes
  | .dictChunk j => (s.slot j).chunk
  | .dictCode j => (s.slot j).codeWord
  | .dictFreq j => (s.slot j).freq
  | .reserved => 0

/-- The registers that read an unspecified value while BUSY = 1 (R176); STATUS does so in one bit. -/
def Reg.unspecifiedWhileBusy : Reg → Bool
  | .outLen => true
  | .dictCount => true
  | .distinct => true
  | .errPos => true
  | .errVal => true
  | .dictChunk _ => true
  | .dictCode _ => true
  | .dictFreq _ => true
  | .ctrl => false
  | .status => false
  | .codeBase => false
  | .topN => false
  | .inLen => false
  | .origSize => false
  | .padLen => false
  | .paddedLen => false
  | .dictDepth => false
  | .ibufSize => false
  | .obufSize => false
  | .reserved => false

/-- A register written with the "width used" bits of a word; read-only and reserved ones keep their
value (R22, R172). CTRL holds no value: its write is an instruction. -/
def State.writeReg (v : Word) (s : State) : Reg → State
  | .codeBase => { s with codeBase := v.extractLsb' 0 16 }
  | .topN => { s with topN := v.extractLsb' 0 8 }
  | .inLen => { s with inLen := v }
  | .origSize => { s with origSize := v }
  | .dictChunk j => s.loadSlot j (fun d => { d with chunk := v })
  | .dictCode j => s.loadSlot j (fun d => { d with valid := v.getLsbD 31, code := v.extractLsb' 0 16 })
  | .ctrl => s
  | .status => s
  | .outLen => s
  | .padLen => s
  | .paddedLen => s
  | .dictCount => s
  | .distinct => s
  | .errPos => s
  | .errVal => s
  | .dictDepth => s
  | .ibufSize => s
  | .obufSize => s
  | .dictFreq _ => s
  | .reserved => s

/-- RegRead (R171, R176): exact while idle; while busy some registers and the HAZ bit are drawn. -/
def hostRegRead (off : Nat) (s : State) : State :=
  if s.busy && (regAt off).unspecifiedWhileBusy then (s.reply (.reg off s.freeValue)).nextDraw
  else if s.busy && decide (regAt off = .status) then
    (s.reply (.reg off (s.statusWord (s.freeValue.getLsbD 0)))).nextDraw
  else s.reply (.reg off (s.readReg (regAt off)))

/-- RegWrite of any register but CTRL (R172, R176). -/
def hostRegWrite (off : Nat) (v : Word) (s : State) : State :=
  if s.busy then s.dropWrite else s.writeReg v (regAt off)

/-- IbufRead (R71, R173): exact at all times. -/
def hostIbufRead (a : Nat) (s : State) : State :=
  s.reply (.ibuf a (if a < Config.ibufBytes then s.ibufByte a else 0))

/-- IbufWrite (R71, R174, R176). -/
def hostIbufWrite (a : Nat) (b : Byte) (s : State) : State :=
  if s.busy then s.dropWrite else if a < Config.ibufBytes then s.writeIbuf a b else s

/-- ObufRead (R71, R175, R176). -/
def hostObufRead (a : Nat) (s : State) : State :=
  if s.busy then (s.reply (.obuf a (s.freeValue.extractLsb' 0 8))).nextDraw
  else s.reply (.obuf a (if a < Config.obufBytes then s.obufByte a else 0))

/-- A host transaction other than a CTRL write (R170). -/
def hostStep (s : State) : Tx → State
  | .regRead off => hostRegRead off s
  | .regWrite off v => hostRegWrite off v s
  | .ibufRead a => hostIbufRead a s
  | .ibufWrite a b => hostIbufWrite a b s
  | .obufRead a => hostObufRead a s

end Sys2Proof.Machine
end

