-- ==== Sys2Proof/Machine/Fetch.lean ====
section
/-! DEFINITION. What the next step does: whose turn it is (20_memory.md R72) and, where that runs a row
of the opcode table, which instruction it reads and where from. -/

namespace Sys2Proof.Machine

/-- What one step does. -/
inductive Work where
  /-- It runs an instruction: a host write of CTRL, or a form in phase DEC. -/
  | instr (i : Instr)
  /-- It performs a host transaction other than a CTRL write. -/
  | host (t : Tx)
  /-- It takes a block step outside phase DEC, or passes an idle block's turn. -/
  | block
  /-- It resets the hardware. -/
  | reset
  /-- It cannot go on: a state the phase table has no row for, or an address outside IBUF. -/
  | stop (f : Fault)
  deriving DecidableEq, Repr

/-- Whether the dictionary holds a key: LOOKUP_CODE finds a chunk (R125, R150). -/
def State.knows (s : State) (key : StreamUnit) : Bool := (lookupCode s.dict key).isSome

/-- Phase DEC's dispatch (R150): the form at the position, read from IBUF. -/
def fetchForm (s : State) : Work :=
  if s.inLen.toNat < s.pos.toNat then .stop .noPhaseRow
  else if Config.ibufBytes < s.pos.toNat + min 4 s.bytesLeft then .stop .ibufReadOutOfRange
  else .instr (decode s.knows (.stream s.streamWindow))

/-- The block's turn (R184). -/
def blockWork (s : State) : Work := if s.phase = .dec then fetchForm s else .block

/-- A host transaction's work: a write of CTRL is an instruction (R172, R177). -/
def hostWork : Tx → Work
  | .regWrite off v => if regAt off = .ctrl then .instr (decode (fun _ => false) (.ctrl v)) else .host (.regWrite off v)
  | .regRead off => .host (.regRead off)
  | .ibufRead a => .host (.ibufRead a)
  | .ibufWrite a b => .host (.ibufWrite a b)
  | .obufRead a => .host (.obufRead a)

/-- The next step's work; with no turn left the block moves (R186; log entry 4). -/
def nextWork (s : State) : Work :=
  match s.turns with
  | [] => blockWork s
  | .block :: _ => blockWork s
  | .reset :: _ => .reset
  | .host t :: _ => hostWork t

/-- The dictionary with a key valid in it: as it is if it holds the key, otherwise with slot 0 made
valid with that code. -/
def dictKnowing (key : StreamUnit) (dict : List Slot) : List Slot :=
  if (lookupCode dict key).isSome then dict
  else putSlot { slotOf dict 0 with valid := true, code := key } 0 dict

/-- The dictionary a stream's first form needs to be read as CODE: its key is in it. -/
def dictForStream (dict : List Slot) : List Byte → List Slot
  | [] => dict
  | [_] => dict
  | b0 :: b1 :: _ => if StreamUnit.tagged (unitOfBytes b0 b1) then dictKnowing (unitOfBytes b0 b1) dict else dict

/-- An instruction's words placed where the next step fetches: a command word as the host's next
transaction, a stream form as all that is left of a stream in IBUF, with the block in phase DEC, its
turn next, and a code unit's key in the dictionary (log entries 13 and 15). -/
def State.placeWords (s : State) : Words → State
  | .ctrl w => { s with turns := .host (.regWrite 0x000 w) :: s.turns }
  | .stream bs =>
    { s with
      phase := .dec
      cmd := .decode
      ibuf := s.ibuf.writeBytes s.pos.toNat bs
      inLen := s.pos + BitVec.ofNat 32 bs.length
      dict := dictForStream s.dict bs
      turns := .block :: s.turns }

end Sys2Proof.Machine
end

