-- ==== Sys2Proof/Machine/Step.lean ====
section
/-! DEFINITION. One step of the machine: the next turn of the one total order (20_memory.md R72). -/

namespace Sys2Proof.Machine

/-- The turn is taken off and its work done. -/
def step (s : State) : Host.Outcome State Fault Refusal :=
  match nextWork s with
  | .instr i => exec i s.popTurn
  | .host t => .next (hostStep s.popTurn t)
  | .block => blockStep s.popTurn
  | .reset => .next s.popTurn.hardwareReset
  | .stop f => .fault f

/-- A table row's word placed where the next step fetches it; a word that is no row's changes
nothing. -/
def State.withFetchWord (s : State) (nbits w : Nat) : State :=
  match tableWords nbits w with
  | .ok ws => s.placeWords ws
  | .error _ => s

end Sys2Proof.Machine
end

