-- ==== Sys2Proof/Machine/HostProgram.lean ====
section
/-! DEFINITION. The host's pseudo-instructions as turns, 30_encoding.md R93, R96, R97. They only build
transactions of R170; nothing here is state. `poll` and `run` need no turns of their own: with no turn
left the block runs until it is idle (R186). -/

namespace Sys2Proof.Machine

/-- `wr CTRL, v` (R96). -/
def ctrlTurn (v : Word) : Turn := .host (.regWrite 0x000 v)

/-- `cmd X` of a CMD code (R97). -/
def cmdTurn (c : BitVec 4) : Turn := ctrlTurn (c.setWidth 32)

/-- `ib a: b0 b1 ...` (R96). -/
def ibTurns : Nat → List Byte → List Turn
  | _, [] => []
  | a, b :: bs => .host (.ibufWrite a b) :: ibTurns (a + 1) bs

/-- One line of a dictionary record loaded into slot `j` (R93). -/
def recordTurns (j : Nat) (chunk : Chunk) (code : BitVec 16) : List Turn :=
  [.host (.regWrite (0x100 + 0x10 * j) chunk),
   .host (.regWrite (0x104 + 0x10 * j) (0x80000000#32 ||| code.setWidth 32))]

/-- `copy n`: each OBUF byte read and written to IBUF (R97, R230). -/
def copyTurns (s : State) (n : Nat) : List Turn :=
  (List.range n).flatMap (fun a => [.host (.obufRead a), .host (.ibufWrite a (s.obufByte a))])

end Sys2Proof.Machine
end

