-- ==== Sys2Proof/Safety.lean ====
section
/-! DEFINITION. What the claims are said in: runs, the invariant of every run, and what a whole command
computes as a function of its input. -/

namespace Sys2Proof.Machine

/-! ## Runs -/

/-- `k` steps, stopping at the first fault or refusal. -/
def runSteps : Nat → State → Result
  | 0, s => .next s
  | k + 1, s =>
    match step s with
    | .next t => runSteps k t
    | .fault f => .fault f
    | .refused r => .refused r

/-- The next state of a result, if it is one. -/
def nextOf : Result → Option State
  | .next t => some t
  | .fault _ => none
  | .refused _ => none

/-- The next step is the block's: its turn is next, or no turn is left (R72, R186). -/
def State.BlockTurn (s : State) : Prop := s.turns = [] ∨ s.turns.head? = some .block

/-! ## The invariant -/

/-- Every byte of OBUF below an address has been written. -/
def State.obufWritten (s : State) (n : Nat) : Prop := ∀ a, a < n → (s.obuf.read a).isSome = true

/-- PAD's results stand for IN_LEN (R100, R102). -/
structure State.Padded (s : State) : Prop where
  paddedLen : s.paddedLen.toNat = s.inLen.toNat + padOf s.inLen.toNat
  padLen : s.padLen.toNat = padOf s.inLen.toNat
  origSize : s.origSize = s.inLen

/-- FREQ's entries have distinct chunks and positive counts that add up to the chunks counted (R110,
R111). -/
structure FreqSums (freq : List FreqEntry) (n : Nat) : Prop where
  distinctChunks : (freq.map (·.chunk)).Nodup
  positive : ∀ e ∈ freq, 0 < e.count.toNat
  total : (freq.map (·.count.toNat)).sum = n

/-- What holds in each phase (R48, R49, R67, R144, R151, R185). -/
def State.PhaseInv (s : State) : Prop :=
  match s.phase with
  | .idle => True
  | .count =>
    (s.cmd = .analyze ∨ s.cmd = .compress) ∧ s.Padded ∧ configOk s.codeBase s.topN = true ∧
      s.pos.toNat ≤ s.chunkCount ∧ FreqSums s.freq s.pos.toNat
  | .select =>
    (s.cmd = .analyze ∨ s.cmd = .compress) ∧ s.Padded ∧ configOk s.codeBase s.topN = true ∧
      s.pos.toNat = s.chunkCount ∧ FreqSums s.freq s.pos.toNat
  | .enc =>
    (s.cmd = .encode ∨ s.cmd = .compress) ∧ s.Padded ∧ dictWellFormed s.dict = true ∧
      s.pos.toNat ≤ s.chunkCount ∧ s.opos.toNat % 2 = 0 ∧ 2 * s.pos.toNat ≤ s.opos.toNat ∧
      s.opos.toNat ≤ 4 * s.pos.toNat ∧ s.obufWritten s.opos.toNat
  | .dec =>
    s.cmd = .decode ∧ dictWellFormed s.dict = true ∧ s.pos.toNat % 2 = 0 ∧
      s.pos.toNat ≤ s.inLen.toNat ∧ s.opos.toNat % 4 = 0 ∧ s.opos.toNat ≤ 2 * s.pos.toNat ∧
      s.obufWritten s.opos.toNat

/-- The invariant of every run: both memories in canonical form and inside their spaces, DICT in its form
and within its depth, OUT_LEN's bytes written, and while a command runs its length in range, no outcome recorded yet
and its phase's own conditions. -/
structure State.Inv (s : State) : Prop where
  ibufWf : s.ibuf.wf
  obufWf : s.obuf.wf
  ibufInside : ∀ c ∈ s.ibuf, c.1 < Config.ibufBytes
  obufInside : ∀ c ∈ s.obuf, c.1 < Config.obufBytes
  dictForm : DictForm s.dict
  outWritten : s.obufWritten s.outLen.toNat
  busyLen : s.phase ≠ .idle → s.inLen.toNat ≤ Config.ibufBytes
  busyStatus : s.phase ≠ .idle →
    s.status = { Status.clear with haz := s.status.haz, busyWr := s.status.busyWr }
  busyCaptures : s.phase ≠ .idle → s.errPos = 0 ∧ s.errVal = 0
  phaseInv : s.PhaseInv

/-! ## What a command computes -/

/-- The padded input as chunks, in order (R102). -/
def State.inputChunks (s : State) : List Chunk :=
  (List.range ((s.inLen.toNat + padOf s.inLen.toNat) / 4)).map s.chunkAt

/-- FREQ after the COUNT steps of these chunks (R110, R111). -/
def freqOf (chunks : List Chunk) : List FreqEntry := chunks.foldl (fun l c => countChunk c l) []

/-- One chunk's output under a dictionary: its code's two bytes, or its four bytes (R140, R141). -/
def chunkOutput (dict : List Slot) (c : Chunk) : List Byte :=
  match lookupChunk dict c with
  | some code => unitBytes code
  | none => chunkBytes c

/-- The encoded stream of chunks (R142). -/
def encodedBytes (dict : List Slot) (chunks : List Chunk) : List Byte := chunks.flatMap (chunkOutput dict)

/-- Whether encoding these chunks writes a collision (R143). -/
def anyCollision (dict : List Slot) (chunks : List Chunk) : Bool :=
  chunks.any (fun c => (lookupChunk dict c).isNone && collides c)

/-- How a decode of a whole stream ends (R150). -/
inductive StreamEnd where
  /-- no byte left (R155) -/
  | atEnd
  /-- a half or a byte left (R156, R157) -/
  | atTail
  /-- an unassigned code unit at an offset (R153) -/
  | unknown (pos : Nat) (val : StreamUnit)
  deriving DecidableEq, Repr

/-- The chunks' bytes that a stream decodes to, up to its end, tail or unknown code (R150 to R157). -/
def decodedBytes (dict : List Slot) : List Byte → List Byte
  | [] => []
  | [_] => []
  | b0 :: b1 :: rest =>
    if StreamUnit.tagged (unitOfBytes b0 b1) then
      match lookupCode dict (unitOfBytes b0 b1) with
      | some ch => chunkBytes ch ++ decodedBytes dict rest
      | none => []
    else
      match rest with
      | b2 :: b3 :: rest' => [b0, b1, b2, b3] ++ decodedBytes dict rest'
      | [_] => []
      | [] => []

/-- How a stream that starts at offset `i` ends (R150 to R157). -/
def streamEnd (dict : List Slot) (i : Nat) : List Byte → StreamEnd
  | [] => .atEnd
  | [_] => .atTail
  | b0 :: b1 :: rest =>
    if StreamUnit.tagged (unitOfBytes b0 b1) then
      match lookupCode dict (unitOfBytes b0 b1) with
      | some _ => streamEnd dict (i + 2) rest
      | none => .unknown i (unitOfBytes b0 b1)
    else
      match rest with
      | _ :: _ :: rest' => streamEnd dict (i + 4) rest'
      | [_] => .atTail
      | [] => .atTail

/-- A dictionary's valid (CHUNK, CODE) pairs, in slot order (R163). -/
def validPairs (dict : List Slot) : List (Chunk × BitVec 16) :=
  (validSlots dict).map (fun d => (d.chunk, d.code))

end Sys2Proof.Machine
end

