-- ==== Sys2Proof/Certificates/Slice0/Obligations.lean ====
section
/-! DEFINITION. The statements for the provers. Each docstring names the rule of spec/ it formalises, or
says that the statement is the model's own and names the log entry. -/

open Sys2Proof Sys2Proof.Machine

/-! ## Encoding -/

/-- R80, R89: the decoder reads every well-formed instruction back from its words. A code unit reads
as CODE or UNKNOWN_CODE by whether the dictionary holds its key (R150). -/
def Obligations.DecodeOfEncodeIsTheInstruction : Prop :=
  ∀ (known : StreamUnit → Bool) (i : Instr), i.wellFormed = true →
    (∀ key, i = .code key → known key = true) → (∀ key, i = .unknownCode key → known key = false) →
    decode known (encode i) = i

/-- R86, R89: no bit of what is decoded is lost. A command word is its instruction's whole word; a
stream's next form is the stream's next bytes, and a form that leaves bytes behind is 2 or 4 bytes
long. -/
def Obligations.EncodeOfDecodeIsTheWords : Prop :=
  ∀ (known : StreamUnit → Bool),
    (∀ w : Word, encode (decode known (.ctrl w)) = .ctrl w) ∧
    (∀ bs : List Byte, ∃ taken rest, encode (decode known (.stream bs)) = .stream taken ∧
      bs = taken ++ rest ∧ (rest = [] ∨ taken.length = 2 ∨ taken.length = 4))

/-- R82 to R84: whatever the words, what the decoder reads is a well-formed instruction. -/
def Obligations.DecodedInstructionIsWellFormed : Prop :=
  ∀ (known : StreamUnit → Bool) (ws : Words), (decode known ws).wellFormed = true

/-- R86: the form is found from the number of bytes left and the tag, bit 7 of the next byte, alone: END,
a lone byte, a code unit of the next 2 bytes, a verbatim pair of the next 4, or a half with all that is
left. The bytes of the form are those its encoding has. -/
def Obligations.StreamFormFollowsBytesLeftAndTag : Prop :=
  ∀ (known : StreamUnit → Bool) (bs : List Byte),
    (bs.length = 0 → decode known (.stream bs) = .endOfStream) ∧
    (bs.length = 1 → ∃ b, decode known (.stream bs) = .tailByte b ∧ bs = [b]) ∧
    (∀ b0, 2 ≤ bs.length → bs[0]? = some b0 → b0.getLsbD 7 = true →
      ∃ key, (decode known (.stream bs) = .code key ∨ decode known (.stream bs) = .unknownCode key) ∧
        encode (decode known (.stream bs)) = .stream (bs.take 2)) ∧
    (∀ b0, 4 ≤ bs.length → bs[0]? = some b0 → b0.getLsbD 7 = false →
      ∃ c, decode known (.stream bs) = .verbatim c ∧
        encode (decode known (.stream bs)) = .stream (bs.take 4)) ∧
    (∀ b0, 2 ≤ bs.length → bs.length ≤ 3 → bs[0]? = some b0 → b0.getLsbD 7 = false →
      ∃ u0 extra, decode known (.stream bs) = .tailHalf u0 extra ∧
        encode (decode known (.stream bs)) = .stream bs)

/-- R80, R89, R95: a few words written out from the encodings decode to the instructions they stand
for, the ignored bits [31:4] of a command word not among what selects it. -/
def Obligations.SpecWordsDecodeAsWritten : Prop :=
  decode (fun _ => true) (.ctrl 0x00000013) = .compress 1 ∧
  decode (fun _ => true) (.ctrl 0xFFFFFFF0) = .nop 0xFFFFFFF ∧
  decode (fun _ => true) (.ctrl 0x00000009) = .reservedCmd8F 0 1 ∧
  decode (fun _ => true) (.stream [0x80, 0x01, 0x12]) = .code 0x8001 ∧
  decode (fun _ => false) (.stream [0x90, 0x00, 0x00, 0x00]) = .unknownCode 0x9000 ∧
  decode (fun _ => true) (.stream [0x05, 0x06, 0x80, 0x01]) = .verbatim 0x05068001 ∧
  decode (fun _ => true) (.stream [0x12, 0x34, 0x56]) = .tailHalf 0x1234 (some 0x56)

/-! ## The step -/

/-- R172, R177: a host write of CTRL runs the command its word decodes to, its turn taken off. -/
def Obligations.CtrlWriteStepRunsTheDecodedCommand : Prop :=
  ∀ (s : State) (ts : List Turn) (w : Word) (known : StreamUnit → Bool) (i : Instr),
    s.turns = .host (.regWrite 0x000 w) :: ts → decode known (.ctrl w) = i → i.wellFormed = true →
    step s = exec i { s with turns := ts }

/-- R150, R184: in phase DEC the block's step runs the form that the bytes of IBUF from `pos` to IN_LEN
decode to, a code unit read by the dictionary as it stands; the block's turn, if one was given, is
taken off. -/
def Obligations.DecStepRunsTheDecodedForm : Prop :=
  ∀ (s : State) (i : Instr), s.BlockTurn → s.phase = .dec → s.pos.toNat ≤ s.inLen.toNat →
    s.inLen.toNat ≤ Config.ibufBytes →
    decode (fun key => (lookupCode s.dict key).isSome)
      (.stream (s.ibufSlice s.pos.toNat (s.inLen.toNat - s.pos.toNat))) = i →
    i.wellFormed = true →
    step s = exec i { s with turns := s.turns.tail }

/-- R222, R184: an idle block with no turn left waits: nothing changes. The waiting step is the model's
own form, log entry 4. -/
def Obligations.IdleBlockWithNoTurnWaits : Prop :=
  ∀ s : State, s.turns = [] → s.phase = .idle → step s = .next s

/-- R204 to R206: no step refuses, in any state: the errors of the spec are recorded, they stop
nothing. -/
def Obligations.NoStepRefuses : Prop :=
  ∀ (s : State) (r : Refusal), step s ≠ .refused r

/-! ## Commands at acceptance -/

/-- R178: NOP clears STATUS and the captures and sets DONE, nothing else. -/
def Obligations.NopClearsStatusAndSetsDone : Prop :=
  ∀ (ign : BitVec 28) (s : State), s.phase = .idle →
    exec (.nop ign) s =
      .next { s with status := { Status.clear with done := true }, errPos := 0, errVal := 0 }

/-- R183, R128: DICT_CLEAR sets every slot to zero and invalid and DONE, nothing else beyond the clears
of acceptance; DICT_COUNT reads 0 afterwards. -/
def Obligations.DictClearInvalidatesEverySlot : Prop :=
  ∀ (ign : BitVec 28) (s : State), s.phase = .idle →
    ∃ t, exec (.dictClear ign) s = .next t ∧
      t = { s with
        status := { Status.clear with done := true }
        errPos := 0
        errVal := 0
        dict := t.dict } ∧
      (∀ j, t.slot j = { valid := false, chunk := 0, code := 0, freq := 0 }) ∧
      t.readReg .dictCount = 0

/-- R90, R202: a reserved command code is refused with BAD_CMD whatever its ignored bits, and changes
nothing but STATUS and the captures. -/
def Obligations.ReservedCommandIsRefusedWithBadCmd : Prop :=
  ∀ s : State, s.phase = .idle →
    (∀ ign low, exec (.reservedCmd67 ign low) s =
      .next { s with
        status := { Status.clear with done := true, err := .badCmd }, errPos := 0, errVal := 0 }) ∧
    (∀ ign low, exec (.reservedCmd8F ign low) s =
      .next { s with
        status := { Status.clear with done := true, err := .badCmd }, errPos := 0, errVal := 0 })

/-- R179, R181, R100: ANALYZE and COMPRESS, their length in range and their configuration legal, start
phase COUNT on the padded input. -/
def Obligations.AnalyzeAndCompressStartCounting : Prop :=
  ∀ (ign : BitVec 28) (s : State), s.phase = .idle → s.inLen.toNat ≤ Config.ibufBytes →
    0x8000 ≤ s.codeBase.toNat → s.topN.toNat ≤ Config.dictDepth →
    s.codeBase.toNat + s.topN.toNat ≤ 0x10000 →
    (∃ t, exec (.analyze ign) s = .next t ∧
      t = { s with
        status := Status.clear, errPos := 0, errVal := 0, freq := [], pos := 0, cmd := .analyze,
        phase := .count, origSize := s.inLen, padLen := t.padLen, paddedLen := t.paddedLen } ∧
      t.padLen.toNat = (4 - s.inLen.toNat % 4) % 4 ∧
      t.paddedLen.toNat = s.inLen.toNat + (4 - s.inLen.toNat % 4) % 4) ∧
    (∃ t, exec (.compress ign) s = .next t ∧
      t = { s with
        status := Status.clear, errPos := 0, errVal := 0, freq := [], pos := 0, cmd := .compress,
        phase := .count, origSize := s.inLen, padLen := t.padLen, paddedLen := t.paddedLen } ∧
      t.padLen.toNat = (4 - s.inLen.toNat % 4) % 4 ∧
      t.paddedLen.toNat = s.inLen.toNat + (4 - s.inLen.toNat % 4) % 4)

/-- R180, R100: ENCODE, its length in range and its dictionary well-formed, starts phase ENC on the
padded input. -/
def Obligations.EncodeStartsEncoding : Prop :=
  ∀ (ign : BitVec 28) (s : State), s.phase = .idle → s.inLen.toNat ≤ Config.ibufBytes →
    dictWellFormed s.dict = true →
    ∃ t, exec (.encode ign) s = .next t ∧
      t = { s with
        status := Status.clear, errPos := 0, errVal := 0, pos := 0, opos := 0, cmd := .encode,
        phase := .enc, origSize := s.inLen, padLen := t.padLen, paddedLen := t.paddedLen } ∧
      t.padLen.toNat = (4 - s.inLen.toNat % 4) % 4 ∧
      t.paddedLen.toNat = s.inLen.toNat + (4 - s.inLen.toNat % 4) % 4

/-- R182: DECODE, its length in range and its dictionary well-formed, starts phase DEC and leaves
PAD_LEN, PADDED_LEN and ORIG_SIZE. -/
def Obligations.DecodeStartsDecoding : Prop :=
  ∀ (ign : BitVec 28) (s : State), s.phase = .idle → s.inLen.toNat ≤ Config.ibufBytes →
    dictWellFormed s.dict = true →
    exec (.decode ign) s =
      .next { s with
        status := Status.clear, errPos := 0, errVal := 0, pos := 0, opos := 0, cmd := .decode,
        phase := .dec }

/-- R202: the checks run in their order and the first that fails refuses the command: ERR and DONE,
the captures cleared, nothing else changed. A command that no check fails for is not refused. One clause
for each row of the check; a clause's conditions exclude those before it. -/
def Obligations.FirstFailingCheckRefusesTheCommand : Prop :=
  ∀ (w : Word) (s : State), s.phase = .idle →
    let c := w.toNat % 16
    let refusedWith := fun e : ErrCode => exec (decodeCtrl w) s =
      .next { s with status := { Status.clear with done := true, err := e }, errPos := 0, errVal := 0 }
    let notRefused := ∃ t, exec (decodeCtrl w) s = .next t ∧ t.status.err = .none
    (6 ≤ c → refusedWith .badCmd) ∧
    (c = 0 ∨ c = 5 → notRefused) ∧
    (1 ≤ c → c ≤ 4 → Config.ibufBytes < s.inLen.toNat → refusedWith .badLen) ∧
    ((c = 1 ∨ c = 3) → s.inLen.toNat ≤ Config.ibufBytes → configOk s.codeBase s.topN = false →
      refusedWith .badCfg) ∧
    ((c = 1 ∨ c = 3) → s.inLen.toNat ≤ Config.ibufBytes → configOk s.codeBase s.topN = true →
      notRefused) ∧
    ((c = 2 ∨ c = 4) → s.inLen.toNat ≤ Config.ibufBytes → dictWellFormed s.dict = false →
      refusedWith .badDict) ∧
    ((c = 2 ∨ c = 4) → s.inLen.toNat ≤ Config.ibufBytes → dictWellFormed s.dict = true → notRefused)

/-- R121: ANALYZE and COMPRESS, their length in range, are refused with BAD_CFG exactly when the code
base has no high bit, TOP_N exceeds the table, or the highest code would pass 0xFFFF, on naturals. -/
def Obligations.ConfigCheckIsItsThreeConditions : Prop :=
  ∀ (ign : BitVec 28) (i : Instr) (s : State), i = .analyze ign ∨ i = .compress ign → s.phase = .idle →
    s.inLen.toNat ≤ Config.ibufBytes →
    ∃ t, exec i s = .next t ∧
      (t.status.err = .badCfg ↔
        ¬ (s.codeBase.getLsbD 15 = true ∧ s.topN.toNat ≤ Config.dictDepth ∧
          s.codeBase.toNat + s.topN.toNat ≤ 0x10000))

/-- R126: ENCODE and DECODE, their length in range, are refused with BAD_DICT exactly when some valid
slot's code has no high bit or two valid slots share a code or a chunk. -/
def Obligations.DictionaryCheckIsPairwiseDistinctTaggedCodes : Prop :=
  ∀ (ign : BitVec 28) (i : Instr) (s : State), i = .encode ign ∨ i = .decode ign → s.phase = .idle →
    s.inLen.toNat ≤ Config.ibufBytes →
    ∃ t, exec i s = .next t ∧
      (t.status.err = .badDict ↔
        ¬ ((∀ j, (s.slot j).valid = true → (s.slot j).code.getLsbD 15 = true) ∧
          (∀ j j', j ≠ j' → (s.slot j).valid = true → (s.slot j').valid = true →
            (s.slot j).code ≠ (s.slot j').code ∧ (s.slot j).chunk ≠ (s.slot j').chunk)))

/-- R124: LOOKUP_CHUNK answers the code of the lowest valid slot that holds the chunk, and misses
exactly when no valid slot does. -/
def Obligations.ChunkLookupFindsTheLowestValidSlot : Prop :=
  ∀ (dict : List Slot) (c : Chunk),
    (lookupChunk dict c = none ↔ ∀ j, (slotOf dict j).valid = true → (slotOf dict j).chunk ≠ c) ∧
    (∀ code, lookupChunk dict c = some code ↔
      ∃ j, (slotOf dict j).valid = true ∧ (slotOf dict j).chunk = c ∧ (slotOf dict j).code = code ∧
        ∀ j', j' < j → (slotOf dict j').valid = true → (slotOf dict j').chunk ≠ c)

/-- R125: LOOKUP_CODE compares all 16 bits of the unit and answers the chunk of the lowest valid slot
with that code; it is unknown exactly when no valid slot has it. -/
def Obligations.CodeLookupComparesTheWholeUnit : Prop :=
  ∀ (dict : List Slot) (key : StreamUnit),
    (lookupCode dict key = none ↔ ∀ j, (slotOf dict j).valid = true → (slotOf dict j).code ≠ key) ∧
    (∀ ch, lookupCode dict key = some ch ↔
      ∃ j, (slotOf dict j).valid = true ∧ (slotOf dict j).code = key ∧ (slotOf dict j).chunk = ch ∧
        ∀ j', j' < j → (slotOf dict j').valid = true → (slotOf dict j').code ≠ key)

/-! ## Stream forms -/

/-- R152: a code unit whose key the dictionary holds appends the chunk's four bytes, most significant
first, and moves the position on by 2; no other byte of OBUF and no other state changes. -/
def Obligations.CodeHitAppendsTheChunk : Prop :=
  ∀ (key : StreamUnit) (ch : Chunk) (s : State), lookupCode s.dict key = some ch →
    s.opos.toNat + 4 ≤ Config.obufBytes →
    ∃ t, exec (.code key) s = .next t ∧
      t = { s with obuf := t.obuf, pos := s.pos + 2, opos := s.opos + 4 } ∧
      t.obufByte s.opos.toNat = ch.extractLsb' 24 8 ∧
      t.obufByte (s.opos.toNat + 1) = ch.extractLsb' 16 8 ∧
      t.obufByte (s.opos.toNat + 2) = ch.extractLsb' 8 8 ∧
      t.obufByte (s.opos.toNat + 3) = ch.extractLsb' 0 8 ∧
      (∀ a, a < s.opos.toNat ∨ s.opos.toNat + 4 ≤ a → t.obufByte a = s.obufByte a)

/-- R154: a verbatim pair's four bytes are appended unchanged and the position moves on by 4; no other
byte of OBUF and no other state changes. The second unit is not examined. -/
def Obligations.VerbatimAppendsItsFourBytes : Prop :=
  ∀ (b0 b1 b2 b3 : Byte) (s : State), s.opos.toNat + 4 ≤ Config.obufBytes →
    ∃ t, exec (.verbatim (b0 ++ b1 ++ b2 ++ b3)) s = .next t ∧
      t = { s with obuf := t.obuf, pos := s.pos + 4, opos := s.opos + 4 } ∧
      t.obufByte s.opos.toNat = b0 ∧ t.obufByte (s.opos.toNat + 1) = b1 ∧
      t.obufByte (s.opos.toNat + 2) = b2 ∧ t.obufByte (s.opos.toNat + 3) = b3 ∧
      (∀ a, a < s.opos.toNat ∨ s.opos.toNat + 4 ≤ a → t.obufByte a = s.obufByte a)

/-- R153, R82: a code unit that the dictionary does not hold closes the output at what is decoded,
records the unit's offset and value and raises UNKNOWN_CODE; no chunk is written for it, the bytes
decoded before it stay, and those at and above OUT_LEN are unspecified from then on (R75). The same
holds of the CODE form when its key is not found. `cmd` has any value once idle (R47). -/
def Obligations.UnknownCodeEndsTheDecodeWithItsUnit : Prop :=
  ∀ (key : StreamUnit) (s : State),
    (lookupCode s.dict key = none → exec (.code key) s = exec (.unknownCode key) s) ∧
    ∃ t, exec (.unknownCode key) s = .next t ∧
      t = { s with
        phase := .idle, cmd := t.cmd, status := { s.status with done := true, err := .unknownCode },
        outLen := s.opos, errPos := s.pos, errVal := key, obuf := t.obuf, obufGen := t.obufGen } ∧
      (∀ a, a < s.opos.toNat → (s.obuf.read a).isSome = true → t.obufByte a = s.obufByte a) ∧
      (∀ a, s.opos.toNat ≤ a → t.obuf.read a = none)

/-- R155 to R160: the end of the stream, a half unit and a lone byte end the decode without error, and
write nothing. OUT_LEN is ORIG_SIZE where it is recorded and not above the decoded length, otherwise the
decoded length; SHORT is set exactly when ORIG_SIZE is above it, and TAIL by the half and the byte. The
bytes below OUT_LEN stay, those at and above it are unspecified from then on (R75). `cmd` has any value
once idle (R47). -/
def Obligations.EndAndTailsFinishThroughTruncate : Prop :=
  ∀ (i : Instr) (u0 : StreamUnit) (extra : Option Byte) (b : Byte) (tail : Bool) (s : State),
    ((i = .tailHalf u0 extra ∨ i = .tailByte b) ∧ tail = true) ∨ (i = .endOfStream ∧ tail = s.status.tail) →
    ∃ t, exec i s = .next t ∧
      t = { s with
        phase := .idle, cmd := t.cmd,
        status := { s.status with
          done := true, tail := tail,
          short := s.status.short || decide (s.origSize ≠ 0 ∧ s.opos.toNat < s.origSize.toNat) },
        outLen := t.outLen, obuf := t.obuf, obufGen := t.obufGen } ∧
      (s.origSize = 0 ∨ s.opos.toNat < s.origSize.toNat → t.outLen = s.opos) ∧
      (s.origSize ≠ 0 → s.origSize.toNat ≤ s.opos.toNat → t.outLen = s.origSize) ∧
      (∀ a, a < t.outLen.toNat → (s.obuf.read a).isSome = true → t.obufByte a = s.obufByte a) ∧
      (∀ a, t.outLen.toNat ≤ a → t.obuf.read a = none)

/-- R162 excludes it on every run: a chunk that would fall outside OBUF stops the machine. The stop is
the model's own choice, log entry 12. -/
def Obligations.ChunkOutsideObufStops : Prop :=
  ∀ (c : Chunk) (key : StreamUnit) (s : State), Config.obufBytes < s.opos.toNat + 4 →
    exec (.verbatim c) s = .fault .obufWriteOutOfRange ∧
    (lookupCode s.dict key = some c → exec (.code key) s = .fault .obufWriteOutOfRange)

/-! ## Counting, selection, building -/

/-- R110: one COUNT step adds one chunk to FREQ: its entry's count goes up by one, or it is appended
with count 1, and `pos` goes up by 1; nothing else changes. -/
def Obligations.CountStepCountsOneChunk : Prop :=
  ∀ s : State, s.BlockTurn → s.phase = .count → s.pos.toNat < s.paddedLen.toNat / 4 →
    s.paddedLen.toNat ≤ Config.ibufBytes →
    ∃ t, step s = .next t ∧
      t = { s with turns := s.turns.tail, freq := t.freq, pos := s.pos + 1 } ∧
      ((∀ e ∈ s.freq, e.chunk ≠ s.chunkAt s.pos.toNat) →
        t.freq = s.freq ++ [{ chunk := s.chunkAt s.pos.toNat, count := 1 }]) ∧
      (∀ (n : Nat) (e : FreqEntry), s.freq[n]? = some e → e.chunk = s.chunkAt s.pos.toNat →
        (∀ (m : Nat) (e' : FreqEntry), m < n → s.freq[m]? = some e' → e'.chunk ≠ s.chunkAt s.pos.toNat) →
        t.freq = s.freq.set n { e with count := e.count + 1 })

/-- R101, R103: the chunk read at an index is four bytes of IBUF, most significant first, with 0x00 for
every address at and above IN_LEN whatever IBUF holds there. -/
def Obligations.ChunkReadPadsWithZeros : Prop :=
  ∀ (s : State) (k t : Nat), t < 4 →
    (4 * k + t < s.inLen.toNat → (s.chunkAt k).extractLsb' (24 - 8 * t) 8 = s.ibufByte (4 * k + t)) ∧
    (s.inLen.toNat ≤ 4 * k + t → (s.chunkAt k).extractLsb' (24 - 8 * t) 8 = 0)

/-- R111: after counting a list of chunks FREQ holds each distinct chunk once, in order of first
occurrence, with the number of its occurrences. -/
def Obligations.FreqIsFirstSeenOrderWithCounts : Prop :=
  ∀ chunks : List Chunk, chunks.length < 2 ^ 32 →
    (∀ c, c ∈ (freqOf chunks).map (·.chunk) ↔ c ∈ chunks) ∧
    (freqOf chunks).Pairwise (fun e e' => chunks.idxOf e.chunk < chunks.idxOf e'.chunk) ∧
    (∀ e ∈ freqOf chunks, e.count.toNat = chunks.count e.chunk)

/-- R112, R113: the selection's order is by descending count, equal counts in first-seen order, and the
chunk's value takes no part. -/
def Obligations.SelectionOrderIsDescendingAndStable : Prop :=
  ∀ freq : List FreqEntry,
    (sortByCount freq).Perm freq ∧
    (sortByCount freq).Pairwise (fun e e' => e'.count.toNat ≤ e.count.toNat) ∧
    (∀ n : BitVec 32,
      (sortByCount freq).filter (fun e => e.count == n) = freq.filter (fun e => e.count == n))

/-- R114, R129: the dictionary built has as many valid slots as the smaller of TOP_N and the number of
distinct chunks. -/
def Obligations.BuiltDictionaryCountsTheSelection : Prop :=
  ∀ (base : BitVec 16) (n : BitVec 8) (freq : List FreqEntry), n.toNat ≤ Config.dictDepth →
    dictCount (buildDict base (selectTop n freq)) = min n.toNat freq.length

/-- R120, R122: under a legal configuration and distinct chunks, the built slot of rank `j` holds the chunk and
count of rank `j` and the code `CODE_BASE + j` with bit 15 set, every later slot is empty, and the
dictionary passes the dictionary check. -/
def Obligations.BuiltDictionaryIsWellFormed : Prop :=
  ∀ (base : BitVec 16) (n : BitVec 8) (freq : List FreqEntry), configOk base n = true →
    (freq.map (·.chunk)).Nodup →
    let sel := (sortByCount freq).take n.toNat
    let dict := buildDict base (selectTop n freq)
    sel.length ≤ Config.dictDepth ∧
    (∀ (j : Nat) (e : FreqEntry), sel[j]? = some e →
      (slotOf dict j).valid = true ∧ (slotOf dict j).chunk = e.chunk ∧ (slotOf dict j).freq = e.count ∧
        (slotOf dict j).code.toNat = base.toNat + j ∧
        (slotOf dict j).code.toNat < base.toNat + n.toNat ∧ (slotOf dict j).code.getLsbD 15 = true) ∧
    (∀ j, sel.length ≤ j → slotOf dict j = { valid := false, chunk := 0, code := 0, freq := 0 }) ∧
    dictWellFormed dict = true

/-- R112, R120, R185: the SELECT step writes DISTINCT and every DICT slot, from the first TOP_N entries by
descending count. Under ANALYZE it ends the command, after which `cmd` has any value (R47), under
COMPRESS it enters ENC at the start; nothing else changes. -/
def Obligations.SelectStepBuildsTheDictionary : Prop :=
  ∀ s : State, s.BlockTurn → s.phase = .select →
    (s.cmd = .analyze → ∃ t, step s = .next t ∧ t = { s with
      turns := s.turns.tail
      distinct := BitVec.ofNat 32 s.freq.length
      dict := buildDict s.codeBase ((sortByCount s.freq).take s.topN.toNat)
      phase := .idle
      cmd := t.cmd
      status := { s.status with done := true } }) ∧
    (s.cmd = .compress → step s = .next { s with
      turns := s.turns.tail
      distinct := BitVec.ofNat 32 s.freq.length
      dict := buildDict s.codeBase ((sortByCount s.freq).take s.topN.toNat)
      phase := .enc
      pos := 0
      opos := 0 })

/-! ## Encoder steps -/

/-- R140: a chunk in the dictionary is written as its code's two bytes, high byte first; no other byte
of OBUF and no other state but the positions changes. -/
def Obligations.EncodeHitWritesTheCode : Prop :=
  ∀ (code : BitVec 16) (s : State), s.BlockTurn → s.phase = .enc →
    s.pos.toNat < s.paddedLen.toNat / 4 → s.paddedLen.toNat ≤ Config.ibufBytes →
    s.opos.toNat + 2 ≤ Config.obufBytes → lookupChunk s.dict (s.chunkAt s.pos.toNat) = some code →
    ∃ t, step s = .next t ∧
      t = { s with turns := s.turns.tail, obuf := t.obuf, pos := s.pos + 1, opos := s.opos + 2 } ∧
      t.obufByte s.opos.toNat = code.extractLsb' 8 8 ∧
      t.obufByte (s.opos.toNat + 1) = code.extractLsb' 0 8 ∧
      (∀ a, a < s.opos.toNat ∨ s.opos.toNat + 2 ≤ a → t.obufByte a = s.obufByte a)

/-- R141, R143: a chunk not in the dictionary is written as its four bytes and sets HAZ exactly when its
bit 31 is set; no other byte of OBUF, no other flag and no other state but the positions changes. -/
def Obligations.EncodeMissWritesTheChunk : Prop :=
  ∀ s : State, s.BlockTurn → s.phase = .enc →
    s.pos.toNat < s.paddedLen.toNat / 4 → s.paddedLen.toNat ≤ Config.ibufBytes →
    s.opos.toNat + 4 ≤ Config.obufBytes → lookupChunk s.dict (s.chunkAt s.pos.toNat) = none →
    ∃ t, step s = .next t ∧
      t = { s with
        turns := s.turns.tail, obuf := t.obuf, pos := s.pos + 1, opos := s.opos + 4,
        status := { s.status with haz := s.status.haz || (s.chunkAt s.pos.toNat).getLsbD 31 } } ∧
      t.obufByte s.opos.toNat = (s.chunkAt s.pos.toNat).extractLsb' 24 8 ∧
      t.obufByte (s.opos.toNat + 1) = (s.chunkAt s.pos.toNat).extractLsb' 16 8 ∧
      t.obufByte (s.opos.toNat + 2) = (s.chunkAt s.pos.toNat).extractLsb' 8 8 ∧
      t.obufByte (s.opos.toNat + 3) = (s.chunkAt s.pos.toNat).extractLsb' 0 8 ∧
      (∀ a, a < s.opos.toNat ∨ s.opos.toNat + 4 ≤ a → t.obufByte a = s.obufByte a)

/-- R92, R144: the encoded stream is 2 bytes for each hit and 4 for each miss, so its length lies
between half the padded length and the padded length. -/
def Obligations.EncodedLengthIsBetweenHalfAndWhole : Prop :=
  ∀ (dict : List Slot) (chunks : List Chunk),
    (encodedBytes dict chunks).length =
      2 * chunks.countP (fun c => (lookupChunk dict c).isSome) +
        4 * (chunks.length - chunks.countP (fun c => (lookupChunk dict c).isSome)) ∧
    4 * chunks.length ≤ 2 * (encodedBytes dict chunks).length ∧
    (encodedBytes dict chunks).length ≤ 4 * chunks.length

/-! ## Whole commands -/

/-- R142, R143, R146, R180: an ENCODE that is accepted takes exactly C + 1 block steps and leaves the
encoded stream of the padded input in OBUF, its length in OUT_LEN, and HAZ set exactly when a missed
chunk collides; DICT, IBUF and every register it does not name stay.
That `cmd` stays at the ended command's is the model's choice, log entry 22. -/
def Obligations.EncodeCommandWritesTheEncodedStream : Prop :=
  ∀ (s : State) (w : Word), s.Inv → s.phase = .idle → s.turns = [ctrlTurn w] → w.toNat % 16 = 2 →
    s.inLen.toNat ≤ Config.ibufBytes → dictWellFormed s.dict = true →
    (∀ k, k ≤ s.inputChunks.length → ∃ u, runSteps (1 + k) s = .next u ∧ u.phase = .enc) ∧
    ∃ t, runSteps (1 + (s.inputChunks.length + 1)) s = .next t ∧
      t = { s with
        turns := [], cmd := .encode, errPos := 0, errVal := 0, origSize := s.inLen,
        status := { Status.clear with done := true, haz := anyCollision s.dict s.inputChunks },
        padLen := t.padLen, paddedLen := t.paddedLen, outLen := t.outLen, pos := t.pos, opos := t.opos,
        obuf := t.obuf, obufGen := t.obufGen } ∧
      t.paddedLen.toNat = 4 * s.inputChunks.length ∧
      t.padLen.toNat + s.inLen.toNat = 4 * s.inputChunks.length ∧
      t.outLen.toNat = (encodedBytes s.dict s.inputChunks).length ∧
      t.obufSlice 0 t.outLen.toNat = encodedBytes s.dict s.inputChunks

/-- R112, R120, R179, R186: an ANALYZE that is accepted takes exactly C + 2 block steps and leaves in
DICT the top TOP_N chunks of the padded input and in DISTINCT the number of distinct chunks; OBUF,
OUT_LEN and every register it does not name stay.
That `cmd` stays at the ended command's is the model's choice, log entry 22. -/
def Obligations.AnalyzeCommandBuildsTheDictionary : Prop :=
  ∀ (s : State) (w : Word), s.Inv → s.phase = .idle → s.turns = [ctrlTurn w] → w.toNat % 16 = 1 →
    s.inLen.toNat ≤ Config.ibufBytes → configOk s.codeBase s.topN = true →
    (∀ k, k ≤ s.inputChunks.length + 1 → ∃ u, runSteps (1 + k) s = .next u ∧ u.phase ≠ .idle) ∧
    ∃ t, runSteps (1 + (s.inputChunks.length + 2)) s = .next t ∧
      t = { s with
        turns := [], cmd := .analyze, errPos := 0, errVal := 0, origSize := s.inLen,
        status := { Status.clear with done := true },
        padLen := t.padLen, paddedLen := t.paddedLen, pos := t.pos, freq := freqOf s.inputChunks,
        distinct := t.distinct, dict := buildDict s.codeBase (selectTop s.topN (freqOf s.inputChunks)) } ∧
      t.paddedLen.toNat = 4 * s.inputChunks.length ∧
      t.padLen.toNat + s.inLen.toNat = 4 * s.inputChunks.length ∧
      t.distinct.toNat = (freqOf s.inputChunks).length

/-- R181: an accepted COMPRESS ends, after 2C + 3 block steps, in the state that an ANALYZE and then an
ENCODE end in, but for `cmd`, which stays at the ended command's: the model's choice, log entry 22. -/
def Obligations.CompressEqualsAnalyzeThenEncode : Prop :=
  ∀ (s : State) (wa we wc : Word), s.Inv → s.phase = .idle →
    wa.toNat % 16 = 1 → we.toNat % 16 = 2 → wc.toNat % 16 = 3 →
    s.inLen.toNat ≤ Config.ibufBytes → configOk s.codeBase s.topN = true →
    ∃ ta te tc,
      runSteps (1 + (s.inputChunks.length + 2)) { s with turns := [ctrlTurn wa] } = .next ta ∧
      ta.phase = .idle ∧
      runSteps (1 + (s.inputChunks.length + 1)) { ta with turns := [ctrlTurn we] } = .next te ∧
      te.phase = .idle ∧
      runSteps (1 + (2 * s.inputChunks.length + 3)) { s with turns := [ctrlTurn wc] } = .next tc ∧
      tc.phase = .idle ∧
      tc = { te with cmd := .compress }

/-- R150 to R162, R165, R182: a DECODE that is accepted ends after at most ⌊L/2⌋ + 1 block steps. It
leaves in OBUF the chunks of the stream up to its end, its tail or its first unknown code, cut to
ORIG_SIZE unless a code was unknown, with TAIL, SHORT, ERR and the captures as that end says; DICT, IBUF
and every register it does not name stay.
That `cmd` stays at the ended command's is the model's choice, log entry 22. -/
def Obligations.DecodeCommandDecodesTheStream : Prop :=
  ∀ (s : State) (w : Word), s.Inv → s.phase = .idle → s.turns = [ctrlTurn w] → w.toNat % 16 = 4 →
    s.inLen.toNat ≤ Config.ibufBytes → dictWellFormed s.dict = true →
    let out := decodedBytes s.dict (s.ibufSlice 0 s.inLen.toNat)
    let cut := if s.origSize.toNat = 0 then out.length else min s.origSize.toNat out.length
    ∃ n t, 1 ≤ n ∧ n ≤ s.inLen.toNat / 2 + 1 ∧
      (∀ k, k < n → ∃ u, runSteps (1 + k) s = .next u ∧ u.phase = .dec) ∧
      runSteps (1 + n) s = .next t ∧
      t = { s with
        turns := [], cmd := .decode, status := t.status, errPos := t.errPos, errVal := t.errVal,
        outLen := t.outLen, pos := t.pos, opos := t.opos, obuf := t.obuf, obufGen := t.obufGen } ∧
      (streamEnd s.dict 0 (s.ibufSlice 0 s.inLen.toNat) = .atEnd →
        t.status = { Status.clear with done := true, short := decide (out.length < s.origSize.toNat) } ∧
        t.errPos = 0 ∧ t.errVal = 0 ∧ t.outLen.toNat = cut ∧
        t.obufSlice 0 cut = out.take cut) ∧
      (streamEnd s.dict 0 (s.ibufSlice 0 s.inLen.toNat) = .atTail →
        t.status = { Status.clear with
          done := true, tail := true, short := decide (out.length < s.origSize.toNat) } ∧
        t.errPos = 0 ∧ t.errVal = 0 ∧ t.outLen.toNat = cut ∧
        t.obufSlice 0 cut = out.take cut) ∧
      (∀ p val, streamEnd s.dict 0 (s.ibufSlice 0 s.inLen.toNat) = .unknown p val →
        t.status = { Status.clear with done := true, err := .unknownCode } ∧
        t.errPos.toNat = p ∧ t.errVal = val ∧ t.outLen.toNat = out.length ∧
        t.obufSlice 0 out.length = out)

/-- R163: an ENCODE or COMPRESS that ends with HAZ = 0, and then a DECODE of its stream with the same
valid pairs in DICT and its ORIG_SIZE, gives the input back, without error, tail or shortage. -/
def Obligations.EncodeThenDecodeGivesTheInputBack : Prop :=
  ∀ (s t u : State) (we wd : Word) (m : Nat), s.Inv → s.phase = .idle → s.turns = [ctrlTurn we] →
    (we.toNat % 16 = 2 ∨ we.toNat % 16 = 3) →
    runSteps (m + 1) s = .next t → t.phase = .idle → t.status.err = .none → t.status.haz = false →
    u.Inv → u.phase = .idle → u.turns = [ctrlTurn wd] → wd.toNat % 16 = 4 →
    u.inLen = t.outLen → u.origSize = s.inLen →
    (∀ a, a < t.outLen.toNat → u.ibufByte a = t.obufByte a) →
    (validPairs u.dict).Perm (validPairs t.dict) →
    ∃ n v, runSteps (n + 1) u = .next v ∧ v.phase = .idle ∧
      v.status = { Status.clear with done := true } ∧ v.outLen = s.inLen ∧
      (∀ a, a < s.inLen.toNat → v.obufByte a = s.ibufByte a)

/-- R186: from every state of the invariant the block, left alone, is idle again after a bounded number
of steps, whatever command is running. -/
def Obligations.RunningCommandAlwaysFinishes : Prop :=
  ∀ s : State, s.Inv → s.turns = [] →
    ∃ n t, n ≤ Config.ibufBytes / 2 + 3 ∧ runSteps n s = .next t ∧ t.phase = .idle

/-! ## Invariants -/

/-- R51: the invariant holds after reset. -/
def Obligations.ResetStateHasTheInvariant : Prop := State.reset.Inv

/-- R48 to R50, R67, R102, R144, R151, R162: every step keeps the invariant, whoever takes it: the
memories stay in canonical form and in range, DICT in its form and within its depth, and each phase keeps
its conditions. -/
def Obligations.EveryStepKeepsTheInvariant : Prop :=
  ∀ s t : State, s.Inv → step s = .next t → t.Inv

/-- R67, R102, R144, R155, R162, R185: from a state of the invariant a step always answers a next state:
no access leaves its memory and no phase is without a row. -/
def Obligations.InvariantStatesNeverStop : Prop :=
  ∀ s : State, s.Inv → ∃ t, step s = .next t

/-- R28, R176: on any state of the invariant, while BUSY is 1 no other bit of STATUS than HAZ and BUSY_WR
is 1: BUSY and DONE never hold together, and TAIL, SHORT and ERR read 0. -/
def Obligations.WhileBusyOnlyHazAndBusyWrCanBeSet : Prop :=
  ∀ s : State, s.Inv → (s.readReg .status).getLsbD 0 = true →
    ∀ k, (s.readReg .status).getLsbD k = true → k = 0 ∨ k = 3 ∨ k = 4

/-! ## Host transactions and registers -/

/-- R26, R27, R200: the fields of STATUS stand at their bits, BUSY is 1 exactly when the phase is not
IDLE, and every reserved bit reads 0. -/
def Obligations.StatusFieldsStandAtTheirBits : Prop :=
  ∀ s : State,
    ((s.readReg .status).getLsbD 0 = true ↔ s.phase ≠ .idle) ∧
    (s.readReg .status).getLsbD 1 = s.status.done ∧
    (s.readReg .status).getLsbD 2 = s.status.tail ∧
    (s.readReg .status).getLsbD 3 = s.status.haz ∧
    (s.readReg .status).getLsbD 4 = s.status.busyWr ∧
    (s.readReg .status).getLsbD 5 = s.status.short ∧
    (s.readReg .status).extractLsb' 6 2 = 0 ∧
    (s.readReg .status).extractLsb' 12 20 = 0 ∧
    (s.readReg .status).extractLsb' 8 4 =
      (match s.status.err with
        | .none => 0 | .unknownCode => 1 | .badCmd => 2 | .badLen => 3 | .badCfg => 4 | .badDict => 5)

/-- R171, R22: a register read while idle returns the register at the offset, and every reserved offset
and CTRL read 0; nothing but the turn and the answer changes. -/
def Obligations.IdleRegisterReadFollowsTheMap : Prop :=
  ∀ (s : State) (off : Nat) (ts : List Turn), s.turns = .host (.regRead off) :: ts → s.phase = .idle →
    step s = .next { s with turns := ts, replies := .reg off (s.readReg (regAt off)) :: s.replies } ∧
    (off = 0x000 → s.readReg (regAt off) = 0) ∧
    (off = 0x004 → s.readReg (regAt off) = s.readReg .status) ∧
    (off = 0x008 → s.readReg (regAt off) = s.codeBase.setWidth 32) ∧
    (off = 0x00C → s.readReg (regAt off) = s.topN.setWidth 32) ∧
    (off = 0x010 → s.readReg (regAt off) = s.inLen) ∧
    (off = 0x014 → s.readReg (regAt off) = s.origSize) ∧
    (off = 0x018 → s.readReg (regAt off) = s.outLen) ∧
    (off = 0x01C → s.readReg (regAt off) = s.padLen.setWidth 32) ∧
    (off = 0x020 → s.readReg (regAt off) = s.paddedLen) ∧
    (off = 0x024 → s.readReg (regAt off) = BitVec.ofNat 32 (s.dict.countP (·.valid))) ∧
    (off = 0x028 → s.readReg (regAt off) = s.distinct) ∧
    (off = 0x02C → s.readReg (regAt off) = s.errPos) ∧
    (off = 0x030 → s.readReg (regAt off) = s.errVal.setWidth 32) ∧
    (off = 0x034 → s.readReg (regAt off) = BitVec.ofNat 32 Config.dictDepth) ∧
    (off = 0x038 → s.readReg (regAt off) = BitVec.ofNat 32 Config.ibufBytes) ∧
    (off = 0x03C → s.readReg (regAt off) = BitVec.ofNat 32 (2 * Config.ibufBytes)) ∧
    (∀ j, j < Config.dictDepth →
      (off = 0x100 + 0x10 * j → s.readReg (regAt off) = (s.slot j).chunk) ∧
      (off = 0x104 + 0x10 * j → s.readReg (regAt off) =
        (if (s.slot j).valid then 0x80000000 else 0) ||| (s.slot j).code.setWidth 32) ∧
      (off = 0x108 + 0x10 * j → s.readReg (regAt off) = (s.slot j).freq)) ∧
    (off % 4 ≠ 0 ∨ (0x040 ≤ off ∧ off < 0x100) ∨ 0x100 + 0x10 * Config.dictDepth ≤ off ∨
      (0x100 ≤ off ∧ off % 0x10 = 0xC) → s.readReg (regAt off) = 0)

/-- R43, R9: the identification registers read the parameters, whatever the state, and the parameters
meet the constraints on them. The reset values are those of the model's build, log entry 2. -/
def Obligations.IdentificationRegistersReadTheParameters : Prop :=
  (4 ≤ Config.ibufBytes ∧ Config.ibufBytes ≤ 2 ^ 30 ∧ Config.ibufBytes % 4 = 0 ∧
    Config.obufBytes = 2 * Config.ibufBytes ∧ 4 * Config.freqDepth = Config.ibufBytes ∧
    Config.topNRst.toNat ≤ Config.dictDepth ∧ Config.dictDepth ≤ 255 ∧
    Config.codeBaseRst.getLsbD 15 = true) ∧
  ∀ s : State,
    (s.readReg (regAt 0x034)).toNat = Config.dictDepth ∧
    (s.readReg (regAt 0x038)).toNat = Config.ibufBytes ∧
    (s.readReg (regAt 0x03C)).toNat = 2 * Config.ibufBytes

/-- R24, R25, R34, R35, R172: while idle a write of CODE_BASE, TOP_N, IN_LEN or ORIG_SIZE stores the
"width used" bits, reads back as those bits, and changes nothing else. -/
def Obligations.PlainRegistersReadBackWhatIsWritten : Prop :=
  ∀ (s : State) (off : Nat) (v : Word) (ts : List Turn), s.turns = .host (.regWrite off v) :: ts →
    s.phase = .idle →
    (off = 0x008 → ∃ t, step s = .next t ∧ t = { s with turns := ts, codeBase := t.codeBase } ∧
      t.readReg (regAt off) = v &&& 0x0000FFFF) ∧
    (off = 0x00C → ∃ t, step s = .next t ∧ t = { s with turns := ts, topN := t.topN } ∧
      t.readReg (regAt off) = v &&& 0x000000FF) ∧
    (off = 0x010 → ∃ t, step s = .next t ∧ t = { s with turns := ts, inLen := v } ∧
      t.readReg (regAt off) = v) ∧
    (off = 0x014 → ∃ t, step s = .next t ∧ t = { s with turns := ts, origSize := v } ∧
      t.readReg (regAt off) = v)

/-- R45, R91, R127: while idle a write of DICT_CHUNK[j] or DICT_CODE[j] changes that slot's CHUNK, or its
VALID and CODE from bits [31] and [15:0], clears its FREQ, and leaves every other slot and everything
else. -/
def Obligations.DictWindowWriteLoadsOneSlot : Prop :=
  ∀ (s : State) (off j : Nat) (v : Word) (ts : List Turn),
    s.turns = .host (.regWrite off v) :: ts → s.phase = .idle → j < Config.dictDepth →
    (off = 0x100 + 0x10 * j → ∃ t, step s = .next t ∧ t = { s with turns := ts, dict := t.dict } ∧
      t.slot j = { s.slot j with chunk := v, freq := 0 } ∧ ∀ k, k ≠ j → t.slot k = s.slot k) ∧
    (off = 0x104 + 0x10 * j → ∃ t, step s = .next t ∧ t = { s with turns := ts, dict := t.dict } ∧
      t.slot j =
        { s.slot j with valid := v.getLsbD 31, code := BitVec.ofNat 16 v.toNat, freq := 0 } ∧
      ∀ k, k ≠ j → t.slot k = s.slot k)

/-- R22, R172: a write of a read-only register or of a reserved offset has no effect; only its turn is
taken off. -/
def Obligations.OtherRegisterWritesHaveNoEffect : Prop :=
  ∀ (s : State) (off : Nat) (v : Word) (ts : List Turn), s.turns = .host (.regWrite off v) :: ts →
    s.phase = .idle → off ≠ 0x000 → off ≠ 0x008 → off ≠ 0x00C → off ≠ 0x010 → off ≠ 0x014 →
    (∀ j, j < Config.dictDepth → off ≠ 0x100 + 0x10 * j ∧ off ≠ 0x104 + 0x10 * j) →
    step s = .next { s with turns := ts }

/-- R176, R207: while BUSY every register write, CTRL's included, and every IBUF write is dropped: it
changes nothing but BUSY_WR. -/
def Obligations.WritesWhileBusyAreDropped : Prop :=
  ∀ (s : State) (ts : List Turn), s.phase ≠ .idle →
    (∀ off v, s.turns = .host (.regWrite off v) :: ts →
      step s = .next { s with turns := ts, status := { s.status with busyWr := true } }) ∧
    (∀ a b, s.turns = .host (.ibufWrite a b) :: ts →
      step s = .next { s with turns := ts, status := { s.status with busyWr := true } })

/-- R176, R173: while BUSY a read of OUT_LEN, DICT_COUNT, DISTINCT, ERR_POS, ERR_VAL or the DICT window
returns the next free value, a read of OBUF, at every address, its low byte, a read of STATUS is exact but
for bit HAZ, which is its low bit, and every other read is exact; no read changes anything but the turn,
the answer and the model's count of draws. How a free value is drawn is the model's choice, log entry 8:
nothing is said of which value it is. -/
def Obligations.ReadsWhileBusyAreFreeOrExact : Prop :=
  ∀ (s : State) (ts : List Turn), s.phase ≠ .idle →
    (∀ off, s.turns = .host (.regRead off) :: ts →
      (off = 0x018 ∨ off = 0x024 ∨ off = 0x028 ∨ off = 0x02C ∨ off = 0x030 ∨
          (∃ j r, j < Config.dictDepth ∧ (r = 0x0 ∨ r = 0x4 ∨ r = 0x8) ∧ off = 0x100 + 0x10 * j + r) →
        step s = .next { s with
          turns := ts, draws := s.draws + 1, replies := .reg off (Config.freeRead s.draws) :: s.replies }) ∧
      (off = 0x004 → ∃ v : Word, (∀ k, k ≠ 3 → v.getLsbD k = (s.readReg .status).getLsbD k) ∧
        v.getLsbD 3 = (Config.freeRead s.draws).getLsbD 0 ∧
        step s = .next { s with
          turns := ts, draws := s.draws + 1, replies := .reg off v :: s.replies }) ∧
      (off = 0x000 ∨ off = 0x008 ∨ off = 0x00C ∨ off = 0x010 ∨ off = 0x014 ∨ off = 0x01C ∨ off = 0x020 ∨
          off = 0x034 ∨ off = 0x038 ∨ off = 0x03C ∨ regAt off = .reserved →
        step s = .next { s with
          turns := ts, replies := .reg off (s.readReg (regAt off)) :: s.replies })) ∧
    (∀ a, s.turns = .host (.ibufRead a) :: ts → a < Config.ibufBytes →
      step s = .next { s with turns := ts, replies := .ibuf a (s.ibufByte a) :: s.replies }) ∧
    (∀ a, s.turns = .host (.obufRead a) :: ts → step s = .next { s with
      turns := ts, draws := s.draws + 1,
      replies := .obuf a ((Config.freeRead s.draws).extractLsb' 0 8) :: s.replies })

/-- R71, R173 to R175: an IBUF byte written while idle reads back, every other IBUF byte and everything
else stays; IBUF reads are exact at all times, OBUF reads while idle. Outside a buffer a write has no
effect and a read returns 0x00. A read changes nothing but the turn and the answer. -/
def Obligations.BufferAccessesReadAndWriteBytes : Prop :=
  ∀ (s : State) (a : Nat) (b : Byte) (ts : List Turn),
    (s.phase = .idle → s.turns = .host (.ibufWrite a b) :: ts → a < Config.ibufBytes →
      ∃ t, step s = .next t ∧ t = { s with turns := ts, ibuf := t.ibuf } ∧ t.ibufByte a = b ∧
        ∀ x, x ≠ a → t.ibufByte x = s.ibufByte x) ∧
    (s.phase = .idle → s.turns = .host (.ibufWrite a b) :: ts → Config.ibufBytes ≤ a →
      step s = .next { s with turns := ts }) ∧
    (s.turns = .host (.ibufRead a) :: ts → a < Config.ibufBytes →
      step s = .next { s with turns := ts, replies := .ibuf a (s.ibufByte a) :: s.replies }) ∧
    (s.turns = .host (.ibufRead a) :: ts → Config.ibufBytes ≤ a →
      step s = .next { s with turns := ts, replies := .ibuf a 0 :: s.replies }) ∧
    (s.phase = .idle → s.turns = .host (.obufRead a) :: ts → a < Config.obufBytes →
      step s = .next { s with turns := ts, replies := .obuf a (s.obufByte a) :: s.replies }) ∧
    (s.phase = .idle → s.turns = .host (.obufRead a) :: ts → Config.obufBytes ≤ a →
      step s = .next { s with turns := ts, replies := .obuf a 0 :: s.replies })

/-- R74, R176, R188: while a command runs no host transaction disturbs it: of the spec's state only
BUSY_WR can change. -/
def Obligations.HostCannotDisturbARunningCommand : Prop :=
  ∀ (s t : State) (x : Tx) (ts : List Turn), s.phase ≠ .idle → s.turns = .host x :: ts →
    step s = .next t →
    t = { s with
      turns := ts, draws := t.draws, replies := t.replies,
      status := { s.status with busyWr := t.status.busyWr } }

/-- A step that ends a command, other than a hardware reset, leaves `cmd` at the ended command's. R47 lets
`cmd` have any value once idle, so this is the model's choice, log entry 22. -/
def Obligations.EndedCommandKeepsItsCmd : Prop :=
  ∀ s t : State, s.BlockTurn → s.phase ≠ .idle → step s = .next t → t.phase = .idle → t.cmd = s.cmd

/-- R60, R74: a block step changes none of the command's inputs: not IBUF, IN_LEN, CODE_BASE or TOP_N,
and not ORIG_SIZE; DICT changes only in SELECT. -/
def Obligations.BlockStepLeavesTheInputsAlone : Prop :=
  ∀ s t : State, s.BlockTurn → step s = .next t →
    t.ibuf = s.ibuf ∧ t.ibufGen = s.ibufGen ∧ t.inLen = s.inLen ∧ t.codeBase = s.codeBase ∧
      t.topN = s.topN ∧ t.origSize = s.origSize ∧ (s.phase ≠ .select → t.dict = s.dict) ∧
      (s.phase ≠ .count → t.freq = s.freq)

/-- R164: DECODE reads neither CODE_BASE nor TOP_N: its acceptance, and a step in phase DEC, do the same
whatever they hold. -/
def Obligations.DecodingIgnoresTheConfiguration : Prop :=
  ∀ (s t : State) (base : BitVec 16) (n : BitVec 8),
    (∀ ign, exec (.decode ign) s = .next t →
      exec (.decode ign) { s with codeBase := base, topN := n } = .next { t with codeBase := base, topN := n }) ∧
    (s.BlockTurn → s.phase = .dec → step s = .next t →
      step { s with codeBase := base, topN := n } = .next { t with codeBase := base, topN := n })

/-! ## Reset -/

/-- R51, R9: the values each piece of state has after a hardware reset; no byte of IBUF or OBUF has a
value. R51 gives CODE_BASE and TOP_N as the parameters CODE_BASE_RST and TOP_N_RST: that these are 0x8001
and 10 is the model's build, the defaults of R9, log entry 2. DICT_DEPTH is any value R9 allows, log entry
20. -/
def Obligations.ResetLeavesTheSpecsValues : Prop :=
  State.reset.readReg .status = 0 ∧ State.reset.codeBase = 0x8001 ∧ State.reset.topN = 10 ∧
  State.reset.inLen = 0 ∧ State.reset.origSize = 0 ∧ State.reset.outLen = 0 ∧ State.reset.padLen = 0 ∧
  State.reset.paddedLen = 0 ∧ State.reset.distinct = 0 ∧ State.reset.errPos = 0 ∧
  State.reset.errVal = 0 ∧ State.reset.readReg .dictCount = 0 ∧
  (∀ j, State.reset.slot j = { valid := false, chunk := 0, code := 0, freq := 0 }) ∧
  State.reset.freq = [] ∧ State.reset.phase = .idle ∧ State.reset.pos = 0 ∧ State.reset.opos = 0 ∧
  (∀ a, State.reset.ibuf.read a = none ∧ State.reset.obuf.read a = none) ∧
  (State.reset.readReg .dictDepth).toNat = Config.dictDepth ∧
  (State.reset.readReg .ibufSize).toNat = Config.ibufBytes ∧
  (State.reset.readReg .obufSize).toNat = 2 * Config.ibufBytes

/-- R220: a hardware reset at any time, also while BUSY, sets every piece of the spec's state to its
reset value and leaves IBUF and OBUF unspecified. The model's own: `cmd` takes a value (log entry 9), and
the turns, answers and draws go on (log entry 11). -/
def Obligations.HardwareResetSetsEveryResetValue : Prop :=
  ∀ (s : State) (ts : List Turn), s.turns = .reset :: ts →
    ∃ t, step s = .next t ∧
      t = { State.reset with
        turns := ts, replies := s.replies, draws := s.draws, ibufGen := t.ibufGen, obufGen := t.obufGen }
end

