-- ==== Sys2Proof/Laws/Bytes.lean ====
section
/-! SUPPORT. Bytes, units and chunks taken apart and put together again (20_memory.md R63 to R66). -/

namespace Sys2Proof

@[simp] theorem unitBytes_length (u : StreamUnit) : (unitBytes u).length = 2 := rfl

@[simp] theorem chunkBytes_length (c : Chunk) : (chunkBytes c).length = 4 := rfl

/-- The bits of a unit, by its bytes (R63). -/
theorem getLsbD_unitOfBytes (b0 b1 : Byte) (i : Nat) :
    BitVec.getLsbD (unitOfBytes b0 b1) i = if i < 8 then b1.getLsbD i else b0.getLsbD (i - 8) :=
  BitVec.getLsbD_append ..

/-- The bits of a chunk, by its units (R64). -/
theorem getLsbD_chunkOfUnits (u0 u1 : StreamUnit) (i : Nat) :
    BitVec.getLsbD (chunkOfUnits u0 u1) i = if i < 16 then u1.getLsbD i else u0.getLsbD (i - 16) :=
  BitVec.getLsbD_append ..

/-- The bits of a chunk, by its bytes (R65). -/
theorem getLsbD_chunkOfBytes (b0 b1 b2 b3 : Byte) (i : Nat) :
    BitVec.getLsbD (chunkOfBytes b0 b1 b2 b3) i =
      if i < 8 then b3.getLsbD i else if i < 16 then b2.getLsbD (i - 8)
      else if i < 24 then b1.getLsbD (i - 16) else b0.getLsbD (i - 24) := by
  rw [chunkOfBytes, getLsbD_chunkOfUnits, getLsbD_unitOfBytes, getLsbD_unitOfBytes]
  grind

/-- A unit's bytes read back as the unit. -/
theorem unitOfBytes_extract (u : StreamUnit) : unitOfBytes (u.extractLsb' 8 8) (u.extractLsb' 0 8) = u := by
  refine BitVec.eq_of_getLsbD_eq fun i hi => ?_
  rw [getLsbD_unitOfBytes, BitVec.getLsbD_extractLsb', BitVec.getLsbD_extractLsb']
  grind

/-- The first byte of a unit put together from two. -/
theorem extract_unitOfBytes_high (b0 b1 : Byte) : (unitOfBytes b0 b1).extractLsb' 8 8 = b0 := by
  refine BitVec.eq_of_getLsbD_eq fun i hi => ?_
  rw [BitVec.getLsbD_extractLsb', getLsbD_unitOfBytes]
  grind

/-- The second byte of a unit put together from two. -/
theorem extract_unitOfBytes_low (b0 b1 : Byte) : (unitOfBytes b0 b1).extractLsb' 0 8 = b1 := by
  refine BitVec.eq_of_getLsbD_eq fun i hi => ?_
  rw [BitVec.getLsbD_extractLsb', getLsbD_unitOfBytes]
  grind

/-- The bytes of a unit put together from two bytes are those bytes. -/
theorem unitBytes_unitOfBytes (b0 b1 : Byte) : unitBytes (unitOfBytes b0 b1) = [b0, b1] := by
  rw [unitBytes, extract_unitOfBytes_high, extract_unitOfBytes_low]

/-- A chunk's bytes read back as the chunk. -/
theorem chunkOfBytes_extract (c : Chunk) :
    chunkOfBytes (c.extractLsb' 24 8) (c.extractLsb' 16 8) (c.extractLsb' 8 8) (c.extractLsb' 0 8) = c := by
  refine BitVec.eq_of_getLsbD_eq fun i hi => ?_
  rw [getLsbD_chunkOfBytes]
  simp only [BitVec.getLsbD_extractLsb']
  grind

/-- Byte `t` of a chunk put together from four bytes. -/
theorem extract_chunkOfBytes (b0 b1 b2 b3 : Byte) :
    (chunkOfBytes b0 b1 b2 b3).extractLsb' 24 8 = b0 ∧ (chunkOfBytes b0 b1 b2 b3).extractLsb' 16 8 = b1 ∧
      (chunkOfBytes b0 b1 b2 b3).extractLsb' 8 8 = b2 ∧ (chunkOfBytes b0 b1 b2 b3).extractLsb' 0 8 = b3 := by
  refine ⟨?_, ?_, ?_, ?_⟩ <;>
  · refine BitVec.eq_of_getLsbD_eq fun i hi => ?_
    rw [BitVec.getLsbD_extractLsb', getLsbD_chunkOfBytes]
    grind

/-- The bytes of a chunk put together from four bytes are those bytes. -/
theorem chunkBytes_chunkOfBytes (b0 b1 b2 b3 : Byte) :
    chunkBytes (chunkOfBytes b0 b1 b2 b3) = [b0, b1, b2, b3] := by
  obtain ⟨h0, h1, h2, h3⟩ := extract_chunkOfBytes b0 b1 b2 b3
  rw [chunkBytes, h0, h1, h2, h3]

/-- A unit's tag is bit 7 of its first byte (R63). -/
theorem tagged_unitOfBytes (b0 b1 : Byte) : StreamUnit.tagged (unitOfBytes b0 b1) = b0.getLsbD 7 := by
  rw [StreamUnit.tagged, getLsbD_unitOfBytes]; rfl

/-- A chunk's bit 31 is its first unit's tag (R65). -/
theorem tag_chunkOfUnits (u0 u1 : StreamUnit) :
    BitVec.getLsbD (chunkOfUnits u0 u1) 31 = StreamUnit.tagged u0 := by
  rw [getLsbD_chunkOfUnits]; rfl

/-! ## Command words -/

/-- The bits of a command word, by its CMD field and its ignored bits (R89). -/
theorem getLsbD_commandWord (ign : BitVec 28) (c : BitVec 4) (i : Nat) :
    BitVec.getLsbD (ign ++ c : BitVec 32) i = if i < 4 then c.getLsbD i else ign.getLsbD (i - 4) :=
  BitVec.getLsbD_append ..

theorem extract_commandWord_ignored (ign : BitVec 28) (c : BitVec 4) :
    BitVec.extractLsb' 4 28 (ign ++ c : BitVec 32) = ign := by
  refine BitVec.eq_of_getLsbD_eq fun i hi => ?_
  rw [BitVec.getLsbD_extractLsb', getLsbD_commandWord]; grind

theorem extract_commandWord_cmd (ign : BitVec 28) (c : BitVec 4) (n : Nat) (hn : n ≤ 4) :
    BitVec.extractLsb' 0 n (ign ++ c : BitVec 32) = c.extractLsb' 0 n := by
  refine BitVec.eq_of_getLsbD_eq fun i hi => ?_
  rw [BitVec.getLsbD_extractLsb', BitVec.getLsbD_extractLsb', getLsbD_commandWord]; grind

/-- Every command word is its ignored bits above its CMD field (R89). -/
theorem commandWord_split (w : Word) : (w.extractLsb' 4 28 ++ w.extractLsb' 0 4 : BitVec 32) = w := by
  refine BitVec.eq_of_getLsbD_eq fun i hi => ?_
  rw [getLsbD_commandWord, BitVec.getLsbD_extractLsb', BitVec.getLsbD_extractLsb']; grind

/-- The CMD field as a number: the word modulo 16. -/
theorem cmd_toNat (w : Word) : (w.extractLsb' 0 4).toNat = w.toNat % 16 := by
  simp [BitVec.extractLsb'_toNat]

end Sys2Proof
end

