-- ==== Sys2Proof/Laws/State.lean ====
section
/-! SUPPORT. One lemma for each field after each named update of the state, true by unfolding, and one for
each view of the state that an update leaves alone. -/

namespace Sys2Proof.Machine

variable (s : State)

/-! ## `State.writeObuf` -/

@[simp] theorem State.writeObuf_status (a : Nat) (bs : List Byte) : (s.writeObuf a bs).status = s.status := rfl
@[simp] theorem State.writeObuf_codeBase (a : Nat) (bs : List Byte) : (s.writeObuf a bs).codeBase = s.codeBase := rfl
@[simp] theorem State.writeObuf_topN (a : Nat) (bs : List Byte) : (s.writeObuf a bs).topN = s.topN := rfl
@[simp] theorem State.writeObuf_inLen (a : Nat) (bs : List Byte) : (s.writeObuf a bs).inLen = s.inLen := rfl
@[simp] theorem State.writeObuf_origSize (a : Nat) (bs : List Byte) : (s.writeObuf a bs).origSize = s.origSize := rfl
@[simp] theorem State.writeObuf_outLen (a : Nat) (bs : List Byte) : (s.writeObuf a bs).outLen = s.outLen := rfl
@[simp] theorem State.writeObuf_padLen (a : Nat) (bs : List Byte) : (s.writeObuf a bs).padLen = s.padLen := rfl
@[simp] theorem State.writeObuf_paddedLen (a : Nat) (bs : List Byte) : (s.writeObuf a bs).paddedLen = s.paddedLen := rfl
@[simp] theorem State.writeObuf_distinct (a : Nat) (bs : List Byte) : (s.writeObuf a bs).distinct = s.distinct := rfl
@[simp] theorem State.writeObuf_errPos (a : Nat) (bs : List Byte) : (s.writeObuf a bs).errPos = s.errPos := rfl
@[simp] theorem State.writeObuf_errVal (a : Nat) (bs : List Byte) : (s.writeObuf a bs).errVal = s.errVal := rfl
@[simp] theorem State.writeObuf_dict (a : Nat) (bs : List Byte) : (s.writeObuf a bs).dict = s.dict := rfl
@[simp] theorem State.writeObuf_freq (a : Nat) (bs : List Byte) : (s.writeObuf a bs).freq = s.freq := rfl
@[simp] theorem State.writeObuf_phase (a : Nat) (bs : List Byte) : (s.writeObuf a bs).phase = s.phase := rfl
@[simp] theorem State.writeObuf_cmd (a : Nat) (bs : List Byte) : (s.writeObuf a bs).cmd = s.cmd := rfl
@[simp] theorem State.writeObuf_pos (a : Nat) (bs : List Byte) : (s.writeObuf a bs).pos = s.pos := rfl
@[simp] theorem State.writeObuf_opos (a : Nat) (bs : List Byte) : (s.writeObuf a bs).opos = s.opos := rfl
@[simp] theorem State.writeObuf_ibuf (a : Nat) (bs : List Byte) : (s.writeObuf a bs).ibuf = s.ibuf := rfl
@[simp] theorem State.writeObuf_obuf (a : Nat) (bs : List Byte) : (s.writeObuf a bs).obuf = s.obuf.writeBytes a bs := rfl
@[simp] theorem State.writeObuf_ibufGen (a : Nat) (bs : List Byte) : (s.writeObuf a bs).ibufGen = s.ibufGen := rfl
@[simp] theorem State.writeObuf_obufGen (a : Nat) (bs : List Byte) : (s.writeObuf a bs).obufGen = s.obufGen := rfl
@[simp] theorem State.writeObuf_draws (a : Nat) (bs : List Byte) : (s.writeObuf a bs).draws = s.draws := rfl
@[simp] theorem State.writeObuf_turns (a : Nat) (bs : List Byte) : (s.writeObuf a bs).turns = s.turns := rfl
@[simp] theorem State.writeObuf_replies (a : Nat) (bs : List Byte) : (s.writeObuf a bs).replies = s.replies := rfl
@[simp] theorem State.writeObuf_ibufByte (a : Nat) (bs : List Byte) (x : Nat) : (s.writeObuf a bs).ibufByte x = s.ibufByte x := rfl
@[simp] theorem State.writeObuf_padByte (a : Nat) (bs : List Byte) (x : Nat) : (s.writeObuf a bs).padByte x = s.padByte x := rfl
@[simp] theorem State.writeObuf_chunkAt (a : Nat) (bs : List Byte) (x : Nat) : (s.writeObuf a bs).chunkAt x = s.chunkAt x := rfl
@[simp] theorem State.writeObuf_chunkCount (a : Nat) (bs : List Byte) : (s.writeObuf a bs).chunkCount = s.chunkCount := rfl
@[simp] theorem State.writeObuf_busy (a : Nat) (bs : List Byte) : (s.writeObuf a bs).busy = s.busy := rfl

/-! ## `State.writeIbuf` -/

@[simp] theorem State.writeIbuf_status (a : Nat) (b : Byte) : (s.writeIbuf a b).status = s.status := rfl
@[simp] theorem State.writeIbuf_codeBase (a : Nat) (b : Byte) : (s.writeIbuf a b).codeBase = s.codeBase := rfl
@[simp] theorem State.writeIbuf_topN (a : Nat) (b : Byte) : (s.writeIbuf a b).topN = s.topN := rfl
@[simp] theorem State.writeIbuf_inLen (a : Nat) (b : Byte) : (s.writeIbuf a b).inLen = s.inLen := rfl
@[simp] theorem State.writeIbuf_origSize (a : Nat) (b : Byte) : (s.writeIbuf a b).origSize = s.origSize := rfl
@[simp] theorem State.writeIbuf_outLen (a : Nat) (b : Byte) : (s.writeIbuf a b).outLen = s.outLen := rfl
@[simp] theorem State.writeIbuf_padLen (a : Nat) (b : Byte) : (s.writeIbuf a b).padLen = s.padLen := rfl
@[simp] theorem State.writeIbuf_paddedLen (a : Nat) (b : Byte) : (s.writeIbuf a b).paddedLen = s.paddedLen := rfl
@[simp] theorem State.writeIbuf_distinct (a : Nat) (b : Byte) : (s.writeIbuf a b).distinct = s.distinct := rfl
@[simp] theorem State.writeIbuf_errPos (a : Nat) (b : Byte) : (s.writeIbuf a b).errPos = s.errPos := rfl
@[simp] theorem State.writeIbuf_errVal (a : Nat) (b : Byte) : (s.writeIbuf a b).errVal = s.errVal := rfl
@[simp] theorem State.writeIbuf_dict (a : Nat) (b : Byte) : (s.writeIbuf a b).dict = s.dict := rfl
@[simp] theorem State.writeIbuf_freq (a : Nat) (b : Byte) : (s.writeIbuf a b).freq = s.freq := rfl
@[simp] theorem State.writeIbuf_phase (a : Nat) (b : Byte) : (s.writeIbuf a b).phase = s.phase := rfl
@[simp] theorem State.writeIbuf_cmd (a : Nat) (b : Byte) : (s.writeIbuf a b).cmd = s.cmd := rfl
@[simp] theorem State.writeIbuf_pos (a : Nat) (b : Byte) : (s.writeIbuf a b).pos = s.pos := rfl
@[simp] theorem State.writeIbuf_opos (a : Nat) (b : Byte) : (s.writeIbuf a b).opos = s.opos := rfl
@[simp] theorem State.writeIbuf_ibuf (a : Nat) (b : Byte) : (s.writeIbuf a b).ibuf = s.ibuf.write a b := rfl
@[simp] theorem State.writeIbuf_obuf (a : Nat) (b : Byte) : (s.writeIbuf a b).obuf = s.obuf := rfl
@[simp] theorem State.writeIbuf_ibufGen (a : Nat) (b : Byte) : (s.writeIbuf a b).ibufGen = s.ibufGen := rfl
@[simp] theorem State.writeIbuf_obufGen (a : Nat) (b : Byte) : (s.writeIbuf a b).obufGen = s.obufGen := rfl
@[simp] theorem State.writeIbuf_draws (a : Nat) (b : Byte) : (s.writeIbuf a b).draws = s.draws := rfl
@[simp] theorem State.writeIbuf_turns (a : Nat) (b : Byte) : (s.writeIbuf a b).turns = s.turns := rfl
@[simp] theorem State.writeIbuf_replies (a : Nat) (b : Byte) : (s.writeIbuf a b).replies = s.replies := rfl
@[simp] theorem State.writeIbuf_obufByte (a : Nat) (b : Byte) (x : Nat) : (s.writeIbuf a b).obufByte x = s.obufByte x := rfl
@[simp] theorem State.writeIbuf_chunkCount (a : Nat) (b : Byte) : (s.writeIbuf a b).chunkCount = s.chunkCount := rfl
@[simp] theorem State.writeIbuf_busy (a : Nat) (b : Byte) : (s.writeIbuf a b).busy = s.busy := rfl

/-! ## `State.advance` -/

@[simp] theorem State.advance_status (dp dq : BitVec 32) : (s.advance dp dq).status = s.status := rfl
@[simp] theorem State.advance_codeBase (dp dq : BitVec 32) : (s.advance dp dq).codeBase = s.codeBase := rfl
@[simp] theorem State.advance_topN (dp dq : BitVec 32) : (s.advance dp dq).topN = s.topN := rfl
@[simp] theorem State.advance_inLen (dp dq : BitVec 32) : (s.advance dp dq).inLen = s.inLen := rfl
@[simp] theorem State.advance_origSize (dp dq : BitVec 32) : (s.advance dp dq).origSize = s.origSize := rfl
@[simp] theorem State.advance_outLen (dp dq : BitVec 32) : (s.advance dp dq).outLen = s.outLen := rfl
@[simp] theorem State.advance_padLen (dp dq : BitVec 32) : (s.advance dp dq).padLen = s.padLen := rfl
@[simp] theorem State.advance_paddedLen (dp dq : BitVec 32) : (s.advance dp dq).paddedLen = s.paddedLen := rfl
@[simp] theorem State.advance_distinct (dp dq : BitVec 32) : (s.advance dp dq).distinct = s.distinct := rfl
@[simp] theorem State.advance_errPos (dp dq : BitVec 32) : (s.advance dp dq).errPos = s.errPos := rfl
@[simp] theorem State.advance_errVal (dp dq : BitVec 32) : (s.advance dp dq).errVal = s.errVal := rfl
@[simp] theorem State.advance_dict (dp dq : BitVec 32) : (s.advance dp dq).dict = s.dict := rfl
@[simp] theorem State.advance_freq (dp dq : BitVec 32) : (s.advance dp dq).freq = s.freq := rfl
@[simp] theorem State.advance_phase (dp dq : BitVec 32) : (s.advance dp dq).phase = s.phase := rfl
@[simp] theorem State.advance_cmd (dp dq : BitVec 32) : (s.advance dp dq).cmd = s.cmd := rfl
@[simp] theorem State.advance_pos (dp dq : BitVec 32) : (s.advance dp dq).pos = s.pos + dp := rfl
@[simp] theorem State.advance_opos (dp dq : BitVec 32) : (s.advance dp dq).opos = s.opos + dq := rfl
@[simp] theorem State.advance_ibuf (dp dq : BitVec 32) : (s.advance dp dq).ibuf = s.ibuf := rfl
@[simp] theorem State.advance_obuf (dp dq : BitVec 32) : (s.advance dp dq).obuf = s.obuf := rfl
@[simp] theorem State.advance_ibufGen (dp dq : BitVec 32) : (s.advance dp dq).ibufGen = s.ibufGen := rfl
@[simp] theorem State.advance_obufGen (dp dq : BitVec 32) : (s.advance dp dq).obufGen = s.obufGen := rfl
@[simp] theorem State.advance_draws (dp dq : BitVec 32) : (s.advance dp dq).draws = s.draws := rfl
@[simp] theorem State.advance_turns (dp dq : BitVec 32) : (s.advance dp dq).turns = s.turns := rfl
@[simp] theorem State.advance_replies (dp dq : BitVec 32) : (s.advance dp dq).replies = s.replies := rfl
@[simp] theorem State.advance_ibufByte (dp dq : BitVec 32) (x : Nat) : (s.advance dp dq).ibufByte x = s.ibufByte x := rfl
@[simp] theorem State.advance_padByte (dp dq : BitVec 32) (x : Nat) : (s.advance dp dq).padByte x = s.padByte x := rfl
@[simp] theorem State.advance_obufByte (dp dq : BitVec 32) (x : Nat) : (s.advance dp dq).obufByte x = s.obufByte x := rfl
@[simp] theorem State.advance_chunkAt (dp dq : BitVec 32) (x : Nat) : (s.advance dp dq).chunkAt x = s.chunkAt x := rfl
@[simp] theorem State.advance_chunkCount (dp dq : BitVec 32) : (s.advance dp dq).chunkCount = s.chunkCount := rfl
@[simp] theorem State.advance_busy (dp dq : BitVec 32) : (s.advance dp dq).busy = s.busy := rfl

/-! ## `State.enter` -/

@[simp] theorem State.enter_status (p : Phase) : (s.enter p).status = s.status := rfl
@[simp] theorem State.enter_codeBase (p : Phase) : (s.enter p).codeBase = s.codeBase := rfl
@[simp] theorem State.enter_topN (p : Phase) : (s.enter p).topN = s.topN := rfl
@[simp] theorem State.enter_inLen (p : Phase) : (s.enter p).inLen = s.inLen := rfl
@[simp] theorem State.enter_origSize (p : Phase) : (s.enter p).origSize = s.origSize := rfl
@[simp] theorem State.enter_outLen (p : Phase) : (s.enter p).outLen = s.outLen := rfl
@[simp] theorem State.enter_padLen (p : Phase) : (s.enter p).padLen = s.padLen := rfl
@[simp] theorem State.enter_paddedLen (p : Phase) : (s.enter p).paddedLen = s.paddedLen := rfl
@[simp] theorem State.enter_distinct (p : Phase) : (s.enter p).distinct = s.distinct := rfl
@[simp] theorem State.enter_errPos (p : Phase) : (s.enter p).errPos = s.errPos := rfl
@[simp] theorem State.enter_errVal (p : Phase) : (s.enter p).errVal = s.errVal := rfl
@[simp] theorem State.enter_dict (p : Phase) : (s.enter p).dict = s.dict := rfl
@[simp] theorem State.enter_freq (p : Phase) : (s.enter p).freq = s.freq := rfl
@[simp] theorem State.enter_phase (p : Phase) : (s.enter p).phase = p := rfl
@[simp] theorem State.enter_cmd (p : Phase) : (s.enter p).cmd = s.cmd := rfl
@[simp] theorem State.enter_pos (p : Phase) : (s.enter p).pos = s.pos := rfl
@[simp] theorem State.enter_opos (p : Phase) : (s.enter p).opos = s.opos := rfl
@[simp] theorem State.enter_ibuf (p : Phase) : (s.enter p).ibuf = s.ibuf := rfl
@[simp] theorem State.enter_obuf (p : Phase) : (s.enter p).obuf = s.obuf := rfl
@[simp] theorem State.enter_ibufGen (p : Phase) : (s.enter p).ibufGen = s.ibufGen := rfl
@[simp] theorem State.enter_obufGen (p : Phase) : (s.enter p).obufGen = s.obufGen := rfl
@[simp] theorem State.enter_draws (p : Phase) : (s.enter p).draws = s.draws := rfl
@[simp] theorem State.enter_turns (p : Phase) : (s.enter p).turns = s.turns := rfl
@[simp] theorem State.enter_replies (p : Phase) : (s.enter p).replies = s.replies := rfl
@[simp] theorem State.enter_ibufByte (p : Phase) (x : Nat) : (s.enter p).ibufByte x = s.ibufByte x := rfl
@[simp] theorem State.enter_padByte (p : Phase) (x : Nat) : (s.enter p).padByte x = s.padByte x := rfl
@[simp] theorem State.enter_obufByte (p : Phase) (x : Nat) : (s.enter p).obufByte x = s.obufByte x := rfl
@[simp] theorem State.enter_chunkAt (p : Phase) (x : Nat) : (s.enter p).chunkAt x = s.chunkAt x := rfl
@[simp] theorem State.enter_chunkCount (p : Phase) : (s.enter p).chunkCount = s.chunkCount := rfl

/-! ## `State.start` -/

@[simp] theorem State.start_status (c : Cmd) (p : Phase) : (s.start c p).status = s.status := rfl
@[simp] theorem State.start_codeBase (c : Cmd) (p : Phase) : (s.start c p).codeBase = s.codeBase := rfl
@[simp] theorem State.start_topN (c : Cmd) (p : Phase) : (s.start c p).topN = s.topN := rfl
@[simp] theorem State.start_inLen (c : Cmd) (p : Phase) : (s.start c p).inLen = s.inLen := rfl
@[simp] theorem State.start_origSize (c : Cmd) (p : Phase) : (s.start c p).origSize = s.origSize := rfl
@[simp] theorem State.start_outLen (c : Cmd) (p : Phase) : (s.start c p).outLen = s.outLen := rfl
@[simp] theorem State.start_padLen (c : Cmd) (p : Phase) : (s.start c p).padLen = s.padLen := rfl
@[simp] theorem State.start_paddedLen (c : Cmd) (p : Phase) : (s.start c p).paddedLen = s.paddedLen := rfl
@[simp] theorem State.start_distinct (c : Cmd) (p : Phase) : (s.start c p).distinct = s.distinct := rfl
@[simp] theorem State.start_errPos (c : Cmd) (p : Phase) : (s.start c p).errPos = s.errPos := rfl
@[simp] theorem State.start_errVal (c : Cmd) (p : Phase) : (s.start c p).errVal = s.errVal := rfl
@[simp] theorem State.start_dict (c : Cmd) (p : Phase) : (s.start c p).dict = s.dict := rfl
@[simp] theorem State.start_freq (c : Cmd) (p : Phase) : (s.start c p).freq = s.freq := rfl
@[simp] theorem State.start_phase (c : Cmd) (p : Phase) : (s.start c p).phase = p := rfl
@[simp] theorem State.start_cmd (c : Cmd) (p : Phase) : (s.start c p).cmd = c := rfl
@[simp] theorem State.start_pos (c : Cmd) (p : Phase) : (s.start c p).pos = s.pos := rfl
@[simp] theorem State.start_opos (c : Cmd) (p : Phase) : (s.start c p).opos = s.opos := rfl
@[simp] theorem State.start_ibuf (c : Cmd) (p : Phase) : (s.start c p).ibuf = s.ibuf := rfl
@[simp] theorem State.start_obuf (c : Cmd) (p : Phase) : (s.start c p).obuf = s.obuf := rfl
@[simp] theorem State.start_ibufGen (c : Cmd) (p : Phase) : (s.start c p).ibufGen = s.ibufGen := rfl
@[simp] theorem State.start_obufGen (c : Cmd) (p : Phase) : (s.start c p).obufGen = s.obufGen := rfl
@[simp] theorem State.start_draws (c : Cmd) (p : Phase) : (s.start c p).draws = s.draws := rfl
@[simp] theorem State.start_turns (c : Cmd) (p : Phase) : (s.start c p).turns = s.turns := rfl
@[simp] theorem State.start_replies (c : Cmd) (p : Phase) : (s.start c p).replies = s.replies := rfl
@[simp] theorem State.start_ibufByte (c : Cmd) (p : Phase) (x : Nat) : (s.start c p).ibufByte x = s.ibufByte x := rfl
@[simp] theorem State.start_padByte (c : Cmd) (p : Phase) (x : Nat) : (s.start c p).padByte x = s.padByte x := rfl
@[simp] theorem State.start_obufByte (c : Cmd) (p : Phase) (x : Nat) : (s.start c p).obufByte x = s.obufByte x := rfl
@[simp] theorem State.start_chunkAt (c : Cmd) (p : Phase) (x : Nat) : (s.start c p).chunkAt x = s.chunkAt x := rfl
@[simp] theorem State.start_chunkCount (c : Cmd) (p : Phase) : (s.start c p).chunkCount = s.chunkCount := rfl

/-! ## `State.rewind` -/

@[simp] theorem State.rewind_status : (s.rewind).status = s.status := rfl
@[simp] theorem State.rewind_codeBase : (s.rewind).codeBase = s.codeBase := rfl
@[simp] theorem State.rewind_topN : (s.rewind).topN = s.topN := rfl
@[simp] theorem State.rewind_inLen : (s.rewind).inLen = s.inLen := rfl
@[simp] theorem State.rewind_origSize : (s.rewind).origSize = s.origSize := rfl
@[simp] theorem State.rewind_outLen : (s.rewind).outLen = s.outLen := rfl
@[simp] theorem State.rewind_padLen : (s.rewind).padLen = s.padLen := rfl
@[simp] theorem State.rewind_paddedLen : (s.rewind).paddedLen = s.paddedLen := rfl
@[simp] theorem State.rewind_distinct : (s.rewind).distinct = s.distinct := rfl
@[simp] theorem State.rewind_errPos : (s.rewind).errPos = s.errPos := rfl
@[simp] theorem State.rewind_errVal : (s.rewind).errVal = s.errVal := rfl
@[simp] theorem State.rewind_dict : (s.rewind).dict = s.dict := rfl
@[simp] theorem State.rewind_freq : (s.rewind).freq = s.freq := rfl
@[simp] theorem State.rewind_phase : (s.rewind).phase = s.phase := rfl
@[simp] theorem State.rewind_cmd : (s.rewind).cmd = s.cmd := rfl
@[simp] theorem State.rewind_pos : (s.rewind).pos = 0 := rfl
@[simp] theorem State.rewind_opos : (s.rewind).opos = 0 := rfl
@[simp] theorem State.rewind_ibuf : (s.rewind).ibuf = s.ibuf := rfl
@[simp] theorem State.rewind_obuf : (s.rewind).obuf = s.obuf := rfl
@[simp] theorem State.rewind_ibufGen : (s.rewind).ibufGen = s.ibufGen := rfl
@[simp] theorem State.rewind_obufGen : (s.rewind).obufGen = s.obufGen := rfl
@[simp] theorem State.rewind_draws : (s.rewind).draws = s.draws := rfl
@[simp] theorem State.rewind_turns : (s.rewind).turns = s.turns := rfl
@[simp] theorem State.rewind_replies : (s.rewind).replies = s.replies := rfl
@[simp] theorem State.rewind_ibufByte (x : Nat) : (s.rewind).ibufByte x = s.ibufByte x := rfl
@[simp] theorem State.rewind_padByte (x : Nat) : (s.rewind).padByte x = s.padByte x := rfl
@[simp] theorem State.rewind_obufByte (x : Nat) : (s.rewind).obufByte x = s.obufByte x := rfl
@[simp] theorem State.rewind_chunkAt (x : Nat) : (s.rewind).chunkAt x = s.chunkAt x := rfl
@[simp] theorem State.rewind_chunkCount : (s.rewind).chunkCount = s.chunkCount := rfl
@[simp] theorem State.rewind_busy : (s.rewind).busy = s.busy := rfl

/-! ## `State.rewindPos` -/

@[simp] theorem State.rewindPos_status : (s.rewindPos).status = s.status := rfl
@[simp] theorem State.rewindPos_codeBase : (s.rewindPos).codeBase = s.codeBase := rfl
@[simp] theorem State.rewindPos_topN : (s.rewindPos).topN = s.topN := rfl
@[simp] theorem State.rewindPos_inLen : (s.rewindPos).inLen = s.inLen := rfl
@[simp] theorem State.rewindPos_origSize : (s.rewindPos).origSize = s.origSize := rfl
@[simp] theorem State.rewindPos_outLen : (s.rewindPos).outLen = s.outLen := rfl
@[simp] theorem State.rewindPos_padLen : (s.rewindPos).padLen = s.padLen := rfl
@[simp] theorem State.rewindPos_paddedLen : (s.rewindPos).paddedLen = s.paddedLen := rfl
@[simp] theorem State.rewindPos_distinct : (s.rewindPos).distinct = s.distinct := rfl
@[simp] theorem State.rewindPos_errPos : (s.rewindPos).errPos = s.errPos := rfl
@[simp] theorem State.rewindPos_errVal : (s.rewindPos).errVal = s.errVal := rfl
@[simp] theorem State.rewindPos_dict : (s.rewindPos).dict = s.dict := rfl
@[simp] theorem State.rewindPos_freq : (s.rewindPos).freq = s.freq := rfl
@[simp] theorem State.rewindPos_phase : (s.rewindPos).phase = s.phase := rfl
@[simp] theorem State.rewindPos_cmd : (s.rewindPos).cmd = s.cmd := rfl
@[simp] theorem State.rewindPos_pos : (s.rewindPos).pos = 0 := rfl
@[simp] theorem State.rewindPos_opos : (s.rewindPos).opos = s.opos := rfl
@[simp] theorem State.rewindPos_ibuf : (s.rewindPos).ibuf = s.ibuf := rfl
@[simp] theorem State.rewindPos_obuf : (s.rewindPos).obuf = s.obuf := rfl
@[simp] theorem State.rewindPos_ibufGen : (s.rewindPos).ibufGen = s.ibufGen := rfl
@[simp] theorem State.rewindPos_obufGen : (s.rewindPos).obufGen = s.obufGen := rfl
@[simp] theorem State.rewindPos_draws : (s.rewindPos).draws = s.draws := rfl
@[simp] theorem State.rewindPos_turns : (s.rewindPos).turns = s.turns := rfl
@[simp] theorem State.rewindPos_replies : (s.rewindPos).replies = s.replies := rfl
@[simp] theorem State.rewindPos_ibufByte (x : Nat) : (s.rewindPos).ibufByte x = s.ibufByte x := rfl
@[simp] theorem State.rewindPos_padByte (x : Nat) : (s.rewindPos).padByte x = s.padByte x := rfl
@[simp] theorem State.rewindPos_obufByte (x : Nat) : (s.rewindPos).obufByte x = s.obufByte x := rfl
@[simp] theorem State.rewindPos_chunkAt (x : Nat) : (s.rewindPos).chunkAt x = s.chunkAt x := rfl
@[simp] theorem State.rewindPos_chunkCount : (s.rewindPos).chunkCount = s.chunkCount := rfl
@[simp] theorem State.rewindPos_busy : (s.rewindPos).busy = s.busy := rfl

/-! ## `State.clearFreq` -/

@[simp] theorem State.clearFreq_status : (s.clearFreq).status = s.status := rfl
@[simp] theorem State.clearFreq_codeBase : (s.clearFreq).codeBase = s.codeBase := rfl
@[simp] theorem State.clearFreq_topN : (s.clearFreq).topN = s.topN := rfl
@[simp] theorem State.clearFreq_inLen : (s.clearFreq).inLen = s.inLen := rfl
@[simp] theorem State.clearFreq_origSize : (s.clearFreq).origSize = s.origSize := rfl
@[simp] theorem State.clearFreq_outLen : (s.clearFreq).outLen = s.outLen := rfl
@[simp] theorem State.clearFreq_padLen : (s.clearFreq).padLen = s.padLen := rfl
@[simp] theorem State.clearFreq_paddedLen : (s.clearFreq).paddedLen = s.paddedLen := rfl
@[simp] theorem State.clearFreq_distinct : (s.clearFreq).distinct = s.distinct := rfl
@[simp] theorem State.clearFreq_errPos : (s.clearFreq).errPos = s.errPos := rfl
@[simp] theorem State.clearFreq_errVal : (s.clearFreq).errVal = s.errVal := rfl
@[simp] theorem State.clearFreq_dict : (s.clearFreq).dict = s.dict := rfl
@[simp] theorem State.clearFreq_freq : (s.clearFreq).freq = [] := rfl
@[simp] theorem State.clearFreq_phase : (s.clearFreq).phase = s.phase := rfl
@[simp] theorem State.clearFreq_cmd : (s.clearFreq).cmd = s.cmd := rfl
@[simp] theorem State.clearFreq_pos : (s.clearFreq).pos = s.pos := rfl
@[simp] theorem State.clearFreq_opos : (s.clearFreq).opos = s.opos := rfl
@[simp] theorem State.clearFreq_ibuf : (s.clearFreq).ibuf = s.ibuf := rfl
@[simp] theorem State.clearFreq_obuf : (s.clearFreq).obuf = s.obuf := rfl
@[simp] theorem State.clearFreq_ibufGen : (s.clearFreq).ibufGen = s.ibufGen := rfl
@[simp] theorem State.clearFreq_obufGen : (s.clearFreq).obufGen = s.obufGen := rfl
@[simp] theorem State.clearFreq_draws : (s.clearFreq).draws = s.draws := rfl
@[simp] theorem State.clearFreq_turns : (s.clearFreq).turns = s.turns := rfl
@[simp] theorem State.clearFreq_replies : (s.clearFreq).replies = s.replies := rfl
@[simp] theorem State.clearFreq_ibufByte (x : Nat) : (s.clearFreq).ibufByte x = s.ibufByte x := rfl
@[simp] theorem State.clearFreq_padByte (x : Nat) : (s.clearFreq).padByte x = s.padByte x := rfl
@[simp] theorem State.clearFreq_obufByte (x : Nat) : (s.clearFreq).obufByte x = s.obufByte x := rfl
@[simp] theorem State.clearFreq_chunkAt (x : Nat) : (s.clearFreq).chunkAt x = s.chunkAt x := rfl
@[simp] theorem State.clearFreq_chunkCount : (s.clearFreq).chunkCount = s.chunkCount := rfl
@[simp] theorem State.clearFreq_busy : (s.clearFreq).busy = s.busy := rfl

/-! ## `State.clearForCommand` -/

@[simp] theorem State.clearForCommand_status : (s.clearForCommand).status = Status.clear := rfl
@[simp] theorem State.clearForCommand_codeBase : (s.clearForCommand).codeBase = s.codeBase := rfl
@[simp] theorem State.clearForCommand_topN : (s.clearForCommand).topN = s.topN := rfl
@[simp] theorem State.clearForCommand_inLen : (s.clearForCommand).inLen = s.inLen := rfl
@[simp] theorem State.clearForCommand_origSize : (s.clearForCommand).origSize = s.origSize := rfl
@[simp] theorem State.clearForCommand_outLen : (s.clearForCommand).outLen = s.outLen := rfl
@[simp] theorem State.clearForCommand_padLen : (s.clearForCommand).padLen = s.padLen := rfl
@[simp] theorem State.clearForCommand_paddedLen : (s.clearForCommand).paddedLen = s.paddedLen := rfl
@[simp] theorem State.clearForCommand_distinct : (s.clearForCommand).distinct = s.distinct := rfl
@[simp] theorem State.clearForCommand_errPos : (s.clearForCommand).errPos = 0 := rfl
@[simp] theorem State.clearForCommand_errVal : (s.clearForCommand).errVal = 0 := rfl
@[simp] theorem State.clearForCommand_dict : (s.clearForCommand).dict = s.dict := rfl
@[simp] theorem State.clearForCommand_freq : (s.clearForCommand).freq = s.freq := rfl
@[simp] theorem State.clearForCommand_phase : (s.clearForCommand).phase = s.phase := rfl
@[simp] theorem State.clearForCommand_cmd : (s.clearForCommand).cmd = s.cmd := rfl
@[simp] theorem State.clearForCommand_pos : (s.clearForCommand).pos = s.pos := rfl
@[simp] theorem State.clearForCommand_opos : (s.clearForCommand).opos = s.opos := rfl
@[simp] theorem State.clearForCommand_ibuf : (s.clearForCommand).ibuf = s.ibuf := rfl
@[simp] theorem State.clearForCommand_obuf : (s.clearForCommand).obuf = s.obuf := rfl
@[simp] theorem State.clearForCommand_ibufGen : (s.clearForCommand).ibufGen = s.ibufGen := rfl
@[simp] theorem State.clearForCommand_obufGen : (s.clearForCommand).obufGen = s.obufGen := rfl
@[simp] theorem State.clearForCommand_draws : (s.clearForCommand).draws = s.draws := rfl
@[simp] theorem State.clearForCommand_turns : (s.clearForCommand).turns = s.turns := rfl
@[simp] theorem State.clearForCommand_replies : (s.clearForCommand).replies = s.replies := rfl
@[simp] theorem State.clearForCommand_ibufByte (x : Nat) : (s.clearForCommand).ibufByte x = s.ibufByte x := rfl
@[simp] theorem State.clearForCommand_padByte (x : Nat) : (s.clearForCommand).padByte x = s.padByte x := rfl
@[simp] theorem State.clearForCommand_obufByte (x : Nat) : (s.clearForCommand).obufByte x = s.obufByte x := rfl
@[simp] theorem State.clearForCommand_chunkAt (x : Nat) : (s.clearForCommand).chunkAt x = s.chunkAt x := rfl
@[simp] theorem State.clearForCommand_chunkCount : (s.clearForCommand).chunkCount = s.chunkCount := rfl
@[simp] theorem State.clearForCommand_busy : (s.clearForCommand).busy = s.busy := rfl

/-! ## `State.markDone` -/

@[simp] theorem State.markDone_status : (s.markDone).status = s.status.withDone := rfl
@[simp] theorem State.markDone_codeBase : (s.markDone).codeBase = s.codeBase := rfl
@[simp] theorem State.markDone_topN : (s.markDone).topN = s.topN := rfl
@[simp] theorem State.markDone_inLen : (s.markDone).inLen = s.inLen := rfl
@[simp] theorem State.markDone_origSize : (s.markDone).origSize = s.origSize := rfl
@[simp] theorem State.markDone_outLen : (s.markDone).outLen = s.outLen := rfl
@[simp] theorem State.markDone_padLen : (s.markDone).padLen = s.padLen := rfl
@[simp] theorem State.markDone_paddedLen : (s.markDone).paddedLen = s.paddedLen := rfl
@[simp] theorem State.markDone_distinct : (s.markDone).distinct = s.distinct := rfl
@[simp] theorem State.markDone_errPos : (s.markDone).errPos = s.errPos := rfl
@[simp] theorem State.markDone_errVal : (s.markDone).errVal = s.errVal := rfl
@[simp] theorem State.markDone_dict : (s.markDone).dict = s.dict := rfl
@[simp] theorem State.markDone_freq : (s.markDone).freq = s.freq := rfl
@[simp] theorem State.markDone_phase : (s.markDone).phase = s.phase := rfl
@[simp] theorem State.markDone_cmd : (s.markDone).cmd = s.cmd := rfl
@[simp] theorem State.markDone_pos : (s.markDone).pos = s.pos := rfl
@[simp] theorem State.markDone_opos : (s.markDone).opos = s.opos := rfl
@[simp] theorem State.markDone_ibuf : (s.markDone).ibuf = s.ibuf := rfl
@[simp] theorem State.markDone_obuf : (s.markDone).obuf = s.obuf := rfl
@[simp] theorem State.markDone_ibufGen : (s.markDone).ibufGen = s.ibufGen := rfl
@[simp] theorem State.markDone_obufGen : (s.markDone).obufGen = s.obufGen := rfl
@[simp] theorem State.markDone_draws : (s.markDone).draws = s.draws := rfl
@[simp] theorem State.markDone_turns : (s.markDone).turns = s.turns := rfl
@[simp] theorem State.markDone_replies : (s.markDone).replies = s.replies := rfl
@[simp] theorem State.markDone_ibufByte (x : Nat) : (s.markDone).ibufByte x = s.ibufByte x := rfl
@[simp] theorem State.markDone_padByte (x : Nat) : (s.markDone).padByte x = s.padByte x := rfl
@[simp] theorem State.markDone_obufByte (x : Nat) : (s.markDone).obufByte x = s.obufByte x := rfl
@[simp] theorem State.markDone_chunkAt (x : Nat) : (s.markDone).chunkAt x = s.chunkAt x := rfl
@[simp] theorem State.markDone_chunkCount : (s.markDone).chunkCount = s.chunkCount := rfl
@[simp] theorem State.markDone_busy : (s.markDone).busy = s.busy := rfl

/-! ## `State.finish` -/

@[simp] theorem State.finish_status : (s.finish).status = s.status.withDone := rfl
@[simp] theorem State.finish_codeBase : (s.finish).codeBase = s.codeBase := rfl
@[simp] theorem State.finish_topN : (s.finish).topN = s.topN := rfl
@[simp] theorem State.finish_inLen : (s.finish).inLen = s.inLen := rfl
@[simp] theorem State.finish_origSize : (s.finish).origSize = s.origSize := rfl
@[simp] theorem State.finish_outLen : (s.finish).outLen = s.outLen := rfl
@[simp] theorem State.finish_padLen : (s.finish).padLen = s.padLen := rfl
@[simp] theorem State.finish_paddedLen : (s.finish).paddedLen = s.paddedLen := rfl
@[simp] theorem State.finish_distinct : (s.finish).distinct = s.distinct := rfl
@[simp] theorem State.finish_errPos : (s.finish).errPos = s.errPos := rfl
@[simp] theorem State.finish_errVal : (s.finish).errVal = s.errVal := rfl
@[simp] theorem State.finish_dict : (s.finish).dict = s.dict := rfl
@[simp] theorem State.finish_freq : (s.finish).freq = s.freq := rfl
@[simp] theorem State.finish_phase : (s.finish).phase = .idle := rfl
@[simp] theorem State.finish_cmd : (s.finish).cmd = s.cmd := rfl
@[simp] theorem State.finish_pos : (s.finish).pos = s.pos := rfl
@[simp] theorem State.finish_opos : (s.finish).opos = s.opos := rfl
@[simp] theorem State.finish_ibuf : (s.finish).ibuf = s.ibuf := rfl
@[simp] theorem State.finish_obuf : (s.finish).obuf = s.obuf := rfl
@[simp] theorem State.finish_ibufGen : (s.finish).ibufGen = s.ibufGen := rfl
@[simp] theorem State.finish_obufGen : (s.finish).obufGen = s.obufGen := rfl
@[simp] theorem State.finish_draws : (s.finish).draws = s.draws := rfl
@[simp] theorem State.finish_turns : (s.finish).turns = s.turns := rfl
@[simp] theorem State.finish_replies : (s.finish).replies = s.replies := rfl
@[simp] theorem State.finish_ibufByte (x : Nat) : (s.finish).ibufByte x = s.ibufByte x := rfl
@[simp] theorem State.finish_padByte (x : Nat) : (s.finish).padByte x = s.padByte x := rfl
@[simp] theorem State.finish_obufByte (x : Nat) : (s.finish).obufByte x = s.obufByte x := rfl
@[simp] theorem State.finish_chunkAt (x : Nat) : (s.finish).chunkAt x = s.chunkAt x := rfl
@[simp] theorem State.finish_chunkCount : (s.finish).chunkCount = s.chunkCount := rfl

/-! ## `State.raise` -/

@[simp] theorem State.raise_status (e : ErrCode) (p : BitVec 32) (v : BitVec 16) : (s.raise e p v).status = (s.status.withErr e).withDone := rfl
@[simp] theorem State.raise_codeBase (e : ErrCode) (p : BitVec 32) (v : BitVec 16) : (s.raise e p v).codeBase = s.codeBase := rfl
@[simp] theorem State.raise_topN (e : ErrCode) (p : BitVec 32) (v : BitVec 16) : (s.raise e p v).topN = s.topN := rfl
@[simp] theorem State.raise_inLen (e : ErrCode) (p : BitVec 32) (v : BitVec 16) : (s.raise e p v).inLen = s.inLen := rfl
@[simp] theorem State.raise_origSize (e : ErrCode) (p : BitVec 32) (v : BitVec 16) : (s.raise e p v).origSize = s.origSize := rfl
@[simp] theorem State.raise_outLen (e : ErrCode) (p : BitVec 32) (v : BitVec 16) : (s.raise e p v).outLen = s.outLen := rfl
@[simp] theorem State.raise_padLen (e : ErrCode) (p : BitVec 32) (v : BitVec 16) : (s.raise e p v).padLen = s.padLen := rfl
@[simp] theorem State.raise_paddedLen (e : ErrCode) (p : BitVec 32) (v : BitVec 16) : (s.raise e p v).paddedLen = s.paddedLen := rfl
@[simp] theorem State.raise_distinct (e : ErrCode) (p : BitVec 32) (v : BitVec 16) : (s.raise e p v).distinct = s.distinct := rfl
@[simp] theorem State.raise_errPos (e : ErrCode) (p : BitVec 32) (v : BitVec 16) : (s.raise e p v).errPos = p := rfl
@[simp] theorem State.raise_errVal (e : ErrCode) (p : BitVec 32) (v : BitVec 16) : (s.raise e p v).errVal = v := rfl
@[simp] theorem State.raise_dict (e : ErrCode) (p : BitVec 32) (v : BitVec 16) : (s.raise e p v).dict = s.dict := rfl
@[simp] theorem State.raise_freq (e : ErrCode) (p : BitVec 32) (v : BitVec 16) : (s.raise e p v).freq = s.freq := rfl
@[simp] theorem State.raise_phase (e : ErrCode) (p : BitVec 32) (v : BitVec 16) : (s.raise e p v).phase = .idle := rfl
@[simp] theorem State.raise_cmd (e : ErrCode) (p : BitVec 32) (v : BitVec 16) : (s.raise e p v).cmd = s.cmd := rfl
@[simp] theorem State.raise_pos (e : ErrCode) (p : BitVec 32) (v : BitVec 16) : (s.raise e p v).pos = s.pos := rfl
@[simp] theorem State.raise_opos (e : ErrCode) (p : BitVec 32) (v : BitVec 16) : (s.raise e p v).opos = s.opos := rfl
@[simp] theorem State.raise_ibuf (e : ErrCode) (p : BitVec 32) (v : BitVec 16) : (s.raise e p v).ibuf = s.ibuf := rfl
@[simp] theorem State.raise_obuf (e : ErrCode) (p : BitVec 32) (v : BitVec 16) : (s.raise e p v).obuf = s.obuf := rfl
@[simp] theorem State.raise_ibufGen (e : ErrCode) (p : BitVec 32) (v : BitVec 16) : (s.raise e p v).ibufGen = s.ibufGen := rfl
@[simp] theorem State.raise_obufGen (e : ErrCode) (p : BitVec 32) (v : BitVec 16) : (s.raise e p v).obufGen = s.obufGen := rfl
@[simp] theorem State.raise_draws (e : ErrCode) (p : BitVec 32) (v : BitVec 16) : (s.raise e p v).draws = s.draws := rfl
@[simp] theorem State.raise_turns (e : ErrCode) (p : BitVec 32) (v : BitVec 16) : (s.raise e p v).turns = s.turns := rfl
@[simp] theorem State.raise_replies (e : ErrCode) (p : BitVec 32) (v : BitVec 16) : (s.raise e p v).replies = s.replies := rfl
@[simp] theorem State.raise_ibufByte (e : ErrCode) (p : BitVec 32) (v : BitVec 16) (x : Nat) : (s.raise e p v).ibufByte x = s.ibufByte x := rfl
@[simp] theorem State.raise_padByte (e : ErrCode) (p : BitVec 32) (v : BitVec 16) (x : Nat) : (s.raise e p v).padByte x = s.padByte x := rfl
@[simp] theorem State.raise_obufByte (e : ErrCode) (p : BitVec 32) (v : BitVec 16) (x : Nat) : (s.raise e p v).obufByte x = s.obufByte x := rfl
@[simp] theorem State.raise_chunkAt (e : ErrCode) (p : BitVec 32) (v : BitVec 16) (x : Nat) : (s.raise e p v).chunkAt x = s.chunkAt x := rfl
@[simp] theorem State.raise_chunkCount (e : ErrCode) (p : BitVec 32) (v : BitVec 16) : (s.raise e p v).chunkCount = s.chunkCount := rfl

/-! ## `State.refuse` -/

@[simp] theorem State.refuse_status (e : ErrCode) : (s.refuse e).status = (s.status.withErr e).withDone := rfl
@[simp] theorem State.refuse_codeBase (e : ErrCode) : (s.refuse e).codeBase = s.codeBase := rfl
@[simp] theorem State.refuse_topN (e : ErrCode) : (s.refuse e).topN = s.topN := rfl
@[simp] theorem State.refuse_inLen (e : ErrCode) : (s.refuse e).inLen = s.inLen := rfl
@[simp] theorem State.refuse_origSize (e : ErrCode) : (s.refuse e).origSize = s.origSize := rfl
@[simp] theorem State.refuse_outLen (e : ErrCode) : (s.refuse e).outLen = s.outLen := rfl
@[simp] theorem State.refuse_padLen (e : ErrCode) : (s.refuse e).padLen = s.padLen := rfl
@[simp] theorem State.refuse_paddedLen (e : ErrCode) : (s.refuse e).paddedLen = s.paddedLen := rfl
@[simp] theorem State.refuse_distinct (e : ErrCode) : (s.refuse e).distinct = s.distinct := rfl
@[simp] theorem State.refuse_errPos (e : ErrCode) : (s.refuse e).errPos = s.errPos := rfl
@[simp] theorem State.refuse_errVal (e : ErrCode) : (s.refuse e).errVal = s.errVal := rfl
@[simp] theorem State.refuse_dict (e : ErrCode) : (s.refuse e).dict = s.dict := rfl
@[simp] theorem State.refuse_freq (e : ErrCode) : (s.refuse e).freq = s.freq := rfl
@[simp] theorem State.refuse_phase (e : ErrCode) : (s.refuse e).phase = s.phase := rfl
@[simp] theorem State.refuse_cmd (e : ErrCode) : (s.refuse e).cmd = s.cmd := rfl
@[simp] theorem State.refuse_pos (e : ErrCode) : (s.refuse e).pos = s.pos := rfl
@[simp] theorem State.refuse_opos (e : ErrCode) : (s.refuse e).opos = s.opos := rfl
@[simp] theorem State.refuse_ibuf (e : ErrCode) : (s.refuse e).ibuf = s.ibuf := rfl
@[simp] theorem State.refuse_obuf (e : ErrCode) : (s.refuse e).obuf = s.obuf := rfl
@[simp] theorem State.refuse_ibufGen (e : ErrCode) : (s.refuse e).ibufGen = s.ibufGen := rfl
@[simp] theorem State.refuse_obufGen (e : ErrCode) : (s.refuse e).obufGen = s.obufGen := rfl
@[simp] theorem State.refuse_draws (e : ErrCode) : (s.refuse e).draws = s.draws := rfl
@[simp] theorem State.refuse_turns (e : ErrCode) : (s.refuse e).turns = s.turns := rfl
@[simp] theorem State.refuse_replies (e : ErrCode) : (s.refuse e).replies = s.replies := rfl
@[simp] theorem State.refuse_ibufByte (e : ErrCode) (x : Nat) : (s.refuse e).ibufByte x = s.ibufByte x := rfl
@[simp] theorem State.refuse_padByte (e : ErrCode) (x : Nat) : (s.refuse e).padByte x = s.padByte x := rfl
@[simp] theorem State.refuse_obufByte (e : ErrCode) (x : Nat) : (s.refuse e).obufByte x = s.obufByte x := rfl
@[simp] theorem State.refuse_chunkAt (e : ErrCode) (x : Nat) : (s.refuse e).chunkAt x = s.chunkAt x := rfl
@[simp] theorem State.refuse_chunkCount (e : ErrCode) : (s.refuse e).chunkCount = s.chunkCount := rfl
@[simp] theorem State.refuse_busy (e : ErrCode) : (s.refuse e).busy = s.busy := rfl

/-! ## `State.dropWrite` -/

@[simp] theorem State.dropWrite_status : (s.dropWrite).status = s.status.withBusyWr := rfl
@[simp] theorem State.dropWrite_codeBase : (s.dropWrite).codeBase = s.codeBase := rfl
@[simp] theorem State.dropWrite_topN : (s.dropWrite).topN = s.topN := rfl
@[simp] theorem State.dropWrite_inLen : (s.dropWrite).inLen = s.inLen := rfl
@[simp] theorem State.dropWrite_origSize : (s.dropWrite).origSize = s.origSize := rfl
@[simp] theorem State.dropWrite_outLen : (s.dropWrite).outLen = s.outLen := rfl
@[simp] theorem State.dropWrite_padLen : (s.dropWrite).padLen = s.padLen := rfl
@[simp] theorem State.dropWrite_paddedLen : (s.dropWrite).paddedLen = s.paddedLen := rfl
@[simp] theorem State.dropWrite_distinct : (s.dropWrite).distinct = s.distinct := rfl
@[simp] theorem State.dropWrite_errPos : (s.dropWrite).errPos = s.errPos := rfl
@[simp] theorem State.dropWrite_errVal : (s.dropWrite).errVal = s.errVal := rfl
@[simp] theorem State.dropWrite_dict : (s.dropWrite).dict = s.dict := rfl
@[simp] theorem State.dropWrite_freq : (s.dropWrite).freq = s.freq := rfl
@[simp] theorem State.dropWrite_phase : (s.dropWrite).phase = s.phase := rfl
@[simp] theorem State.dropWrite_cmd : (s.dropWrite).cmd = s.cmd := rfl
@[simp] theorem State.dropWrite_pos : (s.dropWrite).pos = s.pos := rfl
@[simp] theorem State.dropWrite_opos : (s.dropWrite).opos = s.opos := rfl
@[simp] theorem State.dropWrite_ibuf : (s.dropWrite).ibuf = s.ibuf := rfl
@[simp] theorem State.dropWrite_obuf : (s.dropWrite).obuf = s.obuf := rfl
@[simp] theorem State.dropWrite_ibufGen : (s.dropWrite).ibufGen = s.ibufGen := rfl
@[simp] theorem State.dropWrite_obufGen : (s.dropWrite).obufGen = s.obufGen := rfl
@[simp] theorem State.dropWrite_draws : (s.dropWrite).draws = s.draws := rfl
@[simp] theorem State.dropWrite_turns : (s.dropWrite).turns = s.turns := rfl
@[simp] theorem State.dropWrite_replies : (s.dropWrite).replies = s.replies := rfl
@[simp] theorem State.dropWrite_ibufByte (x : Nat) : (s.dropWrite).ibufByte x = s.ibufByte x := rfl
@[simp] theorem State.dropWrite_padByte (x : Nat) : (s.dropWrite).padByte x = s.padByte x := rfl
@[simp] theorem State.dropWrite_obufByte (x : Nat) : (s.dropWrite).obufByte x = s.obufByte x := rfl
@[simp] theorem State.dropWrite_chunkAt (x : Nat) : (s.dropWrite).chunkAt x = s.chunkAt x := rfl
@[simp] theorem State.dropWrite_chunkCount : (s.dropWrite).chunkCount = s.chunkCount := rfl
@[simp] theorem State.dropWrite_busy : (s.dropWrite).busy = s.busy := rfl

/-! ## `State.closeOutput` -/

@[simp] theorem State.closeOutput_status (n : BitVec 32) : (s.closeOutput n).status = s.status := rfl
@[simp] theorem State.closeOutput_codeBase (n : BitVec 32) : (s.closeOutput n).codeBase = s.codeBase := rfl
@[simp] theorem State.closeOutput_topN (n : BitVec 32) : (s.closeOutput n).topN = s.topN := rfl
@[simp] theorem State.closeOutput_inLen (n : BitVec 32) : (s.closeOutput n).inLen = s.inLen := rfl
@[simp] theorem State.closeOutput_origSize (n : BitVec 32) : (s.closeOutput n).origSize = s.origSize := rfl
@[simp] theorem State.closeOutput_outLen (n : BitVec 32) : (s.closeOutput n).outLen = n := rfl
@[simp] theorem State.closeOutput_padLen (n : BitVec 32) : (s.closeOutput n).padLen = s.padLen := rfl
@[simp] theorem State.closeOutput_paddedLen (n : BitVec 32) : (s.closeOutput n).paddedLen = s.paddedLen := rfl
@[simp] theorem State.closeOutput_distinct (n : BitVec 32) : (s.closeOutput n).distinct = s.distinct := rfl
@[simp] theorem State.closeOutput_errPos (n : BitVec 32) : (s.closeOutput n).errPos = s.errPos := rfl
@[simp] theorem State.closeOutput_errVal (n : BitVec 32) : (s.closeOutput n).errVal = s.errVal := rfl
@[simp] theorem State.closeOutput_dict (n : BitVec 32) : (s.closeOutput n).dict = s.dict := rfl
@[simp] theorem State.closeOutput_freq (n : BitVec 32) : (s.closeOutput n).freq = s.freq := rfl
@[simp] theorem State.closeOutput_phase (n : BitVec 32) : (s.closeOutput n).phase = s.phase := rfl
@[simp] theorem State.closeOutput_cmd (n : BitVec 32) : (s.closeOutput n).cmd = s.cmd := rfl
@[simp] theorem State.closeOutput_pos (n : BitVec 32) : (s.closeOutput n).pos = s.pos := rfl
@[simp] theorem State.closeOutput_opos (n : BitVec 32) : (s.closeOutput n).opos = s.opos := rfl
@[simp] theorem State.closeOutput_ibuf (n : BitVec 32) : (s.closeOutput n).ibuf = s.ibuf := rfl
@[simp] theorem State.closeOutput_obuf (n : BitVec 32) : (s.closeOutput n).obuf = s.obuf.keepBelow n.toNat := rfl
@[simp] theorem State.closeOutput_ibufGen (n : BitVec 32) : (s.closeOutput n).ibufGen = s.ibufGen := rfl
@[simp] theorem State.closeOutput_obufGen (n : BitVec 32) : (s.closeOutput n).obufGen = s.obufGen + 1 := rfl
@[simp] theorem State.closeOutput_draws (n : BitVec 32) : (s.closeOutput n).draws = s.draws := rfl
@[simp] theorem State.closeOutput_turns (n : BitVec 32) : (s.closeOutput n).turns = s.turns := rfl
@[simp] theorem State.closeOutput_replies (n : BitVec 32) : (s.closeOutput n).replies = s.replies := rfl
@[simp] theorem State.closeOutput_ibufByte (n : BitVec 32) (x : Nat) : (s.closeOutput n).ibufByte x = s.ibufByte x := rfl
@[simp] theorem State.closeOutput_padByte (n : BitVec 32) (x : Nat) : (s.closeOutput n).padByte x = s.padByte x := rfl
@[simp] theorem State.closeOutput_chunkAt (n : BitVec 32) (x : Nat) : (s.closeOutput n).chunkAt x = s.chunkAt x := rfl
@[simp] theorem State.closeOutput_chunkCount (n : BitVec 32) : (s.closeOutput n).chunkCount = s.chunkCount := rfl
@[simp] theorem State.closeOutput_busy (n : BitVec 32) : (s.closeOutput n).busy = s.busy := rfl

/-! ## `State.setTail` -/

@[simp] theorem State.setTail_status : (s.setTail).status = s.status.withTail := rfl
@[simp] theorem State.setTail_codeBase : (s.setTail).codeBase = s.codeBase := rfl
@[simp] theorem State.setTail_topN : (s.setTail).topN = s.topN := rfl
@[simp] theorem State.setTail_inLen : (s.setTail).inLen = s.inLen := rfl
@[simp] theorem State.setTail_origSize : (s.setTail).origSize = s.origSize := rfl
@[simp] theorem State.setTail_outLen : (s.setTail).outLen = s.outLen := rfl
@[simp] theorem State.setTail_padLen : (s.setTail).padLen = s.padLen := rfl
@[simp] theorem State.setTail_paddedLen : (s.setTail).paddedLen = s.paddedLen := rfl
@[simp] theorem State.setTail_distinct : (s.setTail).distinct = s.distinct := rfl
@[simp] theorem State.setTail_errPos : (s.setTail).errPos = s.errPos := rfl
@[simp] theorem State.setTail_errVal : (s.setTail).errVal = s.errVal := rfl
@[simp] theorem State.setTail_dict : (s.setTail).dict = s.dict := rfl
@[simp] theorem State.setTail_freq : (s.setTail).freq = s.freq := rfl
@[simp] theorem State.setTail_phase : (s.setTail).phase = s.phase := rfl
@[simp] theorem State.setTail_cmd : (s.setTail).cmd = s.cmd := rfl
@[simp] theorem State.setTail_pos : (s.setTail).pos = s.pos := rfl
@[simp] theorem State.setTail_opos : (s.setTail).opos = s.opos := rfl
@[simp] theorem State.setTail_ibuf : (s.setTail).ibuf = s.ibuf := rfl
@[simp] theorem State.setTail_obuf : (s.setTail).obuf = s.obuf := rfl
@[simp] theorem State.setTail_ibufGen : (s.setTail).ibufGen = s.ibufGen := rfl
@[simp] theorem State.setTail_obufGen : (s.setTail).obufGen = s.obufGen := rfl
@[simp] theorem State.setTail_draws : (s.setTail).draws = s.draws := rfl
@[simp] theorem State.setTail_turns : (s.setTail).turns = s.turns := rfl
@[simp] theorem State.setTail_replies : (s.setTail).replies = s.replies := rfl
@[simp] theorem State.setTail_ibufByte (x : Nat) : (s.setTail).ibufByte x = s.ibufByte x := rfl
@[simp] theorem State.setTail_padByte (x : Nat) : (s.setTail).padByte x = s.padByte x := rfl
@[simp] theorem State.setTail_obufByte (x : Nat) : (s.setTail).obufByte x = s.obufByte x := rfl
@[simp] theorem State.setTail_chunkAt (x : Nat) : (s.setTail).chunkAt x = s.chunkAt x := rfl
@[simp] theorem State.setTail_chunkCount : (s.setTail).chunkCount = s.chunkCount := rfl
@[simp] theorem State.setTail_busy : (s.setTail).busy = s.busy := rfl

/-! ## `State.setShort` -/

@[simp] theorem State.setShort_status (n : BitVec 32) : (s.setShort n).status = s.status.withShort s.origSize n := rfl
@[simp] theorem State.setShort_codeBase (n : BitVec 32) : (s.setShort n).codeBase = s.codeBase := rfl
@[simp] theorem State.setShort_topN (n : BitVec 32) : (s.setShort n).topN = s.topN := rfl
@[simp] theorem State.setShort_inLen (n : BitVec 32) : (s.setShort n).inLen = s.inLen := rfl
@[simp] theorem State.setShort_origSize (n : BitVec 32) : (s.setShort n).origSize = s.origSize := rfl
@[simp] theorem State.setShort_outLen (n : BitVec 32) : (s.setShort n).outLen = s.outLen := rfl
@[simp] theorem State.setShort_padLen (n : BitVec 32) : (s.setShort n).padLen = s.padLen := rfl
@[simp] theorem State.setShort_paddedLen (n : BitVec 32) : (s.setShort n).paddedLen = s.paddedLen := rfl
@[simp] theorem State.setShort_distinct (n : BitVec 32) : (s.setShort n).distinct = s.distinct := rfl
@[simp] theorem State.setShort_errPos (n : BitVec 32) : (s.setShort n).errPos = s.errPos := rfl
@[simp] theorem State.setShort_errVal (n : BitVec 32) : (s.setShort n).errVal = s.errVal := rfl
@[simp] theorem State.setShort_dict (n : BitVec 32) : (s.setShort n).dict = s.dict := rfl
@[simp] theorem State.setShort_freq (n : BitVec 32) : (s.setShort n).freq = s.freq := rfl
@[simp] theorem State.setShort_phase (n : BitVec 32) : (s.setShort n).phase = s.phase := rfl
@[simp] theorem State.setShort_cmd (n : BitVec 32) : (s.setShort n).cmd = s.cmd := rfl
@[simp] theorem State.setShort_pos (n : BitVec 32) : (s.setShort n).pos = s.pos := rfl
@[simp] theorem State.setShort_opos (n : BitVec 32) : (s.setShort n).opos = s.opos := rfl
@[simp] theorem State.setShort_ibuf (n : BitVec 32) : (s.setShort n).ibuf = s.ibuf := rfl
@[simp] theorem State.setShort_obuf (n : BitVec 32) : (s.setShort n).obuf = s.obuf := rfl
@[simp] theorem State.setShort_ibufGen (n : BitVec 32) : (s.setShort n).ibufGen = s.ibufGen := rfl
@[simp] theorem State.setShort_obufGen (n : BitVec 32) : (s.setShort n).obufGen = s.obufGen := rfl
@[simp] theorem State.setShort_draws (n : BitVec 32) : (s.setShort n).draws = s.draws := rfl
@[simp] theorem State.setShort_turns (n : BitVec 32) : (s.setShort n).turns = s.turns := rfl
@[simp] theorem State.setShort_replies (n : BitVec 32) : (s.setShort n).replies = s.replies := rfl
@[simp] theorem State.setShort_ibufByte (n : BitVec 32) (x : Nat) : (s.setShort n).ibufByte x = s.ibufByte x := rfl
@[simp] theorem State.setShort_padByte (n : BitVec 32) (x : Nat) : (s.setShort n).padByte x = s.padByte x := rfl
@[simp] theorem State.setShort_obufByte (n : BitVec 32) (x : Nat) : (s.setShort n).obufByte x = s.obufByte x := rfl
@[simp] theorem State.setShort_chunkAt (n : BitVec 32) (x : Nat) : (s.setShort n).chunkAt x = s.chunkAt x := rfl
@[simp] theorem State.setShort_chunkCount (n : BitVec 32) : (s.setShort n).chunkCount = s.chunkCount := rfl
@[simp] theorem State.setShort_busy (n : BitVec 32) : (s.setShort n).busy = s.busy := rfl

/-! ## `State.setMiss` -/

@[simp] theorem State.setMiss_status (c : Chunk) : (s.setMiss c).status = s.status.withMiss c := rfl
@[simp] theorem State.setMiss_codeBase (c : Chunk) : (s.setMiss c).codeBase = s.codeBase := rfl
@[simp] theorem State.setMiss_topN (c : Chunk) : (s.setMiss c).topN = s.topN := rfl
@[simp] theorem State.setMiss_inLen (c : Chunk) : (s.setMiss c).inLen = s.inLen := rfl
@[simp] theorem State.setMiss_origSize (c : Chunk) : (s.setMiss c).origSize = s.origSize := rfl
@[simp] theorem State.setMiss_outLen (c : Chunk) : (s.setMiss c).outLen = s.outLen := rfl
@[simp] theorem State.setMiss_padLen (c : Chunk) : (s.setMiss c).padLen = s.padLen := rfl
@[simp] theorem State.setMiss_paddedLen (c : Chunk) : (s.setMiss c).paddedLen = s.paddedLen := rfl
@[simp] theorem State.setMiss_distinct (c : Chunk) : (s.setMiss c).distinct = s.distinct := rfl
@[simp] theorem State.setMiss_errPos (c : Chunk) : (s.setMiss c).errPos = s.errPos := rfl
@[simp] theorem State.setMiss_errVal (c : Chunk) : (s.setMiss c).errVal = s.errVal := rfl
@[simp] theorem State.setMiss_dict (c : Chunk) : (s.setMiss c).dict = s.dict := rfl
@[simp] theorem State.setMiss_freq (c : Chunk) : (s.setMiss c).freq = s.freq := rfl
@[simp] theorem State.setMiss_phase (c : Chunk) : (s.setMiss c).phase = s.phase := rfl
@[simp] theorem State.setMiss_cmd (c : Chunk) : (s.setMiss c).cmd = s.cmd := rfl
@[simp] theorem State.setMiss_pos (c : Chunk) : (s.setMiss c).pos = s.pos := rfl
@[simp] theorem State.setMiss_opos (c : Chunk) : (s.setMiss c).opos = s.opos := rfl
@[simp] theorem State.setMiss_ibuf (c : Chunk) : (s.setMiss c).ibuf = s.ibuf := rfl
@[simp] theorem State.setMiss_obuf (c : Chunk) : (s.setMiss c).obuf = s.obuf := rfl
@[simp] theorem State.setMiss_ibufGen (c : Chunk) : (s.setMiss c).ibufGen = s.ibufGen := rfl
@[simp] theorem State.setMiss_obufGen (c : Chunk) : (s.setMiss c).obufGen = s.obufGen := rfl
@[simp] theorem State.setMiss_draws (c : Chunk) : (s.setMiss c).draws = s.draws := rfl
@[simp] theorem State.setMiss_turns (c : Chunk) : (s.setMiss c).turns = s.turns := rfl
@[simp] theorem State.setMiss_replies (c : Chunk) : (s.setMiss c).replies = s.replies := rfl
@[simp] theorem State.setMiss_ibufByte (c : Chunk) (x : Nat) : (s.setMiss c).ibufByte x = s.ibufByte x := rfl
@[simp] theorem State.setMiss_padByte (c : Chunk) (x : Nat) : (s.setMiss c).padByte x = s.padByte x := rfl
@[simp] theorem State.setMiss_obufByte (c : Chunk) (x : Nat) : (s.setMiss c).obufByte x = s.obufByte x := rfl
@[simp] theorem State.setMiss_chunkAt (c : Chunk) (x : Nat) : (s.setMiss c).chunkAt x = s.chunkAt x := rfl
@[simp] theorem State.setMiss_chunkCount (c : Chunk) : (s.setMiss c).chunkCount = s.chunkCount := rfl
@[simp] theorem State.setMiss_busy (c : Chunk) : (s.setMiss c).busy = s.busy := rfl

/-! ## `State.pad` -/

@[simp] theorem State.pad_status : (s.pad).status = s.status := rfl
@[simp] theorem State.pad_codeBase : (s.pad).codeBase = s.codeBase := rfl
@[simp] theorem State.pad_topN : (s.pad).topN = s.topN := rfl
@[simp] theorem State.pad_inLen : (s.pad).inLen = s.inLen := rfl
@[simp] theorem State.pad_origSize : (s.pad).origSize = s.inLen := rfl
@[simp] theorem State.pad_outLen : (s.pad).outLen = s.outLen := rfl
@[simp] theorem State.pad_padLen : (s.pad).padLen = BitVec.ofNat 2 (padOf s.inLen.toNat) := rfl
@[simp] theorem State.pad_paddedLen : (s.pad).paddedLen = BitVec.ofNat 32 (s.inLen.toNat + padOf s.inLen.toNat) := rfl
@[simp] theorem State.pad_distinct : (s.pad).distinct = s.distinct := rfl
@[simp] theorem State.pad_errPos : (s.pad).errPos = s.errPos := rfl
@[simp] theorem State.pad_errVal : (s.pad).errVal = s.errVal := rfl
@[simp] theorem State.pad_dict : (s.pad).dict = s.dict := rfl
@[simp] theorem State.pad_freq : (s.pad).freq = s.freq := rfl
@[simp] theorem State.pad_phase : (s.pad).phase = s.phase := rfl
@[simp] theorem State.pad_cmd : (s.pad).cmd = s.cmd := rfl
@[simp] theorem State.pad_pos : (s.pad).pos = s.pos := rfl
@[simp] theorem State.pad_opos : (s.pad).opos = s.opos := rfl
@[simp] theorem State.pad_ibuf : (s.pad).ibuf = s.ibuf := rfl
@[simp] theorem State.pad_obuf : (s.pad).obuf = s.obuf := rfl
@[simp] theorem State.pad_ibufGen : (s.pad).ibufGen = s.ibufGen := rfl
@[simp] theorem State.pad_obufGen : (s.pad).obufGen = s.obufGen := rfl
@[simp] theorem State.pad_draws : (s.pad).draws = s.draws := rfl
@[simp] theorem State.pad_turns : (s.pad).turns = s.turns := rfl
@[simp] theorem State.pad_replies : (s.pad).replies = s.replies := rfl
@[simp] theorem State.pad_ibufByte (x : Nat) : (s.pad).ibufByte x = s.ibufByte x := rfl
@[simp] theorem State.pad_padByte (x : Nat) : (s.pad).padByte x = s.padByte x := rfl
@[simp] theorem State.pad_obufByte (x : Nat) : (s.pad).obufByte x = s.obufByte x := rfl
@[simp] theorem State.pad_chunkAt (x : Nat) : (s.pad).chunkAt x = s.chunkAt x := rfl
@[simp] theorem State.pad_busy : (s.pad).busy = s.busy := rfl

/-! ## `State.popTurn` -/

@[simp] theorem State.popTurn_status : (s.popTurn).status = s.status := rfl
@[simp] theorem State.popTurn_codeBase : (s.popTurn).codeBase = s.codeBase := rfl
@[simp] theorem State.popTurn_topN : (s.popTurn).topN = s.topN := rfl
@[simp] theorem State.popTurn_inLen : (s.popTurn).inLen = s.inLen := rfl
@[simp] theorem State.popTurn_origSize : (s.popTurn).origSize = s.origSize := rfl
@[simp] theorem State.popTurn_outLen : (s.popTurn).outLen = s.outLen := rfl
@[simp] theorem State.popTurn_padLen : (s.popTurn).padLen = s.padLen := rfl
@[simp] theorem State.popTurn_paddedLen : (s.popTurn).paddedLen = s.paddedLen := rfl
@[simp] theorem State.popTurn_distinct : (s.popTurn).distinct = s.distinct := rfl
@[simp] theorem State.popTurn_errPos : (s.popTurn).errPos = s.errPos := rfl
@[simp] theorem State.popTurn_errVal : (s.popTurn).errVal = s.errVal := rfl
@[simp] theorem State.popTurn_dict : (s.popTurn).dict = s.dict := rfl
@[simp] theorem State.popTurn_freq : (s.popTurn).freq = s.freq := rfl
@[simp] theorem State.popTurn_phase : (s.popTurn).phase = s.phase := rfl
@[simp] theorem State.popTurn_cmd : (s.popTurn).cmd = s.cmd := rfl
@[simp] theorem State.popTurn_pos : (s.popTurn).pos = s.pos := rfl
@[simp] theorem State.popTurn_opos : (s.popTurn).opos = s.opos := rfl
@[simp] theorem State.popTurn_ibuf : (s.popTurn).ibuf = s.ibuf := rfl
@[simp] theorem State.popTurn_obuf : (s.popTurn).obuf = s.obuf := rfl
@[simp] theorem State.popTurn_ibufGen : (s.popTurn).ibufGen = s.ibufGen := rfl
@[simp] theorem State.popTurn_obufGen : (s.popTurn).obufGen = s.obufGen := rfl
@[simp] theorem State.popTurn_draws : (s.popTurn).draws = s.draws := rfl
@[simp] theorem State.popTurn_turns : (s.popTurn).turns = s.turns.tail := rfl
@[simp] theorem State.popTurn_replies : (s.popTurn).replies = s.replies := rfl
@[simp] theorem State.popTurn_ibufByte (x : Nat) : (s.popTurn).ibufByte x = s.ibufByte x := rfl
@[simp] theorem State.popTurn_padByte (x : Nat) : (s.popTurn).padByte x = s.padByte x := rfl
@[simp] theorem State.popTurn_obufByte (x : Nat) : (s.popTurn).obufByte x = s.obufByte x := rfl
@[simp] theorem State.popTurn_chunkAt (x : Nat) : (s.popTurn).chunkAt x = s.chunkAt x := rfl
@[simp] theorem State.popTurn_chunkCount : (s.popTurn).chunkCount = s.chunkCount := rfl
@[simp] theorem State.popTurn_busy : (s.popTurn).busy = s.busy := rfl

/-! ## `State.reply` -/

@[simp] theorem State.reply_status (r : Reply) : (s.reply r).status = s.status := rfl
@[simp] theorem State.reply_codeBase (r : Reply) : (s.reply r).codeBase = s.codeBase := rfl
@[simp] theorem State.reply_topN (r : Reply) : (s.reply r).topN = s.topN := rfl
@[simp] theorem State.reply_inLen (r : Reply) : (s.reply r).inLen = s.inLen := rfl
@[simp] theorem State.reply_origSize (r : Reply) : (s.reply r).origSize = s.origSize := rfl
@[simp] theorem State.reply_outLen (r : Reply) : (s.reply r).outLen = s.outLen := rfl
@[simp] theorem State.reply_padLen (r : Reply) : (s.reply r).padLen = s.padLen := rfl
@[simp] theorem State.reply_paddedLen (r : Reply) : (s.reply r).paddedLen = s.paddedLen := rfl
@[simp] theorem State.reply_distinct (r : Reply) : (s.reply r).distinct = s.distinct := rfl
@[simp] theorem State.reply_errPos (r : Reply) : (s.reply r).errPos = s.errPos := rfl
@[simp] theorem State.reply_errVal (r : Reply) : (s.reply r).errVal = s.errVal := rfl
@[simp] theorem State.reply_dict (r : Reply) : (s.reply r).dict = s.dict := rfl
@[simp] theorem State.reply_freq (r : Reply) : (s.reply r).freq = s.freq := rfl
@[simp] theorem State.reply_phase (r : Reply) : (s.reply r).phase = s.phase := rfl
@[simp] theorem State.reply_cmd (r : Reply) : (s.reply r).cmd = s.cmd := rfl
@[simp] theorem State.reply_pos (r : Reply) : (s.reply r).pos = s.pos := rfl
@[simp] theorem State.reply_opos (r : Reply) : (s.reply r).opos = s.opos := rfl
@[simp] theorem State.reply_ibuf (r : Reply) : (s.reply r).ibuf = s.ibuf := rfl
@[simp] theorem State.reply_obuf (r : Reply) : (s.reply r).obuf = s.obuf := rfl
@[simp] theorem State.reply_ibufGen (r : Reply) : (s.reply r).ibufGen = s.ibufGen := rfl
@[simp] theorem State.reply_obufGen (r : Reply) : (s.reply r).obufGen = s.obufGen := rfl
@[simp] theorem State.reply_draws (r : Reply) : (s.reply r).draws = s.draws := rfl
@[simp] theorem State.reply_turns (r : Reply) : (s.reply r).turns = s.turns := rfl
@[simp] theorem State.reply_replies (r : Reply) : (s.reply r).replies = r :: s.replies := rfl
@[simp] theorem State.reply_ibufByte (r : Reply) (x : Nat) : (s.reply r).ibufByte x = s.ibufByte x := rfl
@[simp] theorem State.reply_padByte (r : Reply) (x : Nat) : (s.reply r).padByte x = s.padByte x := rfl
@[simp] theorem State.reply_obufByte (r : Reply) (x : Nat) : (s.reply r).obufByte x = s.obufByte x := rfl
@[simp] theorem State.reply_chunkAt (r : Reply) (x : Nat) : (s.reply r).chunkAt x = s.chunkAt x := rfl
@[simp] theorem State.reply_chunkCount (r : Reply) : (s.reply r).chunkCount = s.chunkCount := rfl
@[simp] theorem State.reply_busy (r : Reply) : (s.reply r).busy = s.busy := rfl

/-! ## `State.nextDraw` -/

@[simp] theorem State.nextDraw_status : (s.nextDraw).status = s.status := rfl
@[simp] theorem State.nextDraw_codeBase : (s.nextDraw).codeBase = s.codeBase := rfl
@[simp] theorem State.nextDraw_topN : (s.nextDraw).topN = s.topN := rfl
@[simp] theorem State.nextDraw_inLen : (s.nextDraw).inLen = s.inLen := rfl
@[simp] theorem State.nextDraw_origSize : (s.nextDraw).origSize = s.origSize := rfl
@[simp] theorem State.nextDraw_outLen : (s.nextDraw).outLen = s.outLen := rfl
@[simp] theorem State.nextDraw_padLen : (s.nextDraw).padLen = s.padLen := rfl
@[simp] theorem State.nextDraw_paddedLen : (s.nextDraw).paddedLen = s.paddedLen := rfl
@[simp] theorem State.nextDraw_distinct : (s.nextDraw).distinct = s.distinct := rfl
@[simp] theorem State.nextDraw_errPos : (s.nextDraw).errPos = s.errPos := rfl
@[simp] theorem State.nextDraw_errVal : (s.nextDraw).errVal = s.errVal := rfl
@[simp] theorem State.nextDraw_dict : (s.nextDraw).dict = s.dict := rfl
@[simp] theorem State.nextDraw_freq : (s.nextDraw).freq = s.freq := rfl
@[simp] theorem State.nextDraw_phase : (s.nextDraw).phase = s.phase := rfl
@[simp] theorem State.nextDraw_cmd : (s.nextDraw).cmd = s.cmd := rfl
@[simp] theorem State.nextDraw_pos : (s.nextDraw).pos = s.pos := rfl
@[simp] theorem State.nextDraw_opos : (s.nextDraw).opos = s.opos := rfl
@[simp] theorem State.nextDraw_ibuf : (s.nextDraw).ibuf = s.ibuf := rfl
@[simp] theorem State.nextDraw_obuf : (s.nextDraw).obuf = s.obuf := rfl
@[simp] theorem State.nextDraw_ibufGen : (s.nextDraw).ibufGen = s.ibufGen := rfl
@[simp] theorem State.nextDraw_obufGen : (s.nextDraw).obufGen = s.obufGen := rfl
@[simp] theorem State.nextDraw_draws : (s.nextDraw).draws = s.draws + 1 := rfl
@[simp] theorem State.nextDraw_turns : (s.nextDraw).turns = s.turns := rfl
@[simp] theorem State.nextDraw_replies : (s.nextDraw).replies = s.replies := rfl
@[simp] theorem State.nextDraw_ibufByte (x : Nat) : (s.nextDraw).ibufByte x = s.ibufByte x := rfl
@[simp] theorem State.nextDraw_padByte (x : Nat) : (s.nextDraw).padByte x = s.padByte x := rfl
@[simp] theorem State.nextDraw_obufByte (x : Nat) : (s.nextDraw).obufByte x = s.obufByte x := rfl
@[simp] theorem State.nextDraw_chunkAt (x : Nat) : (s.nextDraw).chunkAt x = s.chunkAt x := rfl
@[simp] theorem State.nextDraw_chunkCount : (s.nextDraw).chunkCount = s.chunkCount := rfl
@[simp] theorem State.nextDraw_busy : (s.nextDraw).busy = s.busy := rfl

/-! ## `State.clearDict` -/

@[simp] theorem State.clearDict_status : (s.clearDict).status = s.status := rfl
@[simp] theorem State.clearDict_codeBase : (s.clearDict).codeBase = s.codeBase := rfl
@[simp] theorem State.clearDict_topN : (s.clearDict).topN = s.topN := rfl
@[simp] theorem State.clearDict_inLen : (s.clearDict).inLen = s.inLen := rfl
@[simp] theorem State.clearDict_origSize : (s.clearDict).origSize = s.origSize := rfl
@[simp] theorem State.clearDict_outLen : (s.clearDict).outLen = s.outLen := rfl
@[simp] theorem State.clearDict_padLen : (s.clearDict).padLen = s.padLen := rfl
@[simp] theorem State.clearDict_paddedLen : (s.clearDict).paddedLen = s.paddedLen := rfl
@[simp] theorem State.clearDict_distinct : (s.clearDict).distinct = s.distinct := rfl
@[simp] theorem State.clearDict_errPos : (s.clearDict).errPos = s.errPos := rfl
@[simp] theorem State.clearDict_errVal : (s.clearDict).errVal = s.errVal := rfl
@[simp] theorem State.clearDict_dict : (s.clearDict).dict = clearedDict := rfl
@[simp] theorem State.clearDict_freq : (s.clearDict).freq = s.freq := rfl
@[simp] theorem State.clearDict_phase : (s.clearDict).phase = s.phase := rfl
@[simp] theorem State.clearDict_cmd : (s.clearDict).cmd = s.cmd := rfl
@[simp] theorem State.clearDict_pos : (s.clearDict).pos = s.pos := rfl
@[simp] theorem State.clearDict_opos : (s.clearDict).opos = s.opos := rfl
@[simp] theorem State.clearDict_ibuf : (s.clearDict).ibuf = s.ibuf := rfl
@[simp] theorem State.clearDict_obuf : (s.clearDict).obuf = s.obuf := rfl
@[simp] theorem State.clearDict_ibufGen : (s.clearDict).ibufGen = s.ibufGen := rfl
@[simp] theorem State.clearDict_obufGen : (s.clearDict).obufGen = s.obufGen := rfl
@[simp] theorem State.clearDict_draws : (s.clearDict).draws = s.draws := rfl
@[simp] theorem State.clearDict_turns : (s.clearDict).turns = s.turns := rfl
@[simp] theorem State.clearDict_replies : (s.clearDict).replies = s.replies := rfl
@[simp] theorem State.clearDict_ibufByte (x : Nat) : (s.clearDict).ibufByte x = s.ibufByte x := rfl
@[simp] theorem State.clearDict_padByte (x : Nat) : (s.clearDict).padByte x = s.padByte x := rfl
@[simp] theorem State.clearDict_obufByte (x : Nat) : (s.clearDict).obufByte x = s.obufByte x := rfl
@[simp] theorem State.clearDict_chunkAt (x : Nat) : (s.clearDict).chunkAt x = s.chunkAt x := rfl
@[simp] theorem State.clearDict_chunkCount : (s.clearDict).chunkCount = s.chunkCount := rfl
@[simp] theorem State.clearDict_busy : (s.clearDict).busy = s.busy := rfl

/-! ## `State.loadSlot` -/

@[simp] theorem State.loadSlot_status (j : Nat) (f : Slot → Slot) : (s.loadSlot j f).status = s.status := rfl
@[simp] theorem State.loadSlot_codeBase (j : Nat) (f : Slot → Slot) : (s.loadSlot j f).codeBase = s.codeBase := rfl
@[simp] theorem State.loadSlot_topN (j : Nat) (f : Slot → Slot) : (s.loadSlot j f).topN = s.topN := rfl
@[simp] theorem State.loadSlot_inLen (j : Nat) (f : Slot → Slot) : (s.loadSlot j f).inLen = s.inLen := rfl
@[simp] theorem State.loadSlot_origSize (j : Nat) (f : Slot → Slot) : (s.loadSlot j f).origSize = s.origSize := rfl
@[simp] theorem State.loadSlot_outLen (j : Nat) (f : Slot → Slot) : (s.loadSlot j f).outLen = s.outLen := rfl
@[simp] theorem State.loadSlot_padLen (j : Nat) (f : Slot → Slot) : (s.loadSlot j f).padLen = s.padLen := rfl
@[simp] theorem State.loadSlot_paddedLen (j : Nat) (f : Slot → Slot) : (s.loadSlot j f).paddedLen = s.paddedLen := rfl
@[simp] theorem State.loadSlot_distinct (j : Nat) (f : Slot → Slot) : (s.loadSlot j f).distinct = s.distinct := rfl
@[simp] theorem State.loadSlot_errPos (j : Nat) (f : Slot → Slot) : (s.loadSlot j f).errPos = s.errPos := rfl
@[simp] theorem State.loadSlot_errVal (j : Nat) (f : Slot → Slot) : (s.loadSlot j f).errVal = s.errVal := rfl
@[simp] theorem State.loadSlot_dict (j : Nat) (f : Slot → Slot) : (s.loadSlot j f).dict = putSlot { f (s.slot j) with freq := 0 } j s.dict := rfl
@[simp] theorem State.loadSlot_freq (j : Nat) (f : Slot → Slot) : (s.loadSlot j f).freq = s.freq := rfl
@[simp] theorem State.loadSlot_phase (j : Nat) (f : Slot → Slot) : (s.loadSlot j f).phase = s.phase := rfl
@[simp] theorem State.loadSlot_cmd (j : Nat) (f : Slot → Slot) : (s.loadSlot j f).cmd = s.cmd := rfl
@[simp] theorem State.loadSlot_pos (j : Nat) (f : Slot → Slot) : (s.loadSlot j f).pos = s.pos := rfl
@[simp] theorem State.loadSlot_opos (j : Nat) (f : Slot → Slot) : (s.loadSlot j f).opos = s.opos := rfl
@[simp] theorem State.loadSlot_ibuf (j : Nat) (f : Slot → Slot) : (s.loadSlot j f).ibuf = s.ibuf := rfl
@[simp] theorem State.loadSlot_obuf (j : Nat) (f : Slot → Slot) : (s.loadSlot j f).obuf = s.obuf := rfl
@[simp] theorem State.loadSlot_ibufGen (j : Nat) (f : Slot → Slot) : (s.loadSlot j f).ibufGen = s.ibufGen := rfl
@[simp] theorem State.loadSlot_obufGen (j : Nat) (f : Slot → Slot) : (s.loadSlot j f).obufGen = s.obufGen := rfl
@[simp] theorem State.loadSlot_draws (j : Nat) (f : Slot → Slot) : (s.loadSlot j f).draws = s.draws := rfl
@[simp] theorem State.loadSlot_turns (j : Nat) (f : Slot → Slot) : (s.loadSlot j f).turns = s.turns := rfl
@[simp] theorem State.loadSlot_replies (j : Nat) (f : Slot → Slot) : (s.loadSlot j f).replies = s.replies := rfl
@[simp] theorem State.loadSlot_ibufByte (j : Nat) (f : Slot → Slot) (x : Nat) : (s.loadSlot j f).ibufByte x = s.ibufByte x := rfl
@[simp] theorem State.loadSlot_padByte (j : Nat) (f : Slot → Slot) (x : Nat) : (s.loadSlot j f).padByte x = s.padByte x := rfl
@[simp] theorem State.loadSlot_obufByte (j : Nat) (f : Slot → Slot) (x : Nat) : (s.loadSlot j f).obufByte x = s.obufByte x := rfl
@[simp] theorem State.loadSlot_chunkAt (j : Nat) (f : Slot → Slot) (x : Nat) : (s.loadSlot j f).chunkAt x = s.chunkAt x := rfl
@[simp] theorem State.loadSlot_chunkCount (j : Nat) (f : Slot → Slot) : (s.loadSlot j f).chunkCount = s.chunkCount := rfl
@[simp] theorem State.loadSlot_busy (j : Nat) (f : Slot → Slot) : (s.loadSlot j f).busy = s.busy := rfl

/-! ## `State.selectAndBuild` -/

@[simp] theorem State.selectAndBuild_status : (s.selectAndBuild).status = s.status := rfl
@[simp] theorem State.selectAndBuild_codeBase : (s.selectAndBuild).codeBase = s.codeBase := rfl
@[simp] theorem State.selectAndBuild_topN : (s.selectAndBuild).topN = s.topN := rfl
@[simp] theorem State.selectAndBuild_inLen : (s.selectAndBuild).inLen = s.inLen := rfl
@[simp] theorem State.selectAndBuild_origSize : (s.selectAndBuild).origSize = s.origSize := rfl
@[simp] theorem State.selectAndBuild_outLen : (s.selectAndBuild).outLen = s.outLen := rfl
@[simp] theorem State.selectAndBuild_padLen : (s.selectAndBuild).padLen = s.padLen := rfl
@[simp] theorem State.selectAndBuild_paddedLen : (s.selectAndBuild).paddedLen = s.paddedLen := rfl
@[simp] theorem State.selectAndBuild_distinct : (s.selectAndBuild).distinct = BitVec.ofNat 32 s.freq.length := rfl
@[simp] theorem State.selectAndBuild_errPos : (s.selectAndBuild).errPos = s.errPos := rfl
@[simp] theorem State.selectAndBuild_errVal : (s.selectAndBuild).errVal = s.errVal := rfl
@[simp] theorem State.selectAndBuild_dict : (s.selectAndBuild).dict = buildDict s.codeBase (selectTop s.topN s.freq) := rfl
@[simp] theorem State.selectAndBuild_freq : (s.selectAndBuild).freq = s.freq := rfl
@[simp] theorem State.selectAndBuild_phase : (s.selectAndBuild).phase = s.phase := rfl
@[simp] theorem State.selectAndBuild_cmd : (s.selectAndBuild).cmd = s.cmd := rfl
@[simp] theorem State.selectAndBuild_pos : (s.selectAndBuild).pos = s.pos := rfl
@[simp] theorem State.selectAndBuild_opos : (s.selectAndBuild).opos = s.opos := rfl
@[simp] theorem State.selectAndBuild_ibuf : (s.selectAndBuild).ibuf = s.ibuf := rfl
@[simp] theorem State.selectAndBuild_obuf : (s.selectAndBuild).obuf = s.obuf := rfl
@[simp] theorem State.selectAndBuild_ibufGen : (s.selectAndBuild).ibufGen = s.ibufGen := rfl
@[simp] theorem State.selectAndBuild_obufGen : (s.selectAndBuild).obufGen = s.obufGen := rfl
@[simp] theorem State.selectAndBuild_draws : (s.selectAndBuild).draws = s.draws := rfl
@[simp] theorem State.selectAndBuild_turns : (s.selectAndBuild).turns = s.turns := rfl
@[simp] theorem State.selectAndBuild_replies : (s.selectAndBuild).replies = s.replies := rfl
@[simp] theorem State.selectAndBuild_ibufByte (x : Nat) : (s.selectAndBuild).ibufByte x = s.ibufByte x := rfl
@[simp] theorem State.selectAndBuild_padByte (x : Nat) : (s.selectAndBuild).padByte x = s.padByte x := rfl
@[simp] theorem State.selectAndBuild_obufByte (x : Nat) : (s.selectAndBuild).obufByte x = s.obufByte x := rfl
@[simp] theorem State.selectAndBuild_chunkAt (x : Nat) : (s.selectAndBuild).chunkAt x = s.chunkAt x := rfl
@[simp] theorem State.selectAndBuild_chunkCount : (s.selectAndBuild).chunkCount = s.chunkCount := rfl
@[simp] theorem State.selectAndBuild_busy : (s.selectAndBuild).busy = s.busy := rfl

/-! ## `State.countOne` -/

@[simp] theorem State.countOne_status (c : Chunk) : (s.countOne c).status = s.status := rfl
@[simp] theorem State.countOne_codeBase (c : Chunk) : (s.countOne c).codeBase = s.codeBase := rfl
@[simp] theorem State.countOne_topN (c : Chunk) : (s.countOne c).topN = s.topN := rfl
@[simp] theorem State.countOne_inLen (c : Chunk) : (s.countOne c).inLen = s.inLen := rfl
@[simp] theorem State.countOne_origSize (c : Chunk) : (s.countOne c).origSize = s.origSize := rfl
@[simp] theorem State.countOne_outLen (c : Chunk) : (s.countOne c).outLen = s.outLen := rfl
@[simp] theorem State.countOne_padLen (c : Chunk) : (s.countOne c).padLen = s.padLen := rfl
@[simp] theorem State.countOne_paddedLen (c : Chunk) : (s.countOne c).paddedLen = s.paddedLen := rfl
@[simp] theorem State.countOne_distinct (c : Chunk) : (s.countOne c).distinct = s.distinct := rfl
@[simp] theorem State.countOne_errPos (c : Chunk) : (s.countOne c).errPos = s.errPos := rfl
@[simp] theorem State.countOne_errVal (c : Chunk) : (s.countOne c).errVal = s.errVal := rfl
@[simp] theorem State.countOne_dict (c : Chunk) : (s.countOne c).dict = s.dict := rfl
@[simp] theorem State.countOne_freq (c : Chunk) : (s.countOne c).freq = countChunk c s.freq := rfl
@[simp] theorem State.countOne_phase (c : Chunk) : (s.countOne c).phase = s.phase := rfl
@[simp] theorem State.countOne_cmd (c : Chunk) : (s.countOne c).cmd = s.cmd := rfl
@[simp] theorem State.countOne_pos (c : Chunk) : (s.countOne c).pos = s.pos + 1 := rfl
@[simp] theorem State.countOne_opos (c : Chunk) : (s.countOne c).opos = s.opos := rfl
@[simp] theorem State.countOne_ibuf (c : Chunk) : (s.countOne c).ibuf = s.ibuf := rfl
@[simp] theorem State.countOne_obuf (c : Chunk) : (s.countOne c).obuf = s.obuf := rfl
@[simp] theorem State.countOne_ibufGen (c : Chunk) : (s.countOne c).ibufGen = s.ibufGen := rfl
@[simp] theorem State.countOne_obufGen (c : Chunk) : (s.countOne c).obufGen = s.obufGen := rfl
@[simp] theorem State.countOne_draws (c : Chunk) : (s.countOne c).draws = s.draws := rfl
@[simp] theorem State.countOne_turns (c : Chunk) : (s.countOne c).turns = s.turns := rfl
@[simp] theorem State.countOne_replies (c : Chunk) : (s.countOne c).replies = s.replies := rfl
@[simp] theorem State.countOne_ibufByte (c : Chunk) (x : Nat) : (s.countOne c).ibufByte x = s.ibufByte x := rfl
@[simp] theorem State.countOne_padByte (c : Chunk) (x : Nat) : (s.countOne c).padByte x = s.padByte x := rfl
@[simp] theorem State.countOne_obufByte (c : Chunk) (x : Nat) : (s.countOne c).obufByte x = s.obufByte x := rfl
@[simp] theorem State.countOne_chunkAt (c : Chunk) (x : Nat) : (s.countOne c).chunkAt x = s.chunkAt x := rfl
@[simp] theorem State.countOne_chunkCount (c : Chunk) : (s.countOne c).chunkCount = s.chunkCount := rfl
@[simp] theorem State.countOne_busy (c : Chunk) : (s.countOne c).busy = s.busy := rfl

end Sys2Proof.Machine
end

