-- ==== Sys2Proof/Laws/Commands.lean ====
section
/-! SUPPORT. Everything a write of CTRL can do, said once, and when each check fires. -/

namespace Sys2Proof.Machine

@[simp] theorem State.busy_eq_true {s : State} : s.busy = true ↔ s.phase ≠ .idle := by
  simp [State.busy]

@[simp] theorem State.busy_eq_false {s : State} : s.busy = false ↔ s.phase = .idle := by
  simp [State.busy]

/-- A CTRL write while BUSY is dropped (R176). -/
theorem ctrlWrite_busy {c : BitVec 4} {act : State → State} {s : State} (h : s.phase ≠ .idle) :
    ctrlWrite c act s = .next s.dropWrite := by
  simp [ctrlWrite, State.busy_eq_true.2 h]

/-- A CTRL write whose check fails is refused (R177, R202). -/
theorem ctrlWrite_refused {c : BitVec 4} {act : State → State} {s : State} {e : ErrCode}
    (h : s.phase = .idle) (hc : check c s.clearForCommand = some e) :
    ctrlWrite c act s = .next (s.clearForCommand.refuse e) := by
  simp [ctrlWrite, State.busy_eq_false.2 h, hc]

/-- A CTRL write that passes its checks does its acceptance action (R177). -/
theorem ctrlWrite_accepted {c : BitVec 4} {act : State → State} {s : State}
    (h : s.phase = .idle) (hc : check c s.clearForCommand = none) :
    ctrlWrite c act s = .next (act s.clearForCommand) := by
  simp [ctrlWrite, State.busy_eq_false.2 h, hc]

/-- All that a CTRL write can do: dropped, refused, or its action. -/
theorem ctrlWrite_cases {c : BitVec 4} {act : State → State} {s : State} {r : Result}
    (h : ctrlWrite c act s = r) :
    (s.phase ≠ .idle ∧ r = .next s.dropWrite) ∨
    (s.phase = .idle ∧ ∃ e, check c s.clearForCommand = some e ∧ r = .next (s.clearForCommand.refuse e)) ∨
    (s.phase = .idle ∧ check c s.clearForCommand = none ∧ r = .next (act s.clearForCommand)) := by
  by_cases hb : s.phase = .idle
  · cases hc : check c s.clearForCommand with
    | some e => exact .inr (.inl ⟨hb, e, rfl, by rw [← h, ctrlWrite_refused hb hc]⟩)
    | none => exact .inr (.inr ⟨hb, rfl, by rw [← h, ctrlWrite_accepted hb hc]⟩)
  · exact .inl ⟨hb, by rw [← h, ctrlWrite_busy hb]⟩

/-- The checks read nothing that acceptance clears. -/
@[simp] theorem check_clearForCommand (c : BitVec 4) (s : State) :
    check c s.clearForCommand = check c s := rfl

theorem check_badCmd {c : BitVec 4} (s : State) (h : 6 ≤ c.toNat) : check c s = some .badCmd := by
  simp [check, h]

theorem check_nop (s : State) : check 0x0 s = none := by simp [check]

theorem check_dictClear (s : State) : check 0x5 s = none := by simp [check]

theorem check_badLen {c : BitVec 4} {s : State} (h1 : 1 ≤ c.toNat) (h4 : c.toNat ≤ 4)
    (hl : Config.ibufBytes < s.inLen.toNat) : check c s = some .badLen := by
  simp [check, show ¬ 6 ≤ c.toNat by omega, show ¬ (c.toNat = 0 ∨ c.toNat = 5) by omega, hl]

/-- ANALYZE and COMPRESS, their length in range (R202). -/
theorem check_analyzer {c : BitVec 4} {s : State} (hc : c.toNat = 1 ∨ c.toNat = 3)
    (hl : s.inLen.toNat ≤ Config.ibufBytes) :
    check c s = if configOk s.codeBase s.topN = true then none else some .badCfg := by
  have h : ¬ Config.ibufBytes < s.inLen.toNat := by omega
  rcases hc with hc | hc <;> cases hk : configOk s.codeBase s.topN <;> simp [check, hc, h, hk]

/-- ENCODE and DECODE, their length in range (R202). -/
theorem check_codec {c : BitVec 4} {s : State} (hc : c.toNat = 2 ∨ c.toNat = 4)
    (hl : s.inLen.toNat ≤ Config.ibufBytes) :
    check c s = if dictWellFormed s.dict = true then none else some .badDict := by
  have h : ¬ Config.ibufBytes < s.inLen.toNat := by omega
  rcases hc with hc | hc <;> cases hk : dictWellFormed s.dict <;> simp [check, hc, h, hk]

/-- ANALYZE and COMPRESS pass their checks (R202). -/
theorem check_analyzer_none {c : BitVec 4} {s : State} (hc : c = 1#4 ∨ c = 3#4)
    (hl : s.inLen.toNat ≤ Config.ibufBytes) (hk : configOk s.codeBase s.topN = true) : check c s = none := by
  rw [check_analyzer (by rcases hc with rfl | rfl <;> decide) hl, if_pos hk]

/-- ENCODE and DECODE pass their checks (R202). -/
theorem check_codec_none {c : BitVec 4} {s : State} (hc : c = 2#4 ∨ c = 4#4)
    (hl : s.inLen.toNat ≤ Config.ibufBytes) (hd : dictWellFormed s.dict = true) : check c s = none := by
  rw [check_codec (by rcases hc with rfl | rfl <;> decide) hl, if_pos hd]

/-- A command that acceptance lets through had its length, and its configuration or dictionary, in
order (R202). -/
theorem check_none {c : BitVec 4} {s : State} (h : check c s = none) :
    c.toNat = 0 ∨ c.toNat = 5 ∨
    ((c.toNat = 1 ∨ c.toNat = 3) ∧ s.inLen.toNat ≤ Config.ibufBytes ∧ configOk s.codeBase s.topN = true) ∨
    ((c.toNat = 2 ∨ c.toNat = 4) ∧ s.inLen.toNat ≤ Config.ibufBytes ∧ dictWellFormed s.dict = true) := by
  unfold check at h
  split_ifs at h with h1 h2 h3 h4 h5
  · omega
  · have : c.toNat < 6 := by omega
    cases hk : configOk s.codeBase s.topN <;> cases hd : dictWellFormed s.dict <;>
      simp_all <;> omega

/-! ## What each command word runs -/

theorem exec_nop (ign : BitVec 28) (s : State) :
    exec (.nop ign) s = ctrlWrite 0x0 State.markDone s := rfl

theorem exec_analyze (ign : BitVec 28) (s : State) :
    exec (.analyze ign) s = ctrlWrite 0x1 (State.startCount .analyze) s := rfl

theorem exec_encode (ign : BitVec 28) (s : State) :
    exec (.encode ign) s = ctrlWrite 0x2 (fun s => s.pad.rewind.start .encode .enc) s := rfl

theorem exec_compress (ign : BitVec 28) (s : State) :
    exec (.compress ign) s = ctrlWrite 0x3 (State.startCount .compress) s := rfl

theorem exec_decode (ign : BitVec 28) (s : State) :
    exec (.decode ign) s = ctrlWrite 0x4 (fun s => s.rewind.start .decode .dec) s := rfl

theorem exec_dictClear (ign : BitVec 28) (s : State) :
    exec (.dictClear ign) s = ctrlWrite 0x5 (fun s => s.clearDict.markDone) s := rfl

theorem exec_reservedCmd67 (ign : BitVec 28) (low : BitVec 1) (s : State) :
    exec (.reservedCmd67 ign low) s = ctrlWrite (0b011#3 ++ low) (fun s => s) s := rfl

theorem exec_reservedCmd8F (ign : BitVec 28) (low : BitVec 3) (s : State) :
    exec (.reservedCmd8F ign low) s = ctrlWrite (0b1#1 ++ low) (fun s => s) s := rfl

/-- Whatever the command word, its meaning is a CTRL write with its CMD field, and its acceptance
action records no error. -/
theorem exec_commandOf (ign : BitVec 28) (c : BitVec 4) (s : State) :
    ∃ act : State → State, exec (commandOf ign c) s = ctrlWrite c act s ∧
      ∀ u, (act u).status.err = u.status.err := by
  have hw : ∀ n, c.toNat = n → c = BitVec.ofNat 4 n := by
    intro n h; rw [← h, BitVec.ofNat_toNat, BitVec.setWidth_eq]
  have h67 : ∀ c : BitVec 4, c.toNat = 6 ∨ c.toNat = 7 → 0b011#3 ++ c.extractLsb' 0 1 = c := by decide
  have h8F : ∀ c : BitVec 4, 8 ≤ c.toNat → 0b1#1 ++ c.extractLsb' 0 3 = c := by decide
  unfold commandOf
  split <;> rename_i h
  · exact ⟨State.markDone, by rw [hw 0 h]; exact exec_nop ign s, fun _ => rfl⟩
  · exact ⟨State.startCount .analyze, by rw [hw 1 h]; exact exec_analyze ign s, fun _ => rfl⟩
  · exact ⟨fun s => s.pad.rewind.start .encode .enc, by rw [hw 2 h]; exact exec_encode ign s, fun _ => rfl⟩
  · exact ⟨State.startCount .compress, by rw [hw 3 h]; exact exec_compress ign s, fun _ => rfl⟩
  · exact ⟨fun s => s.rewind.start .decode .dec, by rw [hw 4 h]; exact exec_decode ign s, fun _ => rfl⟩
  · exact ⟨fun s => s.clearDict.markDone, by rw [hw 5 h]; exact exec_dictClear ign s, fun _ => rfl⟩
  · exact ⟨fun s => s, by rw [exec_reservedCmd67, h67 _ (.inl h)], fun _ => rfl⟩
  · exact ⟨fun s => s, by rw [exec_reservedCmd67, h67 _ (.inr h)], fun _ => rfl⟩
  · refine ⟨fun s => s, ?_, fun _ => rfl⟩
    rw [exec_reservedCmd8F, h8F]
    by_contra hc
    interval_cases hn : c.toNat <;> simp_all

end Sys2Proof.Machine
end

