-- ==== Sys2Proof/Laws/Memory.lean ====
section
/-! SUPPORT. What each memory operation reads back as, and that each keeps the canonical form. -/

namespace Sys2Proof.Machine

@[simp] theorem Memory.read_nil (a : Nat) : Memory.read [] a = none := rfl

theorem Memory.read_cons (x : Nat) (c : Byte) (m : Memory) (a : Nat) :
    Memory.read ((x, c) :: m) a = if a = x then some c else Memory.read m a := by
  unfold Memory.read
  by_cases h : a = x
  · subst h; simp
  · have hb : (a == x) = false := by simpa using h
    simp [List.lookup_cons, hb, h]

/-- An address below every listed one is not listed. -/
theorem Memory.read_none_of_lt {m : Memory} {a : Nat} (h : ∀ c ∈ m, a < c.1) : Memory.read m a = none := by
  induction m with
  | nil => rfl
  | cons p m ih =>
    obtain ⟨x, c⟩ := p
    have hx : a < x := h (x, c) (by simp)
    rw [Memory.read_cons, if_neg (by omega)]
    exact ih fun c hc => h c (by simp [hc])

/-- A read after a write: the byte written at its address, every other address as before. -/
theorem Memory.read_write (m : Memory) (a b : Nat) (v : Byte) :
    Memory.read (Memory.write m a v) b = if b = a then some v else Memory.read m b := by
  induction m with
  | nil => simp [Memory.write, Memory.read_cons]
  | cons p m ih =>
    obtain ⟨x, c⟩ := p
    unfold Memory.write
    split_ifs <;> simp only [Memory.read_cons, ih] <;> grind

@[simp] theorem Memory.read_write_same (m : Memory) (a : Nat) (v : Byte) :
    Memory.read (Memory.write m a v) a = some v := by simp [Memory.read_write]

theorem Memory.read_write_ne (m : Memory) {a b : Nat} (v : Byte) (h : b ≠ a) :
    Memory.read (Memory.write m a v) b = Memory.read m b := by simp [Memory.read_write, h]

/-- A read after several bytes are written. -/
theorem Memory.read_writeBytes (bs : List Byte) (m : Memory) (a b : Nat) :
    Memory.read (Memory.writeBytes m a bs) b =
      if a ≤ b ∧ b < a + bs.length then bs[b - a]? else Memory.read m b := by
  induction bs generalizing m a with
  | nil => simp [Memory.writeBytes]
  | cons v bs ih =>
    rw [Memory.writeBytes, ih, Memory.read_write]
    by_cases hb : b = a
    · subst hb; simp
    · by_cases h : a + 1 ≤ b ∧ b < a + 1 + bs.length
      · rw [if_pos h, if_pos (by simp; omega)]
        have : b - a = (b - (a + 1)) + 1 := by omega
        rw [this, List.getElem?_cons_succ]
      · rw [if_neg h, if_neg hb, if_neg (by simp; omega)]

/-- A read outside the bytes written is as before. -/
theorem Memory.read_writeBytes_outside {bs : List Byte} (m : Memory) {a b : Nat}
    (h : b < a ∨ a + bs.length ≤ b) : Memory.read (Memory.writeBytes m a bs) b = Memory.read m b := by
  rw [Memory.read_writeBytes, if_neg (by omega)]

/-- A read inside the bytes written. -/
theorem Memory.read_writeBytes_inside (m : Memory) {bs : List Byte} (a k : Nat) (h : k < bs.length) :
    Memory.read (Memory.writeBytes m a bs) (a + k) = some bs[k] := by
  rw [Memory.read_writeBytes, if_pos (by omega)]
  simp [h]

theorem Memory.mem_write {m : Memory} {a : Nat} {v : Byte} {c : Host.Cell}
    (h : c ∈ Memory.write m a v) : c = (a, v) ∨ c ∈ m := by
  induction m with
  | nil => simpa [Memory.write] using h
  | cons p m ih =>
    obtain ⟨x, w⟩ := p
    unfold Memory.write at h
    split_ifs at h <;> grind

/-- A write keeps the canonical form. -/
theorem Memory.write_wf {m : Memory} (h : m.wf) (a : Nat) (v : Byte) : (Memory.write m a v).wf := by
  induction m with
  | nil => simp [Memory.write, Memory.wf]
  | cons p m ih =>
    obtain ⟨x, c⟩ := p
    rw [Memory.wf, List.pairwise_cons] at h
    unfold Memory.write
    split_ifs with h1 h2
    · rw [Memory.wf, List.pairwise_cons, List.pairwise_cons]
      refine ⟨fun d hd => ?_, h.1, h.2⟩
      rcases List.mem_cons.1 hd with rfl | hd
      · exact h1
      · exact Nat.lt_trans h1 (h.1 d hd)
    · rw [Memory.wf, List.pairwise_cons]
      exact ⟨fun d hd => h2 ▸ h.1 d hd, h.2⟩
    · rw [Memory.wf, List.pairwise_cons]
      refine ⟨fun d hd => ?_, ih h.2⟩
      rcases Memory.mem_write hd with rfl | hd
      · show x < a; omega
      · exact h.1 d hd

/-- Writing several bytes keeps the canonical form. -/
theorem Memory.writeBytes_wf (bs : List Byte) {m : Memory} (h : m.wf) (a : Nat) :
    (Memory.writeBytes m a bs).wf := by
  induction bs generalizing m a with
  | nil => exact h
  | cons v bs ih => exact ih (Memory.write_wf h a v) (a + 1)

theorem Memory.mem_writeBytes {bs : List Byte} {m : Memory} {a : Nat} {c : Host.Cell}
    (h : c ∈ Memory.writeBytes m a bs) : (a ≤ c.1 ∧ c.1 < a + bs.length) ∨ c ∈ m := by
  induction bs generalizing m a with
  | nil => exact .inr h
  | cons v bs ih =>
    rcases ih (m := m.write a v) (a := a + 1) h with h | h
    · left; simp; omega
    · rcases Memory.mem_write h with rfl | h
      · left; simp
      · exact .inr h

/-- Keeping the bytes below an address keeps the canonical form. -/
theorem Memory.keepBelow_wf {m : Memory} (h : m.wf) (n : Nat) : (Memory.keepBelow n m).wf :=
  List.Pairwise.filter _ h

theorem Memory.mem_keepBelow {m : Memory} {n : Nat} {c : Host.Cell} :
    c ∈ Memory.keepBelow n m ↔ c ∈ m ∧ c.1 < n := by
  simp [Memory.keepBelow]

/-- Below the address the bytes are as before, at and above it nothing is listed. -/
theorem Memory.read_keepBelow (n : Nat) (m : Memory) (a : Nat) :
    Memory.read (Memory.keepBelow n m) a = if a < n then Memory.read m a else none := by
  induction m with
  | nil => simp [Memory.keepBelow]
  | cons p m ih =>
    obtain ⟨x, c⟩ := p
    unfold Memory.keepBelow at ih ⊢
    by_cases hx : x < n
    · rw [List.filter_cons_of_pos (by simpa using hx), Memory.read_cons, Memory.read_cons, ih]
      grind
    · rw [List.filter_cons_of_neg (by simpa using hx), ih, Memory.read_cons]
      grind

/-- Nothing is listed outside a bound that all listed addresses meet. -/
theorem Memory.read_isSome_lt {m : Memory} {n a : Nat} (h : ∀ c ∈ m, c.1 < n)
    (ha : (Memory.read m a).isSome = true) : a < n := by
  induction m with
  | nil => simp at ha
  | cons p m ih =>
    obtain ⟨x, c⟩ := p
    rw [Memory.read_cons] at ha
    split_ifs at ha with hx
    · exact hx ▸ h (x, c) (by simp)
    · exact ih (fun c hc => h c (by simp [hc])) ha

theorem State.reset_memory_wf : State.reset.ibuf.wf ∧ State.reset.obuf.wf :=
  ⟨List.Pairwise.nil, List.Pairwise.nil⟩

end Sys2Proof.Machine
end

