-- ==== Sys2Proof/Laws/Steps.lean ====
section
/-! SUPPORT. What each shared operation of the block can do, said once, and which of them each kind of
step runs. -/

namespace Sys2Proof.Machine

/-! ## Memory operations -/

/-- A write inside OBUF goes on (R14). -/
theorem memWrite_inside {a : Nat} {bs : List Byte} {k : State → State} {s : State}
    (h : a + bs.length ≤ Config.obufBytes) : memWrite a bs k s = .next (k (s.writeObuf a bs)) := by
  simp [memWrite, h]

/-- A write that leaves OBUF stops (log entry 12). -/
theorem memWrite_outside {a : Nat} {bs : List Byte} {k : State → State} {s : State}
    (h : Config.obufBytes < a + bs.length) : memWrite a bs k s = .fault .obufWriteOutOfRange := by
  simp [memWrite, Nat.not_le.2 h]

/-- All that a write can do. -/
theorem memWrite_cases {a : Nat} {bs : List Byte} {k : State → State} {s : State} {r : Result}
    (h : memWrite a bs k s = r) :
    (a + bs.length ≤ Config.obufBytes ∧ r = .next (k (s.writeObuf a bs))) ∨
    (Config.obufBytes < a + bs.length ∧ r = .fault .obufWriteOutOfRange) := by
  unfold memWrite at h
  split at h
  · exact .inl ⟨‹_›, h.symm⟩
  · exact .inr ⟨by omega, h.symm⟩

/-- A chunk inside IBUF is handed on (R101). -/
theorem withChunk_inside {k : Nat} {f : Chunk → Result} {s : State} (h : 4 * k + 4 ≤ Config.ibufBytes) :
    withChunk k f s = f (s.chunkAt k) := by simp [withChunk, h]

/-- The bytes of OBUF after a write: the bytes written, and every other byte as before. -/
theorem State.obufByte_writeObuf (s : State) (a : Nat) (bs : List Byte) (x : Nat) :
    (s.writeObuf a bs).obufByte x = if a ≤ x ∧ x < a + bs.length then bs.getD (x - a) 0 else s.obufByte x := by
  unfold State.obufByte State.writeObuf
  rw [Memory.read_writeBytes]
  split_ifs with h
  · have : x - a < bs.length := by omega
    simp [this]
  · rfl

/-- A byte written has a value. -/
theorem State.obufWritten_writeObuf {s : State} {a n : Nat} {bs : List Byte} (h : s.obufWritten n)
    (ha : a ≤ n) : (s.writeObuf a bs).obufWritten (max n (a + bs.length)) := by
  intro x hx
  show (Memory.read (s.obuf.writeBytes a bs) x).isSome = true
  rw [Memory.read_writeBytes]
  split_ifs with hi
  · have : x - a < bs.length := by omega
    simp [this]
  · exact h x (by omega)

/-! ## The end of the output -/

/-- Closing the output keeps the bytes below the length that have a value. -/
theorem State.obufByte_closeOutput {s : State} {n : BitVec 32} {x : Nat} (h : x < n.toNat)
    (hw : (s.obuf.read x).isSome = true) : (s.closeOutput n).obufByte x = s.obufByte x := by
  unfold State.obufByte State.closeOutput
  dsimp only
  rw [Memory.read_keepBelow, if_pos h]
  obtain ⟨v, hv⟩ := Option.isSome_iff_exists.1 hw
  simp [hv]

/-- Closing the output leaves the bytes at and above the length without a value (R75). -/
theorem State.read_closeOutput_above {s : State} {n : BitVec 32} {x : Nat} (h : n.toNat ≤ x) :
    (s.closeOutput n).obuf.read x = none := by
  unfold State.closeOutput
  dsimp only
  rw [Memory.read_keepBelow, if_neg (by omega)]

/-- The length TRUNCATE leaves never exceeds the decoded length (R158). -/
theorem truncatedLen_le (o d : BitVec 32) : (truncatedLen o d).toNat ≤ d.toNat := by
  unfold truncatedLen
  split_ifs with h1 h2
  · exact Nat.le_refl _
  · exact h2
  · exact Nat.le_refl _

theorem truncatedLen_eq_decoded {o d : BitVec 32} (h : o = 0 ∨ d.toNat < o.toNat) : truncatedLen o d = d := by
  unfold truncatedLen
  rcases h with h | h
  · simp [h]
  · have : ¬ o ≤ d := by rw [BitVec.le_def]; omega
    simp [this]

theorem truncatedLen_eq_orig {o d : BitVec 32} (h0 : o ≠ 0) (h : o.toNat ≤ d.toNat) : truncatedLen o d = o := by
  rw [truncatedLen, if_neg h0, if_pos (BitVec.le_def.2 h)]

theorem isShort_eq (o d : BitVec 32) : isShort o d = decide (o ≠ 0 ∧ d.toNat < o.toNat) := by
  rw [isShort, ← Bool.decide_and]; rfl

/-! ## The dictionary -/

theorem lookupChunk_eq_none {dict : List Slot} {c : Chunk} :
    lookupChunk dict c = none ↔ ∀ d ∈ dict, d.valid = true → d.chunk ≠ c := by
  simp [lookupChunk]

theorem lookupCode_eq_none {dict : List Slot} {key : StreamUnit} :
    lookupCode dict key = none ↔ ∀ d ∈ dict, d.valid = true → d.code ≠ key := by
  simp [lookupCode]

/-- A chunk found stands in a valid slot with the code answered (R124). -/
theorem lookupChunk_some {dict : List Slot} {c : Chunk} {code : BitVec 16} (h : lookupChunk dict c = some code) :
    ∃ d ∈ dict, d.valid = true ∧ d.chunk = c ∧ d.code = code := by
  unfold lookupChunk at h
  obtain ⟨d, hd, rfl⟩ := Option.map_eq_some_iff.1 h
  have := List.find?_some hd
  simp at this
  exact ⟨d, List.mem_of_find?_eq_some hd, this.1, this.2, rfl⟩

/-- A code found stands in a valid slot with the chunk answered (R125). -/
theorem lookupCode_some {dict : List Slot} {key : StreamUnit} {ch : Chunk} (h : lookupCode dict key = some ch) :
    ∃ d ∈ dict, d.valid = true ∧ d.code = key ∧ d.chunk = ch := by
  unfold lookupCode at h
  obtain ⟨d, hd, rfl⟩ := Option.map_eq_some_iff.1 h
  have := List.find?_some hd
  simp at this
  exact ⟨d, List.mem_of_find?_eq_some hd, this.1, this.2, rfl⟩

/-- The valid slots' codes and chunks are distinct, and the codes are tagged (R126). -/
theorem dictWellFormed_iff {dict : List Slot} :
    dictWellFormed dict = true ↔
      (∀ d ∈ dict, d.valid = true → StreamUnit.tagged d.code = true) ∧
      ((validSlots dict).map (·.code)).Nodup ∧ ((validSlots dict).map (·.chunk)).Nodup := by
  rw [dictWellFormed, Bool.and_eq_true, Bool.and_eq_true, decide_eq_true_iff, decide_eq_true_iff, and_assoc,
    List.all_eq_true]
  simp only [validSlots, List.mem_filter, and_imp]

/-! ## Whose step it is -/

theorem nextWork_of_blockTurn {s : State} (h : s.BlockTurn) : nextWork s = blockWork s := by
  unfold nextWork
  rcases h with h | h
  · simp [h]
  · split <;> simp_all

/-- A block step outside phase DEC (R184). -/
theorem step_block {s : State} (h : s.BlockTurn) (hp : s.phase ≠ .dec) : step s = blockStep s.popTurn := by
  rw [step, nextWork_of_blockTurn h, blockWork, if_neg hp]

/-- A block step in phase DEC runs the form read at the position (R150). -/
theorem step_form {s : State} (h : s.BlockTurn) (hp : s.phase = .dec) (h1 : s.pos.toNat ≤ s.inLen.toNat)
    (h2 : s.inLen.toNat ≤ Config.ibufBytes) :
    step s = exec (decode s.knows (.stream s.streamWindow)) s.popTurn := by
  have hmin : ¬ Config.ibufBytes < s.pos.toNat + min 4 s.bytesLeft := by unfold State.bytesLeft; omega
  rw [step, nextWork_of_blockTurn h, blockWork, if_pos hp, fetchForm, if_neg (by omega), if_neg hmin]

/-- A host transaction that is no CTRL write (R170). -/
theorem step_host {s : State} {x : Tx} {ts : List Turn} (h : s.turns = .host x :: ts)
    (hx : ∀ off v, x = .regWrite off v → regAt off ≠ .ctrl) : step s = .next (hostStep s.popTurn x) := by
  unfold step nextWork
  rw [h]
  cases x with
  | regWrite off v => simp [hostWork, hx off v rfl]
  | regRead off => rfl
  | ibufRead a => rfl
  | ibufWrite a b => rfl
  | obufRead a => rfl

/-- A CTRL write (R172, R177). -/
theorem step_ctrl {s : State} {off : Nat} {v : Word} {ts : List Turn} (h : s.turns = .host (.regWrite off v) :: ts)
    (ho : regAt off = .ctrl) : step s = exec (decodeCtrl v) s.popTurn := by
  unfold step nextWork
  rw [h]
  simp [hostWork, ho, decode]

/-- A hardware reset's turn (R220). -/
theorem step_reset {s : State} {ts : List Turn} (h : s.turns = .reset :: ts) :
    step s = .next s.popTurn.hardwareReset := by
  unfold step nextWork
  rw [h]

/-! ## Runs -/

@[simp] theorem runSteps_zero (s : State) : runSteps 0 s = .next s := rfl

theorem runSteps_succ {n : Nat} {s t : State} (h : step s = .next t) : runSteps (n + 1) s = runSteps n t := by
  simp [runSteps, h]

/-- A run goes on from where a shorter run ends. -/
theorem runSteps_add {m n : Nat} {s t : State} (h : runSteps m s = .next t) :
    runSteps (m + n) s = runSteps n t := by
  induction m generalizing s with
  | zero => cases h; simp
  | succ m ih =>
    rw [runSteps] at h
    split at h
    · rename_i u hu
      rw [Nat.succ_add, runSteps_succ hu]; exact ih h
    · cases h
    · cases h

end Sys2Proof.Machine
end

