-- ==== Sys2Proof/Laws/BlockSteps.lean ====
section
/-! SUPPORT. All that a block step can do, one case for each row of the phase table 45_commands.md R185 and
each form of the stream, said once: every invariant is proved from these cases. -/

namespace Sys2Proof.Machine

/-! ## Each step by its condition -/

theorem blockStep_idle {s : State} (h : s.phase = .idle) : blockStep s = .next s := by simp [blockStep, h]

theorem blockStep_count {s : State} (h : s.phase = .count) : blockStep s = countStep s := by simp [blockStep, h]

theorem blockStep_select {s : State} (h : s.phase = .select) : blockStep s = selectStep s := by
  simp [blockStep, h]

theorem blockStep_enc {s : State} (h : s.phase = .enc) : blockStep s = encStep s := by simp [blockStep, h]

theorem countStep_chunk {s : State} (h : s.pos.toNat < s.chunkCount) (hb : 4 * s.pos.toNat + 4 ≤ Config.ibufBytes) :
    countStep s = .next (s.countOne (s.chunkAt s.pos.toNat)) := by
  rw [countStep, if_pos h, withChunk_inside hb]

theorem countStep_exit {s : State} (h : s.pos.toNat = s.chunkCount) : countStep s = .next (s.enter .select) := by
  rw [countStep, if_neg (by omega), if_pos h]

theorem selectStep_analyze {s : State} (h : s.cmd = .analyze) :
    selectStep s = .next s.selectAndBuild.finish := by rw [selectStep, h]

theorem selectStep_compress {s : State} (h : s.cmd = .compress) :
    selectStep s = .next (s.selectAndBuild.rewind.enter .enc) := by rw [selectStep, h]

theorem encStep_chunk {s : State} (h : s.pos.toNat < s.chunkCount) (hb : 4 * s.pos.toNat + 4 ≤ Config.ibufBytes) :
    encStep s = encodeChunk (s.chunkAt s.pos.toNat) s := by
  rw [encStep, if_pos h, withChunk_inside hb]

theorem encStep_exit {s : State} (h : s.pos.toNat = s.chunkCount) : encStep s = .next s.encEnd := by
  rw [encStep, if_neg (by omega), if_pos h]

theorem encodeChunk_hit {c : Chunk} {code : BitVec 16} {s : State} (hk : lookupChunk s.dict c = some code)
    (h : s.opos.toNat + 2 ≤ Config.obufBytes) :
    encodeChunk c s = .next ((s.writeObuf s.opos.toNat (unitBytes code)).advance 1 2) := by
  rw [encodeChunk, hk]; exact memWrite_inside h

theorem encodeChunk_miss {c : Chunk} {s : State} (hk : lookupChunk s.dict c = none)
    (h : s.opos.toNat + 4 ≤ Config.obufBytes) :
    encodeChunk c s = .next (((s.writeObuf s.opos.toNat (chunkBytes c)).setMiss c).advance 1 4) := by
  rw [encodeChunk, hk]; exact memWrite_inside h

theorem emitChunk_inside {ch : Chunk} {dpos : BitVec 32} {s : State} (h : s.opos.toNat + 4 ≤ Config.obufBytes) :
    emitChunk ch dpos s = .next ((s.writeObuf s.opos.toNat (chunkBytes ch)).advance dpos 4) :=
  memWrite_inside h

theorem exec_code_known {key : StreamUnit} {ch : Chunk} {s : State} (hk : lookupCode s.dict key = some ch) :
    exec (.code key) s = emitChunk ch 2 s := by
  show execCode key s = _
  rw [execCode, hk]

theorem exec_code_unknown {key : StreamUnit} {s : State} (hk : lookupCode s.dict key = none) :
    exec (.code key) s = .next (s.unknownUnit key) := by
  show execCode key s = _
  rw [execCode, hk]

theorem exec_unknownCode (key : StreamUnit) (s : State) :
    exec (.unknownCode key) s = .next (s.unknownUnit key) := rfl

theorem exec_verbatim (c : Chunk) (s : State) : exec (.verbatim c) s = emitChunk c 4 s := rfl

theorem exec_tailHalf (u0 : StreamUnit) (extra : Option Byte) (s : State) :
    exec (.tailHalf u0 extra) s = .next (s.setTail.truncate s.opos) := rfl

theorem exec_tailByte (b : Byte) (s : State) : exec (.tailByte b) s = .next (s.setTail.truncate s.opos) := rfl

theorem exec_endOfStream (s : State) : exec .endOfStream s = .next (s.truncate s.opos) := rfl

/-! ## All that a step can do -/

/-- The step one chunk's encoding takes: a hit or a miss (R140, R141). -/
theorem encodeChunk_cases {c : Chunk} {s t : State} (h : encodeChunk c s = .next t) :
    (∃ code, lookupChunk s.dict c = some code ∧ s.opos.toNat + 2 ≤ Config.obufBytes ∧
      t = (s.writeObuf s.opos.toNat (unitBytes code)).advance 1 2) ∨
    (lookupChunk s.dict c = none ∧ s.opos.toNat + 4 ≤ Config.obufBytes ∧
      t = ((s.writeObuf s.opos.toNat (chunkBytes c)).setMiss c).advance 1 4) := by
  unfold encodeChunk at h
  split at h
  · rename_i code hk
    rcases memWrite_cases h with ⟨hb, hn⟩ | ⟨_, hn⟩
    · cases hn; exact .inl ⟨code, hk, hb, rfl⟩
    · cases hn
  · rename_i hk
    rcases memWrite_cases h with ⟨hb, hn⟩ | ⟨_, hn⟩
    · cases hn; exact .inr ⟨hk, hb, rfl⟩
    · cases hn

/-- One emitted chunk (R152, R154). -/
theorem emitChunk_cases {ch : Chunk} {dpos : BitVec 32} {s t : State} (h : emitChunk ch dpos s = .next t) :
    s.opos.toNat + 4 ≤ Config.obufBytes ∧ t = (s.writeObuf s.opos.toNat (chunkBytes ch)).advance dpos 4 := by
  rcases memWrite_cases h with ⟨hb, hn⟩ | ⟨_, hn⟩
  · cases hn; exact ⟨hb, rfl⟩
  · cases hn

/-- All that a block step outside phase DEC can do (R185). -/
theorem blockStep_cases {s t : State} (h : blockStep s = .next t) :
    (s.phase = .idle ∧ t = s) ∨
    (s.phase = .count ∧ s.pos.toNat < s.chunkCount ∧ 4 * s.pos.toNat + 4 ≤ Config.ibufBytes ∧
      t = s.countOne (s.chunkAt s.pos.toNat)) ∨
    (s.phase = .count ∧ s.pos.toNat = s.chunkCount ∧ t = s.enter .select) ∨
    (s.phase = .select ∧ s.cmd = .analyze ∧ t = s.selectAndBuild.finish) ∨
    (s.phase = .select ∧ s.cmd = .compress ∧ t = s.selectAndBuild.rewind.enter .enc) ∨
    (s.phase = .enc ∧ s.pos.toNat < s.chunkCount ∧ 4 * s.pos.toNat + 4 ≤ Config.ibufBytes ∧
      encodeChunk (s.chunkAt s.pos.toNat) s = .next t) ∨
    (s.phase = .enc ∧ s.pos.toNat = s.chunkCount ∧ t = s.encEnd) := by
  unfold blockStep at h
  split at h <;> rename_i hp
  · cases h; exact .inl ⟨hp, rfl⟩
  · unfold countStep at h
    split at h
    · rename_i hlt
      unfold withChunk at h
      split at h
      · cases h; exact .inr (.inl ⟨hp, hlt, ‹_›, rfl⟩)
      · cases h
    · split at h
      · cases h; exact .inr (.inr (.inl ⟨hp, ‹_›, rfl⟩))
      · cases h
  · unfold selectStep at h
    split at h <;> rename_i hc
    · cases h; exact .inr (.inr (.inr (.inl ⟨hp, hc, rfl⟩)))
    · cases h; exact .inr (.inr (.inr (.inr (.inl ⟨hp, hc, rfl⟩))))
    · cases h
    · cases h
  · unfold encStep at h
    split at h
    · rename_i hlt
      unfold withChunk at h
      split at h
      · exact .inr (.inr (.inr (.inr (.inr (.inl ⟨hp, hlt, ‹_›, h⟩)))))
      · cases h
    · split at h
      · cases h; exact .inr (.inr (.inr (.inr (.inr (.inr ⟨hp, ‹_›, rfl⟩)))))
      · cases h
  · cases h

/-! ## Phase DEC -/

/-- The stream from the position on, by how many bytes are left and the tag (R86, R150). -/
theorem streamWindow_eq (s : State) :
    (s.bytesLeft = 0 ∧ s.streamWindow = []) ∨
    (s.bytesLeft = 1 ∧ s.streamWindow = [s.ibufByte s.pos.toNat]) ∨
    (s.bytesLeft = 2 ∧ s.streamWindow = [s.ibufByte s.pos.toNat, s.ibufByte (s.pos.toNat + 1)]) ∨
    (s.bytesLeft = 3 ∧ s.streamWindow =
      [s.ibufByte s.pos.toNat, s.ibufByte (s.pos.toNat + 1), s.ibufByte (s.pos.toNat + 2)]) ∨
    (4 ≤ s.bytesLeft ∧ s.streamWindow = [s.ibufByte s.pos.toNat, s.ibufByte (s.pos.toNat + 1),
      s.ibufByte (s.pos.toNat + 2), s.ibufByte (s.pos.toNat + 3)]) := by
  unfold State.streamWindow State.ibufSlice
  generalize s.bytesLeft = n
  match n with
  | 0 => exact .inl ⟨rfl, rfl⟩
  | 1 => exact .inr (.inl ⟨rfl, rfl⟩)
  | 2 => exact .inr (.inr (.inl ⟨rfl, rfl⟩))
  | 3 => exact .inr (.inr (.inr (.inl ⟨rfl, rfl⟩)))
  | n + 4 =>
    have : min 4 (n + 4) = 4 := by omega
    exact .inr (.inr (.inr (.inr ⟨by omega, by rw [this]; rfl⟩)))

/-- The form that phase DEC reads (R86, R150). -/
theorem decode_streamWindow (s : State) :
    (s.bytesLeft = 0 ∧ decode s.knows (.stream s.streamWindow) = .endOfStream) ∨
    (s.bytesLeft = 1 ∧ decode s.knows (.stream s.streamWindow) = .tailByte (s.ibufByte s.pos.toNat)) ∨
    (2 ≤ s.bytesLeft ∧ StreamUnit.tagged (s.unitAt s.pos.toNat) = true ∧
      ((∃ ch, lookupCode s.dict (s.unitAt s.pos.toNat) = some ch ∧
          decode s.knows (.stream s.streamWindow) = .code (s.unitAt s.pos.toNat)) ∨
        (lookupCode s.dict (s.unitAt s.pos.toNat) = none ∧
          decode s.knows (.stream s.streamWindow) = .unknownCode (s.unitAt s.pos.toNat)))) ∨
    (2 ≤ s.bytesLeft ∧ s.bytesLeft ≤ 3 ∧ StreamUnit.tagged (s.unitAt s.pos.toNat) = false ∧
      ∃ extra, decode s.knows (.stream s.streamWindow) = .tailHalf (s.unitAt s.pos.toNat) extra) ∨
    (4 ≤ s.bytesLeft ∧ StreamUnit.tagged (s.unitAt s.pos.toNat) = false ∧
      decode s.knows (.stream s.streamWindow) =
        .verbatim (chunkOfUnits (s.unitAt s.pos.toNat) (s.unitAt (s.pos.toNat + 2)))) := by
  have key : ∀ b0 b1 rest, s.ibufByte s.pos.toNat = b0 → s.ibufByte (s.pos.toNat + 1) = b1 →
      unitOfBytes b0 b1 = s.unitAt s.pos.toNat ∧
      (StreamUnit.tagged (s.unitAt s.pos.toNat) = true →
        (∃ ch, lookupCode s.dict (s.unitAt s.pos.toNat) = some ch ∧
          decodeStream s.knows (b0 :: b1 :: rest) = .code (s.unitAt s.pos.toNat)) ∨
        (lookupCode s.dict (s.unitAt s.pos.toNat) = none ∧
          decodeStream s.knows (b0 :: b1 :: rest) = .unknownCode (s.unitAt s.pos.toNat))) := by
    rintro _ _ rest rfl rfl
    refine ⟨rfl, fun ht => ?_⟩
    have hu : unitOfBytes (s.ibufByte s.pos.toNat) (s.ibufByte (s.pos.toNat + 1)) = s.unitAt s.pos.toNat := rfl
    unfold decodeStream
    simp only [hu, ht, if_true, State.knows]
    cases hk : lookupCode s.dict (s.unitAt s.pos.toNat) with
    | some ch => exact .inl ⟨ch, rfl, rfl⟩
    | none => exact .inr ⟨rfl, rfl⟩
  simp only [decode]
  rcases streamWindow_eq s with ⟨hn, hw⟩ | ⟨hn, hw⟩ | ⟨hn, hw⟩ | ⟨hn, hw⟩ | ⟨hn, hw⟩ <;> rw [hw]
  · exact .inl ⟨hn, rfl⟩
  · exact .inr (.inl ⟨hn, rfl⟩)
  all_goals
    obtain ⟨hu, ht⟩ := key _ _ _ rfl rfl
    cases hg : StreamUnit.tagged (s.unitAt s.pos.toNat) with
    | true => exact .inr (.inr (.inl ⟨by omega, rfl, ht hg⟩))
    | false => ?_
  · exact .inr (.inr (.inr (.inl ⟨by omega, by omega, rfl, none, by simp [decodeStream, hu, hg]⟩)))
  · exact .inr (.inr (.inr (.inl ⟨by omega, by omega, rfl, some _, by simp only [decodeStream, hu, hg]; rfl⟩)))
  · exact .inr (.inr (.inr (.inr ⟨hn, rfl, by simp only [decodeStream, hu, hg]; rfl⟩)))

/-- All that a step of phase DEC can do: the forms of R152 to R157. -/
theorem decStep_cases {s t : State} (hb : s.BlockTurn) (hp : s.phase = .dec) (h : step s = .next t) :
    s.pos.toNat ≤ s.inLen.toNat ∧ s.pos.toNat + min 4 s.bytesLeft ≤ Config.ibufBytes ∧
    ((s.bytesLeft = 0 ∧ t = s.popTurn.truncate s.opos) ∨
      (s.bytesLeft = 1 ∧ t = s.popTurn.setTail.truncate s.opos) ∨
      (2 ≤ s.bytesLeft ∧ StreamUnit.tagged (s.unitAt s.pos.toNat) = true ∧
        ∃ ch, lookupCode s.dict (s.unitAt s.pos.toNat) = some ch ∧ s.opos.toNat + 4 ≤ Config.obufBytes ∧
          t = (s.popTurn.writeObuf s.opos.toNat (chunkBytes ch)).advance 2 4) ∨
      (2 ≤ s.bytesLeft ∧ StreamUnit.tagged (s.unitAt s.pos.toNat) = true ∧
        lookupCode s.dict (s.unitAt s.pos.toNat) = none ∧ t = s.popTurn.unknownUnit (s.unitAt s.pos.toNat)) ∨
      (2 ≤ s.bytesLeft ∧ s.bytesLeft ≤ 3 ∧ StreamUnit.tagged (s.unitAt s.pos.toNat) = false ∧
        t = s.popTurn.setTail.truncate s.opos) ∨
      (4 ≤ s.bytesLeft ∧ StreamUnit.tagged (s.unitAt s.pos.toNat) = false ∧
        s.opos.toNat + 4 ≤ Config.obufBytes ∧
        t = (s.popTurn.writeObuf s.opos.toNat
          (chunkBytes (chunkOfUnits (s.unitAt s.pos.toNat) (s.unitAt (s.pos.toNat + 2))))).advance 4 4)) := by
  rw [step, nextWork_of_blockTurn hb, blockWork, if_pos hp, fetchForm] at h
  by_cases h1 : s.inLen.toNat < s.pos.toNat
  · rw [if_pos h1] at h; cases h
  rw [if_neg h1] at h
  by_cases h2 : Config.ibufBytes < s.pos.toNat + min 4 s.bytesLeft
  · rw [if_pos h2] at h; cases h
  rw [if_neg h2] at h
  dsimp only at h
  refine ⟨by omega, by omega, ?_⟩
  rcases decode_streamWindow s with ⟨hn, hw⟩ | ⟨hn, hw⟩ | ⟨hn, hg, ⟨ch, hk, hw⟩ | ⟨hk, hw⟩⟩ |
    ⟨hn, hn', hg, extra, hw⟩ | ⟨hn, hg, hw⟩ <;> rw [hw] at h
  · cases h; exact .inl ⟨hn, rfl⟩
  · cases h; exact .inr (.inl ⟨hn, rfl⟩)
  · have h' : emitChunk ch 2 s.popTurn = .next t := by
      rw [← h]; show _ = execCode _ _; rw [execCode, State.popTurn_dict, hk]
    obtain ⟨hb, ht⟩ := emitChunk_cases h'
    exact .inr (.inr (.inl ⟨hn, hg, ch, hk, hb, ht⟩))
  · cases h; exact .inr (.inr (.inr (.inl ⟨hn, hg, hk, rfl⟩)))
  · cases h; exact .inr (.inr (.inr (.inr (.inl ⟨hn, hn', hg, rfl⟩))))
  · obtain ⟨hb, ht⟩ := emitChunk_cases (s := s.popTurn) h
    exact .inr (.inr (.inr (.inr (.inr ⟨hn, hg, hb, ht⟩))))

end Sys2Proof.Machine
end

