-- ==== Sys2Proof/Laws/Dictionary.lean ====
section
/-! SUPPORT. What the frequency analyzer's and the dictionary builder's operations answer. -/

namespace Sys2Proof.Machine

/-! ## COUNT -/

/-- The chunks counted after one more: the same list, or the new chunk at its end (R110). -/
theorem countChunk_chunks (c : Chunk) (l : List FreqEntry) :
    (countChunk c l).map (·.chunk) = if c ∈ l.map (·.chunk) then l.map (·.chunk) else l.map (·.chunk) ++ [c] := by
  induction l with
  | nil => rfl
  | cons e l ih =>
    rw [countChunk]
    by_cases h : e.chunk = c
    · simp [h]
    · rw [if_neg h, List.map_cons, ih]
      have : ¬ c = e.chunk := fun h' => h h'.symm
      simp only [List.map_cons, List.mem_cons, this, false_or]
      split_ifs <;> simp

/-- Where each entry after one more count comes from (R110). -/
theorem countChunk_mem {c : Chunk} {l : List FreqEntry} (hn : (l.map (·.chunk)).Nodup) {e : FreqEntry}
    (he : e ∈ countChunk c l) :
    (e.chunk ≠ c ∧ e ∈ l) ∨ (e.chunk = c ∧ e.count = 1 ∧ c ∉ l.map (·.chunk)) ∨
      (∃ e' ∈ l, e'.chunk = c ∧ e = { e' with count := e'.count + 1 }) := by
  induction l with
  | nil => simp [countChunk] at he; subst he; simp
  | cons x l ih =>
    rw [countChunk] at he
    rw [List.map_cons, List.nodup_cons] at hn
    split_ifs at he with hx
    · rcases List.mem_cons.1 he with rfl | he
      · exact .inr (.inr ⟨x, by simp, hx, rfl⟩)
      · refine .inl ⟨?_, by simp [he]⟩
        intro hc
        apply hn.1
        rw [hx, ← hc]
        exact List.mem_map_of_mem he
    · rcases List.mem_cons.1 he with rfl | he
      · exact .inl ⟨hx, by simp⟩
      · rcases ih hn.2 he with ⟨h1, h2⟩ | ⟨h1, h2, h3⟩ | ⟨e', h1, h2⟩
        · exact .inl ⟨h1, by simp [h2]⟩
        · refine .inr (.inl ⟨h1, h2, ?_⟩)
          simp only [List.map_cons, List.mem_cons, not_or]
          exact ⟨fun h => hx h.symm, h3⟩
        · exact .inr (.inr ⟨e', by simp [h1], h2⟩)

/-! ## SELECT and BUILD -/

theorem sortByCount_perm (l : List FreqEntry) : (sortByCount l).Perm l := List.perm_insertionSort _ l

@[simp] theorem sortByCount_length (l : List FreqEntry) : (sortByCount l).length = l.length :=
  (sortByCount_perm l).length_eq

theorem selectTop_length (n : BitVec 8) (l : List FreqEntry) :
    (selectTop n l).length = min n.toNat l.length := by simp [selectTop]

@[simp] theorem buildDict_length (base : BitVec 16) (sel : List FreqEntry) :
    (buildDict base sel).length = min sel.length Config.dictDepth := by simp [buildDict]

/-- The slots that BUILD's dictionary lists (R120). -/
theorem buildDict_getElem? (base : BitVec 16) (sel : List FreqEntry) (j : Nat) :
    (buildDict base sel)[j]? =
      if j < min sel.length Config.dictDepth then some (builtSlot base sel j) else none := by
  unfold buildDict
  split_ifs with h
  · rw [List.getElem?_map, List.getElem?_range h]; rfl
  · exact List.getElem?_eq_none (by simpa using Nat.not_lt.1 h)

theorem builtSlot_selected (base : BitVec 16) {sel : List FreqEntry} {j : Nat} (h : j < sel.length) :
    builtSlot base sel j =
      { valid := true, chunk := sel[j].chunk, code := BitVec.ofNat 16 (base.toNat + j), freq := sel[j].count } := by
  simp [builtSlot, h]

theorem builtSlot_rest (base : BitVec 16) {sel : List FreqEntry} {j : Nat} (h : sel.length ≤ j) :
    builtSlot base sel j = Slot.empty := by
  simp [builtSlot, List.getElem?_eq_none h]

@[simp] theorem builtSlot_valid (base : BitVec 16) (sel : List FreqEntry) (j : Nat) :
    (builtSlot base sel j).valid = decide (j < sel.length) := by
  by_cases h : j < sel.length
  · rw [builtSlot_selected base h]; simp [h]
  · rw [builtSlot_rest base (Nat.not_lt.1 h)]; simp [h, Slot.empty]

/-- CFG_CHECK's three conditions (R121). -/
theorem configOk_iff {base : BitVec 16} {n : BitVec 8} :
    configOk base n = true ↔
      StreamUnit.tagged base = true ∧ n.toNat ≤ Config.dictDepth ∧ base.toNat + n.toNat ≤ 0x10000 := by
  simp [configOk, and_assoc]

/-- A unit's tag is its upper half of the range (R88). -/
theorem tagged_iff_le (u : StreamUnit) : StreamUnit.tagged u = true ↔ 0x8000 ≤ u.toNat := by
  have := BitVec.msb_eq_decide u
  rw [BitVec.msb_eq_getLsbD_last] at this
  unfold StreamUnit.tagged
  simp at this
  simp [this]

/-! ## The table's slots -/

/-- DICT_DEPTH is from TOP_N_RST, 10, to 255 (R9). -/
theorem dictDepth_bounds : 10 ≤ Config.dictDepth ∧ Config.dictDepth ≤ 255 := by
  have := Config.spareSlots.isLt
  have h : Config.dictDepth = Config.spareSlots.val + 10 := rfl
  omega

@[simp] theorem slotOf_nil (j : Nat) : slotOf [] j = Slot.empty := by simp [slotOf]

@[simp] theorem slotOf_cons_zero (d : Slot) (dict : List Slot) : slotOf (d :: dict) 0 = d := rfl

@[simp] theorem slotOf_cons_succ (d : Slot) (dict : List Slot) (j : Nat) :
    slotOf (d :: dict) (j + 1) = slotOf dict j := by simp [slotOf]

theorem slotOf_of_getElem? {dict : List Slot} {j : Nat} {d : Slot} (h : dict[j]? = some d) : slotOf dict j = d := by
  simp [slotOf, h]

/-- A valid slot is a listed one. -/
theorem slotOf_valid_iff {dict : List Slot} {j : Nat} :
    (slotOf dict j).valid = true ↔ dict[j]? = some (slotOf dict j) ∧ (slotOf dict j).valid = true := by
  refine ⟨fun h => ⟨?_, h⟩, And.right⟩
  cases hj : dict[j]? with
  | none => simp [slotOf, hj, Slot.empty] at h
  | some d => rw [slotOf_of_getElem? hj]

/-- Listing a slot or not leaves every slot as it is. -/
theorem slotOf_consSlot (d : Slot) (dict : List Slot) (j : Nat) :
    slotOf (consSlot d dict) j = if j = 0 then d else slotOf dict (j - 1) := by
  unfold consSlot
  split_ifs with h h' h'
  · simp [h.1]
  · simp [h.2]
  · simp [slotOf, h']
  · obtain ⟨k, rfl⟩ := Nat.exists_eq_succ_of_ne_zero h'
    simp [slotOf]

/-- `putSlot` sets one slot and leaves the others. -/
theorem slotOf_putSlot (d : Slot) (dict : List Slot) (j k : Nat) :
    slotOf (putSlot d j dict) k = if k = j then d else slotOf dict k := by
  induction j generalizing dict k with
  | zero => cases dict <;> cases k <;> simp [putSlot, slotOf_consSlot]
  | succ j ih => cases dict <;> cases k <;> simp [putSlot, slotOf_consSlot, ih]

theorem consSlot_length (d : Slot) (dict : List Slot) : (consSlot d dict).length ≤ dict.length + 1 := by
  unfold consSlot; split_ifs <;> simp

theorem putSlot_length (d : Slot) (j : Nat) (dict : List Slot) :
    (putSlot d j dict).length ≤ max dict.length (j + 1) := by
  induction j generalizing dict with
  | zero => cases dict <;> simp only [putSlot] <;> refine (consSlot_length _ _).trans ?_ <;> simp
  | succ j ih =>
    cases dict with
    | nil => have := ih []; refine (consSlot_length _ _).trans ?_; simp at this ⊢; omega
    | cons e dict => have := ih dict; refine (consSlot_length _ _).trans ?_; simp at this ⊢; omega

theorem consSlot_getLast? (d : Slot) {dict : List Slot} (h : dict.getLast? ≠ some Slot.empty) :
    (consSlot d dict).getLast? ≠ some Slot.empty := by
  unfold consSlot
  split_ifs with hd
  · simp
  · cases dict with
    | nil => simpa using hd
    | cons e dict => rwa [List.getLast?_cons_cons]

theorem putSlot_getLast? (d : Slot) (j : Nat) {dict : List Slot} (h : dict.getLast? ≠ some Slot.empty) :
    (putSlot d j dict).getLast? ≠ some Slot.empty := by
  have tail : ∀ {e : Slot} {l : List Slot}, (e :: l).getLast? ≠ some Slot.empty → l.getLast? ≠ some Slot.empty := by
    intro e l he
    cases l with
    | nil => simp
    | cons f l => rwa [List.getLast?_cons_cons] at he
  induction j generalizing dict with
  | zero =>
    cases dict with
    | nil => exact consSlot_getLast? d (by simp)
    | cons e dict => exact consSlot_getLast? d (tail h)
  | succ j ih =>
    cases dict with
    | nil => exact consSlot_getLast? _ (ih (by simp))
    | cons e dict => exact consSlot_getLast? _ (ih (tail h))

/-- Setting a slot the table has keeps its form. -/
theorem putSlot_form {dict : List Slot} (h : DictForm dict) (d : Slot) {j : Nat} (hj : j < Config.dictDepth) :
    DictForm (putSlot d j dict) :=
  ⟨(putSlot_length d j dict).trans (Nat.max_le.2 ⟨h.1, hj⟩), putSlot_getLast? d j h.2⟩

theorem clearedDict_form : DictForm clearedDict := ⟨Nat.zero_le _, by simp [clearedDict]⟩

/-- BUILD's slot at an index of the table (R120). -/
theorem slotOf_buildDict (base : BitVec 16) {sel : List FreqEntry} (h : sel.length ≤ Config.dictDepth) (j : Nat) :
    slotOf (buildDict base sel) j = builtSlot base sel j := by
  rw [slotOf, List.getD_eq_getElem?_getD, buildDict_getElem?, Nat.min_eq_left h]
  split_ifs with hj
  · rfl
  · rw [builtSlot_rest base (Nat.not_lt.1 hj)]; rfl

/-- BUILD's dictionary is in form: it lists valid slots only. -/
theorem buildDict_form (base : BitVec 16) (sel : List FreqEntry) : DictForm (buildDict base sel) := by
  refine ⟨by simp, fun h => ?_⟩
  have hm := List.mem_of_getLast? h
  obtain ⟨j, hj, he⟩ := List.mem_map.1 hm
  have hv := congrArg Slot.valid he
  rw [builtSlot_valid] at hv
  simp only [List.mem_range] at hj
  simp [Slot.empty] at hv
  omega

end Sys2Proof.Machine
end

