-- ==== Sys2Proof/Laws/Invariant.lean ====
section
/-! SUPPORT. The invariant's parts carried from one state to another that agrees with it on what they
read. -/

namespace Sys2Proof.Machine

/-- The phase's conditions read these fields only. -/
theorem State.PhaseInv.of_fields {s t : State} (h : s.PhaseInv) (phase : t.phase = s.phase) (cmd : t.cmd = s.cmd)
    (inLen : t.inLen = s.inLen) (origSize : t.origSize = s.origSize) (padLen : t.padLen = s.padLen)
    (paddedLen : t.paddedLen = s.paddedLen) (codeBase : t.codeBase = s.codeBase) (topN : t.topN = s.topN)
    (dict : t.dict = s.dict) (freq : t.freq = s.freq) (pos : t.pos = s.pos) (opos : t.opos = s.opos)
    (obuf : t.obuf = s.obuf) : t.PhaseInv := by
  have hpad : s.Padded → t.Padded := fun h =>
    ⟨by rw [paddedLen, inLen]; exact h.paddedLen, by rw [padLen, inLen]; exact h.padLen,
      by rw [origSize, inLen]; exact h.origSize⟩
  unfold State.PhaseInv State.chunkCount State.obufWritten at h ⊢
  rw [phase, cmd, inLen, paddedLen, codeBase, topN, dict, freq, pos, opos, obuf]
  split at h
  · trivial
  · exact ⟨h.1, hpad h.2.1, h.2.2⟩
  · exact ⟨h.1, hpad h.2.1, h.2.2⟩
  · exact ⟨h.1, hpad h.2.1, h.2.2⟩
  · exact h

/-- An idle state has the invariant when its memories, its table and its output have it. -/
theorem State.Inv.of_idle {s : State} (phase : s.phase = .idle) (ibufWf : s.ibuf.wf) (obufWf : s.obuf.wf)
    (ibufInside : ∀ c ∈ s.ibuf, c.1 < Config.ibufBytes) (obufInside : ∀ c ∈ s.obuf, c.1 < Config.obufBytes)
    (dictForm : DictForm s.dict) (outWritten : s.obufWritten s.outLen.toNat) : s.Inv where
  ibufWf := ibufWf
  obufWf := obufWf
  ibufInside := ibufInside
  obufInside := obufInside
  dictForm := dictForm
  outWritten := outWritten
  busyLen h := absurd phase h
  busyStatus h := absurd phase h
  busyCaptures h := absurd phase h
  phaseInv := by unfold State.PhaseInv; rw [phase]; trivial

/-- The padded length of a length in range stays in range and is a multiple of 4 (R102). -/
theorem State.Padded.le_ibufBytes {s : State} (h : s.Padded) (hl : s.inLen.toNat ≤ Config.ibufBytes) :
    s.paddedLen.toNat ≤ Config.ibufBytes ∧ s.paddedLen.toNat % 4 = 0 := by
  have h4 : Config.ibufBytes % 4 = 0 := by unfold Config.ibufBytes; omega
  have := h.paddedLen
  unfold padOf at this
  omega

end Sys2Proof.Machine
end

