-- ==== Sys2Proof/Laws/Lengths.lean ====
section
/-! SUPPORT. Lengths and positions as numbers: the parameters' bounds, PAD's results, a position moved on
without wrapping, and OBUF grown by one write. -/

namespace Sys2Proof.Machine

/-- IBUF_BYTES is a multiple of 4 from 4 to 2^30 (R9). -/
theorem ibufBytes_bounds : 4 ≤ Config.ibufBytes ∧ Config.ibufBytes ≤ 2 ^ 30 ∧ Config.ibufBytes % 4 = 0 := by
  unfold Config.ibufBytes
  have := Config.ibufQuads.isLt
  omega

theorem obufBytes_eq : Config.obufBytes = 2 * Config.ibufBytes := rfl

theorem padOf_lt (n : Nat) : padOf n < 4 := by unfold padOf; omega

theorem padOf_aligns (n : Nat) : (n + padOf n) % 4 = 0 := by unfold padOf; omega

/-- PAD's results are the numbers R100 gives, unwrapped, for a length in range. -/
theorem State.pad_toNat {s : State} (h : s.inLen.toNat ≤ Config.ibufBytes) :
    s.pad.padLen.toNat = padOf s.inLen.toNat ∧ s.pad.paddedLen.toNat = s.inLen.toNat + padOf s.inLen.toNat := by
  have := padOf_lt s.inLen.toNat
  have := ibufBytes_bounds
  simp
  omega

/-- The padded input's chunks cover the padded length (R102). -/
theorem State.inputChunks_length (s : State) :
    4 * s.inputChunks.length = s.inLen.toNat + padOf s.inLen.toNat := by
  have := padOf_aligns s.inLen.toNat
  simp [State.inputChunks]
  omega

/-- A position moved on inside 32 bits does not wrap (R50). -/
theorem toNat_add_of_lt {x d : BitVec 32} (h : x.toNat + d.toNat < 2 ^ 32) : (x + d).toNat = x.toNat + d.toNat := by
  rw [BitVec.toNat_add, Nat.mod_eq_of_lt h]

/-- OBUF up to the end of a write at the output position: what stood below it, then the bytes written. -/
theorem State.obufSlice_writeObuf (s : State) (a : Nat) (bs : List Byte) :
    (s.writeObuf a bs).obufSlice 0 (a + bs.length) = s.obufSlice 0 a ++ bs := by
  unfold State.obufSlice
  rw [← List.range_eq_range', ← List.range_eq_range', List.range_add, List.map_append]
  congr 1
  · apply List.map_congr_left
    intro x hx
    rw [State.obufByte_writeObuf, if_neg (by simp at hx; omega)]
  · rw [List.map_map]
    apply List.ext_getElem
    · simp
    · intro i h1 h2; simp [State.obufByte_writeObuf, h2]

/-- Closing the output keeps every byte below the length, all of them being written. -/
theorem State.obufSlice_closeOutput {s : State} {n : BitVec 32} (h : s.obufWritten n.toNat) :
    (s.closeOutput n).obufSlice 0 n.toNat = s.obufSlice 0 n.toNat := by
  unfold State.obufSlice
  apply List.map_congr_left
  intro x hx
  simp at hx
  exact State.obufByte_closeOutput hx (h x hx)

end Sys2Proof.Machine
end

