-- ==== Sys2Proof/Laws/PerInstr.lean ====
section
/-! SUPPORT. Facts about each instruction as syntax, one lemma for each constructor. -/

namespace Sys2Proof.Laws

/-! ## How long an encoding is -/

/-- A command is one word of CTRL; a stream form is at most four bytes (R80, R89). -/
def EncodedSize.Statement (i : Instr) : Prop :=
  (∃ w, encode i = .ctrl w) ∨ (∃ bs, encode i = .stream bs ∧ bs.length ≤ 4)

theorem EncodedSize.nop (ign : BitVec 28) : EncodedSize.Statement (.nop ign) := .inl ⟨_, rfl⟩
theorem EncodedSize.analyze (ign : BitVec 28) : EncodedSize.Statement (.analyze ign) := .inl ⟨_, rfl⟩
theorem EncodedSize.encode (ign : BitVec 28) : EncodedSize.Statement (.encode ign) := .inl ⟨_, rfl⟩
theorem EncodedSize.compress (ign : BitVec 28) : EncodedSize.Statement (.compress ign) := .inl ⟨_, rfl⟩
theorem EncodedSize.decode (ign : BitVec 28) : EncodedSize.Statement (.decode ign) := .inl ⟨_, rfl⟩
theorem EncodedSize.dictClear (ign : BitVec 28) : EncodedSize.Statement (.dictClear ign) := .inl ⟨_, rfl⟩
theorem EncodedSize.reservedCmd67 (ign : BitVec 28) (low : BitVec 1) :
    EncodedSize.Statement (.reservedCmd67 ign low) := .inl ⟨_, rfl⟩
theorem EncodedSize.reservedCmd8F (ign : BitVec 28) (low : BitVec 3) :
    EncodedSize.Statement (.reservedCmd8F ign low) := .inl ⟨_, rfl⟩
theorem EncodedSize.code (key : StreamUnit) : EncodedSize.Statement (.code key) :=
  .inr ⟨_, rfl, by simp⟩
theorem EncodedSize.unknownCode (key : StreamUnit) : EncodedSize.Statement (.unknownCode key) :=
  .inr ⟨_, rfl, by simp⟩
theorem EncodedSize.verbatim (chunk : Chunk) : EncodedSize.Statement (.verbatim chunk) :=
  .inr ⟨_, rfl, Nat.le_refl 4⟩
theorem EncodedSize.tailHalf (u0 : StreamUnit) (extra : Option Byte) :
    EncodedSize.Statement (.tailHalf u0 extra) := by
  refine .inr ⟨_, rfl, ?_⟩
  cases extra <;> simp [unitBytes]
theorem EncodedSize.tailByte (b : Byte) : EncodedSize.Statement (.tailByte b) := .inr ⟨_, rfl, by simp⟩
theorem EncodedSize.endOfStream : EncodedSize.Statement .endOfStream := .inr ⟨_, rfl, by simp⟩

/-! ## The tag -/

/-- The first byte of a well-formed form of two bytes or more has bit 7 set exactly when the form is a code
unit (R82 to R84). -/
def TagBit.Statement (i : Instr) : Prop :=
  i.wellFormed = true → ∀ b0 b1 rest, encode i = .stream (b0 :: b1 :: rest) →
    (b0.getLsbD 7 = true ↔ ∃ key, i = .code key ∨ i = .unknownCode key)

/-- A command word is no stream form. -/
theorem TagBit.of_ctrl {i : Instr} (h : ∃ w, Sys2Proof.encode i = .ctrl w) : TagBit.Statement i := by
  intro _ b0 b1 rest he
  obtain ⟨w, hw⟩ := h
  rw [hw] at he; cases he

/-- Bit 7 of a unit's first byte is the unit's tag. -/
theorem TagBit.first_byte (u : StreamUnit) : (u.extractLsb' 8 8).getLsbD 7 = StreamUnit.tagged u := by
  rw [BitVec.getLsbD_extractLsb', StreamUnit.tagged]; rfl

theorem TagBit.nop (ign : BitVec 28) : TagBit.Statement (.nop ign) := TagBit.of_ctrl ⟨_, rfl⟩
theorem TagBit.analyze (ign : BitVec 28) : TagBit.Statement (.analyze ign) := TagBit.of_ctrl ⟨_, rfl⟩
theorem TagBit.encode (ign : BitVec 28) : TagBit.Statement (.encode ign) := TagBit.of_ctrl ⟨_, rfl⟩
theorem TagBit.compress (ign : BitVec 28) : TagBit.Statement (.compress ign) := TagBit.of_ctrl ⟨_, rfl⟩
theorem TagBit.decode (ign : BitVec 28) : TagBit.Statement (.decode ign) := TagBit.of_ctrl ⟨_, rfl⟩
theorem TagBit.dictClear (ign : BitVec 28) : TagBit.Statement (.dictClear ign) := TagBit.of_ctrl ⟨_, rfl⟩
theorem TagBit.reservedCmd67 (ign : BitVec 28) (low : BitVec 1) :
    TagBit.Statement (.reservedCmd67 ign low) := TagBit.of_ctrl ⟨_, rfl⟩
theorem TagBit.reservedCmd8F (ign : BitVec 28) (low : BitVec 3) :
    TagBit.Statement (.reservedCmd8F ign low) := TagBit.of_ctrl ⟨_, rfl⟩
theorem TagBit.code (key : StreamUnit) : TagBit.Statement (.code key) := by
  intro hw b0 b1 rest he
  cases he
  rw [TagBit.first_byte]
  exact ⟨fun _ => ⟨key, .inl rfl⟩, fun _ => hw⟩
theorem TagBit.unknownCode (key : StreamUnit) : TagBit.Statement (.unknownCode key) := by
  intro hw b0 b1 rest he
  cases he
  rw [TagBit.first_byte]
  exact ⟨fun _ => ⟨key, .inr rfl⟩, fun _ => hw⟩
theorem TagBit.verbatim (chunk : Chunk) : TagBit.Statement (.verbatim chunk) := by
  intro hw b0 b1 rest he
  cases he
  simp only [Instr.wellFormed, Bool.not_eq_true'] at hw
  have hb : (chunk.extractLsb' 24 8).getLsbD 7 = false := by rw [BitVec.getLsbD_extractLsb']; exact hw
  rw [hb]
  simp
theorem TagBit.tailHalf (u0 : StreamUnit) (extra : Option Byte) : TagBit.Statement (.tailHalf u0 extra) := by
  intro hw b0 b1 rest he
  cases he
  simp only [Instr.wellFormed, Bool.not_eq_true'] at hw
  rw [TagBit.first_byte, hw]
  simp
theorem TagBit.tailByte (b : Byte) : TagBit.Statement (.tailByte b) := by
  intro _ b0 b1 rest he
  cases he
theorem TagBit.endOfStream : TagBit.Statement .endOfStream := by
  intro _ b0 b1 rest he
  cases he

end Sys2Proof.Laws
end

