-- ==== Sys2Proof/Laws/Registers.lean ====
section
/-! SUPPORT. The register map (R22) and each host transaction's effect, said once. -/

namespace Sys2Proof.Machine

/-! ## The map -/

/-- A slot's window starts at 0x100 + 0x10*j (R45). -/
theorem regAt_window {j r : Nat} (hj : j < Config.dictDepth) (hr : r < 0x10) :
    regAt (0x100 + 0x10 * j + r) = windowRegAt j r := by
  have h1 : (0x100 + 0x10 * j + r - 0x100) / 0x10 = j := by omega
  have h2 : (0x100 + 0x10 * j + r - 0x100) % 0x10 = r := by omega
  rw [regAt, if_pos (by omega), h1, h2, if_pos hj]

theorem regAt_dictChunk {j : Nat} (hj : j < Config.dictDepth) : regAt (0x100 + 0x10 * j) = .dictChunk j :=
  regAt_window (r := 0) hj (by omega)

theorem regAt_dictCode {j : Nat} (hj : j < Config.dictDepth) : regAt (0x104 + 0x10 * j) = .dictCode j := by
  rw [show 0x104 + 0x10 * j = 0x100 + 0x10 * j + 4 by omega]; exact regAt_window hj (by omega)

theorem regAt_dictFreq {j : Nat} (hj : j < Config.dictDepth) : regAt (0x108 + 0x10 * j) = .dictFreq j := by
  rw [show 0x108 + 0x10 * j = 0x100 + 0x10 * j + 8 by omega]; exact regAt_window hj (by omega)

/-- A fixed register's offset is a multiple of 4 below 0x040. -/
theorem fixedRegs_offset : ∀ p ∈ fixedRegs, p.1 % 4 = 0 ∧ p.1 < 0x040 := by decide

/-- The whole map, read backwards: which offsets reach which register. -/
theorem regAt_cases (off : Nat) :
    (off < 0x100 ∧ (off, regAt off) ∈ fixedRegs) ∨
    (∃ j, j < Config.dictDepth ∧
      ((off = 0x100 + 0x10 * j ∧ regAt off = .dictChunk j) ∨ (off = 0x104 + 0x10 * j ∧ regAt off = .dictCode j) ∨
        (off = 0x108 + 0x10 * j ∧ regAt off = .dictFreq j))) ∨
    regAt off = .reserved := by
  unfold regAt
  split_ifs with h1 h2
  · unfold windowRegAt
    have hj : (off - 0x100) / 0x10 < Config.dictDepth := h2
    split_ifs with h3 h4 h5
    · exact .inr (.inl ⟨_, hj, .inl ⟨by omega, rfl⟩⟩)
    · exact .inr (.inl ⟨_, hj, .inr (.inl ⟨by omega, rfl⟩)⟩)
    · exact .inr (.inl ⟨_, hj, .inr (.inr ⟨by omega, rfl⟩)⟩)
    · exact .inr (.inr rfl)
  · exact .inr (.inr rfl)
  · cases hl : fixedRegs.lookup off with
    | none => exact .inr (.inr rfl)
    | some r =>
      refine .inl ⟨by omega, ?_⟩
      obtain ⟨l1, l2, h, _⟩ := List.lookup_eq_some_iff.1 hl
      rw [h]; simp

/-- Only offset 0 is CTRL. -/
theorem regAt_eq_ctrl {off : Nat} : regAt off = .ctrl ↔ off = 0x000 := by
  constructor
  · intro h
    rcases regAt_cases off with ⟨_, hm⟩ | ⟨j, _, ⟨_, hr⟩ | ⟨_, hr⟩ | ⟨_, hr⟩⟩ | hr
    · rw [h] at hm; simpa [fixedRegs] using hm
    all_goals rw [h] at hr; cases hr
  · rintro rfl; rfl

/-! ## The transactions -/

theorem hostRegRead_idle {s : State} (off : Nat) (h : s.phase = .idle) :
    hostRegRead off s = s.reply (.reg off (s.readReg (regAt off))) := by
  simp [hostRegRead, State.busy_eq_false.2 h]

theorem hostRegRead_busy_free {s : State} {off : Nat} (h : s.phase ≠ .idle)
    (hr : (regAt off).unspecifiedWhileBusy = true) :
    hostRegRead off s = (s.reply (.reg off s.freeValue)).nextDraw := by
  simp [hostRegRead, State.busy_eq_true.2 h, hr]

theorem hostRegRead_busy_status {s : State} {off : Nat} (h : s.phase ≠ .idle) (hr : regAt off = .status) :
    hostRegRead off s = (s.reply (.reg off (s.statusWord (s.freeValue.getLsbD 0)))).nextDraw := by
  simp [hostRegRead, State.busy_eq_true.2 h, hr, Reg.unspecifiedWhileBusy]

theorem hostRegRead_busy_exact {s : State} {off : Nat} (hr : (regAt off).unspecifiedWhileBusy = false)
    (hs : regAt off ≠ .status) : hostRegRead off s = s.reply (.reg off (s.readReg (regAt off))) := by
  simp [hostRegRead, hr, hs]

theorem hostRegWrite_idle {s : State} (off : Nat) (v : Word) (h : s.phase = .idle) :
    hostRegWrite off v s = s.writeReg v (regAt off) := by
  simp [hostRegWrite, State.busy_eq_false.2 h]

theorem hostRegWrite_busy {s : State} (off : Nat) (v : Word) (h : s.phase ≠ .idle) :
    hostRegWrite off v s = s.dropWrite := by
  simp [hostRegWrite, State.busy_eq_true.2 h]

theorem hostIbufWrite_idle {s : State} {a : Nat} (b : Byte) (h : s.phase = .idle) (ha : a < Config.ibufBytes) :
    hostIbufWrite a b s = s.writeIbuf a b := by
  simp [hostIbufWrite, State.busy_eq_false.2 h, ha]

theorem hostIbufWrite_outside {s : State} {a : Nat} (b : Byte) (h : s.phase = .idle) (ha : Config.ibufBytes ≤ a) :
    hostIbufWrite a b s = s := by
  simp [hostIbufWrite, State.busy_eq_false.2 h, Nat.not_lt.2 ha]

theorem hostIbufWrite_busy {s : State} (a : Nat) (b : Byte) (h : s.phase ≠ .idle) :
    hostIbufWrite a b s = s.dropWrite := by
  simp [hostIbufWrite, State.busy_eq_true.2 h]

theorem hostObufRead_idle {s : State} (a : Nat) (h : s.phase = .idle) :
    hostObufRead a s = s.reply (.obuf a (if a < Config.obufBytes then s.obufByte a else 0)) := by
  simp [hostObufRead, State.busy_eq_false.2 h]

theorem hostObufRead_busy {s : State} (a : Nat) (h : s.phase ≠ .idle) :
    hostObufRead a s = (s.reply (.obuf a (s.freeValue.extractLsb' 0 8))).nextDraw := by
  simp [hostObufRead, State.busy_eq_true.2 h]

/-- The state once a host turn is taken off, its fields written out. -/
theorem State.popTurn_eq {s : State} {u : Turn} {ts : List Turn} (h : s.turns = u :: ts) :
    s.popTurn = { s with turns := ts } := by simp [State.popTurn, h]

end Sys2Proof.Machine
end

