-- ==== Sys2Proof/Tests/Slice0.lean ====
section
/-! SUPPORT. The model's own tests. Expected results come from spec/95_test_vectors.md and from the
encodings of spec/30_encoding.md, by hand; where a vector needs more than IBUF_BYTES = 4, the smallest
capacity R9 allows, its one step is taken alone. -/

namespace Sys2Proof.Tests
open Sys2Proof.Machine

/-! ## States to test on -/

/-- A slot loaded by the host: valid, with FREQ 0. -/
def loaded (chunk : Chunk) (code : BitVec 16) : Slot := { valid := true, chunk := chunk, code := code, freq := 0 }

/-- The dictionary of 95_test_vectors.md section 6: slot 0 holds aaaaaaaa under 8001. -/
def dictAA : List Slot := [loaded 0xaaaaaaaa 0x8001]

/-- The state after reset, with these turns to come. -/
def after (ts : List Turn) : State := { State.reset with turns := ts }

/-- The block in phase DEC on a stream of at most four bytes in IBUF, slot 0 holding aaaaaaaa under 8001. -/
def decoding (bs : List Byte) : State :=
  { State.reset with
    phase := .dec, cmd := .decode, dict := dictAA, ibuf := Memory.writeBytes [] 0 bs,
    inLen := BitVec.ofNat 32 bs.length }

/-- The state one step leaves. -/
def stepped (s : State) : Option State := nextOf (step s)

/-- STATUS and OUT_LEN after one step. -/
def outcome (s : State) : Option (Word × BitVec 32) :=
  (stepped s).map (fun t => (t.readReg .status, t.outLen))

/-! ## WellFormed: every check refuses an ill-formed term -/

theorem test_wellFormed_refuses_untagged_code : (Instr.code 0x7FFF).wellFormed = false := by decide
theorem test_wellFormed_refuses_untagged_unknownCode : (Instr.unknownCode 0x0001).wellFormed = false := by decide
theorem test_wellFormed_refuses_tagged_verbatim : (Instr.verbatim 0x80000000).wellFormed = false := by decide
theorem test_wellFormed_refuses_tagged_tailHalf : (Instr.tailHalf 0x8000 none).wellFormed = false := by decide
theorem test_wellFormed_accepts_second_unit_tag : (Instr.verbatim 0x12348001).wellFormed = true := by decide

/-! ## Decoding: every constructor's word, written out from R80 and R89 -/

theorem test_decode_nop : decodeCtrl 0xFFFFFFF0 = .nop 0xFFFFFFF := by decide
theorem test_decode_analyze : decodeCtrl 0x00000001 = .analyze 0 := by decide
theorem test_decode_encode : decodeCtrl 0xABCDEF02 = .encode 0xABCDEF0 := by decide
theorem test_decode_compress : decodeCtrl 0x00000013 = .compress 1 := by decide
theorem test_decode_decode : decodeCtrl 0x00000004 = .decode 0 := by decide
theorem test_decode_dictClear : decodeCtrl 0x80000005 = .dictClear 0x8000000 := by decide
theorem test_decode_reservedCmd67 : decodeCtrl 0x00000006 = .reservedCmd67 0 0 ∧
    decodeCtrl 0x00000017 = .reservedCmd67 1 1 := by decide
theorem test_decode_reservedCmd8F : decodeCtrl 0x00000008 = .reservedCmd8F 0 0 ∧
    decodeCtrl 0x0000000E = .reservedCmd8F 0 6 ∧ decodeCtrl 0x0000000F = .reservedCmd8F 0 7 := by decide
theorem test_decode_code : decodeStream (fun k => k == 0x8001) [0x80, 0x01, 0x80, 0x02] = .code 0x8001 := by decide
theorem test_decode_unknownCode : decodeStream (fun k => k == 0x8001) [0x80, 0x02, 0x80] = .unknownCode 0x8002 := by
  decide
theorem test_decode_verbatim : decodeStream (fun _ => true) [0x12, 0x34, 0x80, 0x01, 0x99] = .verbatim 0x12348001 := by
  decide
theorem test_decode_tailHalf : decodeStream (fun _ => true) [0x12, 0x34] = .tailHalf 0x1234 none ∧
    decodeStream (fun _ => true) [0x12, 0x34, 0x56] = .tailHalf 0x1234 (some 0x56) := by decide
theorem test_decode_tailByte : decodeStream (fun _ => true) [0x80] = .tailByte 0x80 := by decide
theorem test_decode_endOfStream : decodeStream (fun _ => true) [] = .endOfStream := by decide

/-! ## The host's interface: a table row's word read, and run as the first step after reset -/

/-- The word reads as this instruction, and is what the step after reset works on. -/
def runsFirst (nbits w : Nat) (i : Instr) : Bool :=
  decide (decodeTableWord nbits w = some i) && decide (nextWork (State.reset.withFetchWord nbits w) = .instr i)

theorem test_tableWord_commands :
    runsFirst 32 0x0 (.nop 0) ∧ runsFirst 32 0x1 (.analyze 0) ∧ runsFirst 32 0x2 (.encode 0) ∧
    runsFirst 32 0x3 (.compress 0) ∧ runsFirst 32 0x4 (.decode 0) ∧ runsFirst 32 0x5 (.dictClear 0) ∧
    runsFirst 32 0x6 (.reservedCmd67 0 0) ∧ runsFirst 32 0x8 (.reservedCmd8F 0 0) := by decide
theorem test_tableWord_forms :
    runsFirst 16 0x8000 (.code 0x8000) ∧ runsFirst 16 0x1234 (.tailHalf 0x1234 none) ∧
    runsFirst 8 0x80 (.tailByte 0x80) ∧ runsFirst 0 0 .endOfStream := by decide
theorem test_tableWord_rejects :
    decodeTableRow 24 0 = .error (.noRowOfWidth 24) ∧ decodeTableRow 16 0x10000 = .error .bitsAboveRow :=
  ⟨rfl, rfl⟩

/-! ## Commands, one CTRL write each -/

/-- V-CMD-1. -/
theorem test_nop_clears :
    (stepped { after [cmdTurn 0] with
      status := { Status.clear with done := true, err := .unknownCode }, errPos := 4, errVal := 0x9000,
      outLen := 8 }).map (fun t => (t.readReg .status, t.errPos, t.errVal, t.outLen)) =
    some (0x00000002, 0, 0, 8) := by decide
/-- V-PAD-1, IN_LEN = 1. -/
theorem test_analyze_pads :
    (stepped { after [cmdTurn 1] with inLen := 1, origSize := 99 }).map
      (fun t => (t.padLen, t.paddedLen, t.origSize, t.phase)) = some (3, 4, 1, .count) := by decide
/-- V-DICT-1, CODE_BASE = 0x7FFF; V-CMD-6. -/
theorem test_analyze_refused :
    (stepped { after [cmdTurn 1] with codeBase := 0x7FFF, topN := 1, inLen := 1, origSize := 16 }).map
      (fun t => (t.readReg .status, t.padLen, t.origSize)) = some (0x00000402, 0, 16) := by decide
/-- V-ENC-5, with IN_LEN = 3. -/
theorem test_encode_pads :
    (stepped { after [cmdTurn 2] with inLen := 3, origSize := 99 }).map
      (fun t => (t.padLen, t.paddedLen, t.origSize, t.phase)) = some (1, 4, 3, .enc) := by decide
/-- V-CMD-5: a duplicate code, and CODE_BASE = 0x7FFF that ENCODE does not check. -/
theorem test_encode_refused :
    (outcome { after [cmdTurn 2] with
      codeBase := 0x7FFF, dict := [loaded 0x01020304 0x8001, loaded 0x05060708 0x8001] }) = some (0x00000502, 0) := by decide
/-- V-CMD-2. -/
theorem test_compress_ignores_high_bits :
    (stepped { after [ctrlTurn 0x00000013] with inLen := 4 }).map (fun t => (t.cmd, t.phase, t.paddedLen)) =
      some (.compress, .count, 4) := by decide
/-- V-DEC-4, V-DEC-5: an illegal configuration is not looked at, and PAD's registers stay. -/
theorem test_decode_accepted :
    (stepped { after [cmdTurn 4] with
      codeBase := 0x7FFF, topN := 200, padLen := 2, paddedLen := 12, origSize := 10, dict := dictAA,
      inLen := 2 }).map
      (fun t => (t.phase, t.padLen, t.paddedLen, t.origSize)) = some (.dec, 2, 12, 10) := by decide
/-- V-DICT-7. -/
theorem test_dictClear :
    (stepped { after [cmdTurn 5] with dict := dictAA, distinct := 1, outLen := 8 }).map
      (fun t => (t.readReg .status, t.readReg .dictCount, t.distinct, t.outLen)) =
    some (0x00000002, 0, 1, 8) := by decide
/-- V-CMD-3 and V-CMD-5. -/
theorem test_reservedCmd67 : outcome { after [cmdTurn 7] with inLen := 0xFFFFFFFF } = some (0x00000202, 0) := by decide
/-- V-CMD-3. -/
theorem test_reservedCmd8F : outcome (after [cmdTurn 0xF]) = some (0x00000202, 0) := by decide
/-- R176: a command word written while BUSY is dropped. -/
theorem test_command_while_busy :
    (stepped { decoding [0x80, 0x01] with turns := [cmdTurn 5] }).map
      (fun t => (t.readReg .status, t.dict, t.phase)) = some (0x00000011, dictAA, .dec) := by decide

/-! ## Stream forms, one step of phase DEC each -/

/-- V-SRC-3's first step, on its first four bytes. -/
theorem test_code : (stepped (decoding [0x80, 0x01, 0x80, 0x02])).map (fun t => (t.pos, t.opos, t.obuf, t.phase)) =
    some (2, 4, [(0, 0xAA), (1, 0xAA), (2, 0xAA), (3, 0xAA)], .dec) := by decide
/-- V-SRC-3's second step, on its first four bytes. -/
theorem test_unknownCode :
    (stepped { decoding [0x80, 0x01, 0x80, 0x02] with pos := 2, opos := 4 }).map
      (fun t => (t.readReg .status, t.errPos, t.errVal, t.outLen)) = some (0x00000102, 2, 0x8002, 4) := by decide
/-- V-DEC-1, stream `12 34 80 01`. -/
theorem test_verbatim : (stepped (decoding [0x12, 0x34, 0x80, 0x01])).map (fun t => (t.pos, t.opos, t.obuf)) =
    some (4, 4, [(0, 0x12), (1, 0x34), (2, 0x80), (3, 0x01)]) := by decide
/-- V-SRC-10's second step. -/
theorem test_tailHalf : outcome { decoding [0x80, 0x01, 0x12, 0x34] with pos := 2, opos := 4 } =
    some (0x00000006, 4) := by decide
/-- V-DEC-1, stream `12 34 56`. -/
theorem test_tailHalf_extra_byte : outcome (decoding [0x12, 0x34, 0x56]) = some (0x00000006, 0) := by decide
/-- V-DEC-1, stream `80` with ORIG_SIZE 5. -/
theorem test_tailByte_short : outcome { decoding [0x80] with origSize := 5 } = some (0x00000026, 0) := by decide
/-- V-DEC-1, the empty stream with ORIG_SIZE 5. -/
theorem test_end_short : outcome { decoding [] with origSize := 5 } = some (0x00000022, 0) := by decide
/-- V-DEC-1, `80 01` four times with ORIG_SIZE 6: the last step. -/
theorem test_end_truncates : outcome { decoding [] with opos := 16, origSize := 6 } = some (0x00000002, 6) := by decide

/-! ## The block's other steps -/

/-- V-FREQ-2: Y X X Z counted, then ordered. -/
theorem test_count_and_select :
    freqOf [2, 1, 1, 3] = [⟨2, 1⟩, ⟨1, 2⟩, ⟨3, 1⟩] ∧ selectTop 2 [⟨2, 1⟩, ⟨1, 2⟩, ⟨3, 1⟩] = [⟨1, 2⟩, ⟨2, 1⟩] := by
  decide
/-- V-FREQ-1: equal counts keep the first-seen order. -/
theorem test_select_ties : selectTop 2 (freqOf [2, 1, 1, 2, 3, 3]) = [⟨2, 2⟩, ⟨1, 2⟩] := by decide
/-- V-SRC-1: the slot built; no slot after it is listed. -/
theorem test_build : buildDict 0x8001 [⟨0xaaaaaaaa, 4⟩] =
    [{ valid := true, chunk := 0xaaaaaaaa, code := 0x8001, freq := 4 }] := by decide
/-- V-PAD-2's last chunk, at index 0: what IBUF holds above IN_LEN is not read. -/
theorem test_chunk_padding :
    ({ State.reset with inLen := 2, ibuf := [(0, 5), (1, 6), (2, 0xEE), (3, 0xEE)] } : State).chunkAt 0 = 0x05060000 := by
  decide
/-- V-ENC-4: the miss, and its HAZ. -/
theorem test_encode_miss :
    (stepped { State.reset with
      phase := .enc, cmd := .encode, inLen := 4, paddedLen := 4,
      ibuf := [(0, 0x80), (1, 0x01), (2, 0x00), (3, 0x00)] }).map (fun t => (t.obuf, t.opos, t.status.haz)) =
    some ([(0, 0x80), (1, 0x01), (2, 0x00), (3, 0x00)], 4, true) := by decide
/-- V-ENC-6: the hit, from slot 0. -/
theorem test_encode_hit :
    (stepped { State.reset with
      phase := .enc, cmd := .encode, inLen := 4, paddedLen := 4, dict := [loaded 0xaaaaaaaa 0xF00D],
      ibuf := [(0, 0xAA), (1, 0xAA), (2, 0xAA), (3, 0xAA)] }).map (fun t => (t.obuf, t.opos, t.pos)) =
    some ([(0, 0xF0), (1, 0x0D)], 2, 1) := by decide
/-- V-DICT-1, but for the rows that depend on the depth. -/
theorem test_configOk :
    configOk 0x8001 10 ∧ ¬ configOk 0x7FFF 1 ∧ ¬ configOk 0x0000 0 ∧
    configOk 0xFFFF 1 ∧ ¬ configOk 0xFFFF 2 ∧ configOk 0xFFF6 10 ∧ ¬ configOk 0xFFF7 10 ∧ configOk 0xFFFF 0 := by
  decide
/-- V-DICT-1, TOP_N against a depth of 16. -/
theorem test_configOk_depth (h : Config.dictDepth = 16) : configOk 0x8000 16 ∧ ¬ configOk 0x8000 17 := by
  simp [configOk, h, StreamUnit.tagged]
/-- V-DICT-2. -/
theorem test_dictWellFormed :
    dictWellFormed [loaded 0xaaaaaaaa 0x8001, loaded 0xcccccccc 0x8003] ∧ ¬ dictWellFormed [loaded 0xaaaaaaaa 0x0001] ∧
    ¬ dictWellFormed [loaded 0xaaaaaaaa 0x8001, loaded 0xbbbbbbbb 0x8001] ∧
    ¬ dictWellFormed [loaded 0xaaaaaaaa 0x8001, loaded 0xaaaaaaaa 0x8002] ∧
    dictWellFormed [loaded 0xaaaaaaaa 0x8001, { loaded 0xaaaaaaaa 0x8001 with valid := false }] := by decide
/-- V-DICT-3. -/
theorem test_lookups :
    lookupChunk [loaded 0x01020304 0x8001, { loaded 0x05060000 0x8002 with valid := false }] 0x01020304 = some 0x8001 ∧
    lookupChunk [loaded 0x01020304 0x8001, { loaded 0x05060000 0x8002 with valid := false }] 0x05060000 = none ∧
    lookupCode [loaded 0x01020304 0x8001, { loaded 0x05060000 0x8002 with valid := false }] 0x8001 = some 0x01020304 ∧
    lookupCode [loaded 0x01020304 0x8001, { loaded 0x05060000 0x8002 with valid := false }] 0x8002 = none := by decide

/-! ## Host transactions -/

/-- V-DICT-5. -/
theorem test_dict_code_format :
    (stepped (after [.host (.regWrite 0x124 0x7FFF1234)])).map (fun t => t.readReg (.dictCode 2)) = some 0x00001234 ∧
    (stepped (after [.host (.regWrite 0x124 0xFFFF8005)])).map (fun t => t.readReg (.dictCode 2)) = some 0x80008005 := by
  decide
/-- The table's form: slot 2 written, and emptied again. -/
theorem test_dict_write_form :
    putSlot (loaded 0x12345678 0x9000) 2 [] = [Slot.empty, Slot.empty, loaded 0x12345678 0x9000] ∧
    putSlot Slot.empty 2 [Slot.empty, Slot.empty, loaded 0x12345678 0x9000] = [] := by decide
/-- V-RST-1: TOP_N and DICT_DEPTH read after reset. -/
theorem test_reset_reads :
    (stepped (after [.host (.regRead 0x00C)])).map (·.replies) = some [.reg 0x00C 0x0000000A] ∧
    (stepped (after [.host (.regRead 0x034)])).map (·.replies) = some [.reg 0x034 (BitVec.ofNat 32 Config.dictDepth)] :=
  ⟨by decide, by rfl⟩
/-- V-RST-2. -/
theorem test_reset_while_busy :
    (stepped { decoding [0x80, 0x01] with turns := [.reset] }).map (fun t => (t.readReg .status, t.outLen, t.readReg .dictCount)) =
      some (0x00000000, 0, 0) := by decide

/-! ## Witnesses: for each statement with hypotheses, a state and operands that meet them -/

/-- The largest length in range, IBUF_BYTES. -/
def fullLength : BitVec 32 := BitVec.ofNat 32 Config.ibufBytes
/-- The smallest length out of range, IBUF_BYTES + 1. -/
def overLength : BitVec 32 := BitVec.ofNat 32 (Config.ibufBytes + 1)

theorem fullLength_toNat : fullLength.toNat = Config.ibufBytes := by
  have := ibufBytes_bounds
  simp [fullLength]; omega
theorem overLength_toNat : overLength.toNat = Config.ibufBytes + 1 := by
  have := ibufBytes_bounds
  simp [overLength]; omega

theorem witness_DecodeOfEncodeIsTheInstruction :
    (Instr.code 0x8000).wellFormed = true ∧ (Instr.unknownCode 0xFFFF).wellFormed = true ∧
    (Instr.verbatim 0x7FFFFFFF).wellFormed = true ∧ (Instr.tailHalf 0x7FFF none).wellFormed = true ∧
    ((fun key : StreamUnit => key == 0x8000) 0x8000 = true ∧ (fun key : StreamUnit => key == 0x8000) 0xFFFF = false) := by
  decide
theorem witness_StreamFormFollowsBytesLeftAndTag :
    ([] : List Byte).length = 0 ∧ ([0x80] : List Byte).length = 1 ∧
    (2 ≤ ([0x80, 0x00] : List Byte).length ∧ ([0x80, 0x00] : List Byte)[0]? = some 0x80 ∧ (0x80 : Byte).getLsbD 7 = true) ∧
    (4 ≤ ([0x7F, 0xFF, 0x80, 0x01] : List Byte).length ∧ (0x7F : Byte).getLsbD 7 = false) ∧
    (2 ≤ ([0x7F, 0xFF] : List Byte).length ∧ ([0x7F, 0xFF] : List Byte).length ≤ 3) ∧
    (2 ≤ ([0x7F, 0xFF, 0x80] : List Byte).length ∧ ([0x7F, 0xFF, 0x80] : List Byte).length ≤ 3) := by decide
theorem witness_CtrlWriteStepRunsTheDecodedCommand :
    (after [ctrlTurn 0xFFFFFFF3]).turns = .host (.regWrite 0x000 0xFFFFFFF3) :: [] ∧
    decode (fun _ => true) (.ctrl 0xFFFFFFF3) = .compress 0xFFFFFFF ∧ (Instr.compress 0xFFFFFFF).wellFormed = true := by
  decide
theorem witness_DecStepRunsTheDecodedForm :
    (decoding [0x80, 0x01]).BlockTurn ∧ (decoding [0x80, 0x01]).phase = .dec ∧
    (decoding [0x80, 0x01]).pos.toNat ≤ (decoding [0x80, 0x01]).inLen.toNat ∧
    (decoding [0x80, 0x01]).inLen.toNat ≤ Config.ibufBytes ∧
    decode (fun key => (lookupCode dictAA key).isSome) (.stream ((decoding [0x80, 0x01]).ibufSlice 0 2)) = .code 0x8001 ∧
    (Instr.code 0x8001).wellFormed = true :=
  ⟨.inl rfl, rfl, by decide, by decide, by decide, by decide⟩
theorem witness_DecStepRunsTheDecodedForm_at_the_end :
    (decoding []).BlockTurn ∧ (decoding []).phase = .dec ∧ (decoding []).pos.toNat ≤ (decoding []).inLen.toNat ∧
    (decoding []).inLen.toNat ≤ Config.ibufBytes ∧
    decode (fun key => (lookupCode dictAA key).isSome) (.stream ((decoding []).ibufSlice 0 0)) = .endOfStream :=
  ⟨.inl rfl, rfl, by decide, by decide, by decide⟩
theorem witness_IdleBlockWithNoTurnWaits : State.reset.turns = [] ∧ State.reset.phase = .idle := by decide
theorem witness_NopClearsStatusAndSetsDone : State.reset.phase = .idle := rfl
theorem witness_DictClearInvalidatesEverySlot : (decoding []).finish.phase = .idle := rfl
theorem witness_ReservedCommandIsRefusedWithBadCmd : (after [cmdTurn 6]).phase = .idle := rfl

/-- An idle state whose length is the largest in range and whose configuration is at its bounds. -/
def atBounds : State :=
  { State.reset with
    inLen := fullLength, codeBase := 0x8000, topN := BitVec.ofNat 8 Config.dictDepth, dict := dictAA }

theorem atBounds_topN : atBounds.topN.toNat = Config.dictDepth := by
  have := dictDepth_bounds
  show (BitVec.ofNat 8 Config.dictDepth).toNat = _
  rw [BitVec.toNat_ofNat]; omega

theorem atBounds_sum : atBounds.codeBase.toNat + atBounds.topN.toNat ≤ 0x10000 := by
  have := dictDepth_bounds
  rw [atBounds_topN]
  show 0x8000 + Config.dictDepth ≤ 0x10000
  omega

theorem atBounds_config : configOk atBounds.codeBase atBounds.topN = true :=
  configOk_iff.2 ⟨by decide, Nat.le_of_eq atBounds_topN, atBounds_sum⟩

theorem atBounds_inLen : atBounds.inLen.toNat ≤ Config.ibufBytes := Nat.le_of_eq fullLength_toNat

theorem witness_AnalyzeAndCompressStartCounting :
    atBounds.phase = .idle ∧ atBounds.inLen.toNat ≤ Config.ibufBytes ∧ 0x8000 ≤ atBounds.codeBase.toNat ∧
    atBounds.topN.toNat ≤ Config.dictDepth ∧ atBounds.codeBase.toNat + atBounds.topN.toNat ≤ 0x10000 :=
  ⟨rfl, atBounds_inLen, by decide, Nat.le_of_eq atBounds_topN, atBounds_sum⟩
theorem witness_EncodeStartsEncoding :
    atBounds.phase = .idle ∧ atBounds.inLen.toNat ≤ Config.ibufBytes ∧ dictWellFormed atBounds.dict = true :=
  ⟨rfl, atBounds_inLen, by decide⟩
theorem witness_DecodeStartsDecoding :
    atBounds.phase = .idle ∧ atBounds.inLen.toNat ≤ Config.ibufBytes ∧ dictWellFormed atBounds.dict = true :=
  witness_EncodeStartsEncoding
theorem witness_FirstFailingCheckRefusesTheCommand_command :
    State.reset.phase = .idle ∧ 6 ≤ (0x00000006#32).toNat % 16 ∧ 6 ≤ (0xFFFFFFFF#32).toNat % 16 ∧
    (0x00000010#32).toNat % 16 = 0 ∧ (0x00000005#32).toNat % 16 = 5 := by decide
theorem witness_FirstFailingCheckRefusesTheCommand_length :
    ({ State.reset with inLen := overLength } : State).phase = .idle ∧
    (1 ≤ (1#32).toNat % 16 ∧ (1#32).toNat % 16 ≤ 4 ∧ 1 ≤ (4#32).toNat % 16 ∧ (4#32).toNat % 16 ≤ 4) ∧
    Config.ibufBytes < ({ State.reset with inLen := overLength } : State).inLen.toNat :=
  ⟨rfl, by decide, by show _ < overLength.toNat; rw [overLength_toNat]; exact Nat.lt_succ_self _⟩
theorem witness_FirstFailingCheckRefusesTheCommand_config :
    atBounds.phase = .idle ∧ atBounds.inLen.toNat ≤ Config.ibufBytes ∧
    configOk atBounds.codeBase atBounds.topN = true ∧ configOk 0x7FFF 0 = false ∧ configOk 0xFFF7 10 = false :=
  ⟨rfl, atBounds_inLen, atBounds_config, by decide, by decide⟩
theorem witness_FirstFailingCheckRefusesTheCommand_dictionary :
    atBounds.phase = .idle ∧ atBounds.inLen.toNat ≤ Config.ibufBytes ∧ dictWellFormed atBounds.dict = true ∧
    dictWellFormed [loaded 1 0x8000, loaded 2 0x8000] = false ∧ dictWellFormed [loaded 1 0x7FFF] = false :=
  ⟨rfl, atBounds_inLen, by decide, by decide, by decide⟩
theorem witness_ConfigCheckIsItsThreeConditions :
    (Instr.compress 7 = .analyze 7 ∨ Instr.compress 7 = .compress 7) ∧ atBounds.phase = .idle ∧
    atBounds.inLen.toNat ≤ Config.ibufBytes :=
  ⟨.inr rfl, rfl, atBounds_inLen⟩
theorem witness_DictionaryCheckIsPairwiseDistinctTaggedCodes :
    (Instr.encode 7 = .encode 7 ∨ Instr.encode 7 = .decode 7) ∧ atBounds.phase = .idle ∧
    atBounds.inLen.toNat ≤ Config.ibufBytes :=
  ⟨.inl rfl, rfl, atBounds_inLen⟩

/-- The last chunk that fits OBUF of the smallest capacity, at address 4. -/
theorem witness_CodeHitAppendsTheChunk :
    lookupCode ({ decoding [0x80, 0x01] with opos := 4 } : State).dict 0x8001 = some 0xaaaaaaaa ∧
    ({ decoding [0x80, 0x01] with opos := 4 } : State).opos.toNat + 4 ≤ Config.obufBytes := by
  refine ⟨by decide, ?_⟩
  have := ibufBytes_bounds
  show 8 ≤ Config.obufBytes
  rw [obufBytes_eq]; omega
theorem witness_VerbatimAppendsItsFourBytes :
    ({ decoding [0x12, 0x34, 0x80, 0x01] with opos := 4 } : State).opos.toNat + 4 ≤ Config.obufBytes :=
  witness_CodeHitAppendsTheChunk.2
theorem witness_UnknownCodeEndsTheDecodeWithItsUnit : lookupCode (decoding [0x80, 0x02]).dict 0x8002 = none := by decide
theorem witness_EndAndTailsFinishThroughTruncate :
    (((Instr.tailHalf 0x1234 none = .tailHalf 0x1234 none ∨ Instr.tailHalf 0x1234 none = .tailByte 0) ∧ true = true) ∨
      (Instr.tailHalf 0x1234 none = .endOfStream ∧ true = (decoding []).status.tail)) ∧
    (((Instr.tailByte 0x80 = .tailHalf 0 none ∨ Instr.tailByte 0x80 = .tailByte 0x80) ∧ true = true) ∨
      (Instr.tailByte 0x80 = .endOfStream ∧ true = (decoding []).status.tail)) ∧
    (((Instr.endOfStream = .tailHalf 0 none ∨ Instr.endOfStream = .tailByte 0) ∧ false = true) ∨
      (Instr.endOfStream = .endOfStream ∧ false = (decoding []).status.tail)) := by decide
/-- The first output position at which a chunk does not fit. -/
theorem witness_ChunkOutsideObufStops :
    Config.obufBytes < ({ decoding [0x80, 0x01] with opos := BitVec.ofNat 32 (Config.obufBytes - 3) } : State).opos.toNat + 4 ∧
    lookupCode ({ decoding [0x80, 0x01] with opos := BitVec.ofNat 32 (Config.obufBytes - 3) } : State).dict 0x8001 =
      some 0xaaaaaaaa := by
  refine ⟨?_, by decide⟩
  have := ibufBytes_bounds
  show Config.obufBytes < (BitVec.ofNat 32 (Config.obufBytes - 3)).toNat + 4
  rw [obufBytes_eq, BitVec.toNat_ofNat]
  omega

/-- The block in phase COUNT on one chunk 05060000, padded from two bytes. -/
def counting : State :=
  { State.reset with
    phase := .count, cmd := .analyze, inLen := 2, origSize := 2, padLen := 2, paddedLen := 4,
    ibuf := [(0, 5), (1, 6)] }

theorem witness_CountStepCountsOneChunk :
    counting.BlockTurn ∧ counting.phase = .count ∧ counting.pos.toNat < counting.paddedLen.toNat / 4 ∧
    counting.paddedLen.toNat ≤ Config.ibufBytes ∧ (∀ e ∈ counting.freq, e.chunk ≠ counting.chunkAt counting.pos.toNat) :=
  ⟨.inl rfl, rfl, by decide, by decide, by decide⟩
theorem witness_CountStepCountsOneChunk_again :
    ({ counting with freq := [⟨1, 1⟩, ⟨0x05060000, 7⟩] } : State).BlockTurn ∧
    (⟨0x05060000, 7⟩ : FreqEntry).chunk = counting.chunkAt counting.pos.toNat ∧
    (⟨1, 1⟩ : FreqEntry).chunk ≠ counting.chunkAt counting.pos.toNat :=
  ⟨.inl rfl, by decide, by decide⟩
theorem witness_ChunkReadPadsWithZeros :
    (1 < 4 ∧ 4 * 0 + 1 < counting.inLen.toNat) ∧ (2 < 4 ∧ counting.inLen.toNat ≤ 4 * 0 + 2) := by decide
theorem witness_FreqIsFirstSeenOrderWithCounts : ([2, 1, 1, 3] : List Chunk).length < 2 ^ 32 := by decide
theorem witness_BuiltDictionaryCountsTheSelection :
    atBounds.topN.toNat ≤ Config.dictDepth ∧ (0#8).toNat ≤ Config.dictDepth :=
  ⟨Nat.le_of_eq atBounds_topN, by decide⟩
theorem witness_BuiltDictionaryIsWellFormed :
    configOk 0xFFFE 2 = true ∧ (([⟨1, 1⟩, ⟨2, 3⟩, ⟨3, 1⟩] : List FreqEntry).map (·.chunk)).Nodup ∧
    ((sortByCount [⟨1, 1⟩, ⟨2, 3⟩, ⟨3, 1⟩]).take (2#8).toNat)[1]? = some ⟨1, 1⟩ ∧
    ((sortByCount [⟨1, 1⟩, ⟨2, 3⟩, ⟨3, 1⟩]).take (2#8).toNat).length ≤ 2 ∧
    slotOf (buildDict 0xFFFE (selectTop 2 [⟨1, 1⟩, ⟨2, 3⟩, ⟨3, 1⟩])) 2 = Slot.empty := by decide
theorem witness_SelectStepBuildsTheDictionary :
    ({ counting with phase := .select } : State).BlockTurn ∧ ({ counting with phase := .select } : State).cmd = .analyze ∧
    ({ counting with phase := .select, cmd := .compress, turns := [.block] } : State).BlockTurn ∧
    ({ counting with phase := .select, cmd := .compress, turns := [.block] } : State).cmd = .compress :=
  ⟨.inl rfl, rfl, .inr rfl, rfl⟩

/-- The block in phase ENC on the chunk 01020304, at the start of an IBUF of 4 bytes. -/
def encoding (dict : List Slot) : State :=
  { State.reset with
    phase := .enc, cmd := .encode, inLen := 4, origSize := 4, paddedLen := 4, dict := dict,
    ibuf := [(0, 1), (1, 2), (2, 3), (3, 4)] }

/-- Slot 0 holds 01020304 under 8001, the other slots are empty. -/
def dict1234 : List Slot := [loaded 0x01020304 0x8001]

theorem witness_EncodeHitWritesTheCode :
    (encoding dict1234).BlockTurn ∧ (encoding dict1234).phase = .enc ∧
    (encoding dict1234).pos.toNat < (encoding dict1234).paddedLen.toNat / 4 ∧
    (encoding dict1234).paddedLen.toNat ≤ Config.ibufBytes ∧ (encoding dict1234).opos.toNat + 2 ≤ Config.obufBytes ∧
    lookupChunk (encoding dict1234).dict ((encoding dict1234).chunkAt (encoding dict1234).pos.toNat) = some 0x8001 :=
  ⟨.inl rfl, rfl, by decide, by decide,
    Nat.le_trans (by decide) (Nat.mul_le_mul_left 2 ibufBytes_bounds.1), by decide⟩
theorem witness_EncodeMissWritesTheChunk :
    (encoding dictAA).BlockTurn ∧ (encoding dictAA).phase = .enc ∧
    (encoding dictAA).pos.toNat < (encoding dictAA).paddedLen.toNat / 4 ∧
    (encoding dictAA).paddedLen.toNat ≤ Config.ibufBytes ∧ (encoding dictAA).opos.toNat + 4 ≤ Config.obufBytes ∧
    lookupChunk (encoding dictAA).dict ((encoding dictAA).chunkAt (encoding dictAA).pos.toNat) = none :=
  ⟨.inl rfl, rfl, by decide, by decide,
    Nat.le_trans (by decide) (Nat.mul_le_mul_left 2 ibufBytes_bounds.1), by decide⟩

/-! ### Whole commands -/

/-- An idle state with four bytes in IBUF, before a command word. -/
def ready (w : Word) (dict : List Slot) (bs : List Byte) : State :=
  { State.reset with
    turns := [ctrlTurn w], inLen := BitVec.ofNat 32 bs.length, dict := dict, ibuf := Memory.writeBytes [] 0 bs }

theorem ready_inv (w : Word) {dict : List Slot} {bs : List Byte} (hd : DictForm dict)
    (hl : bs.length ≤ 4) : (ready w dict bs).Inv := by
  refine .of_idle rfl (Memory.writeBytes_wf bs .nil 0) .nil ?_ (by simp [ready, State.reset]) hd ?_
  · intro c hc
    have := ibufBytes_bounds
    rcases Memory.mem_writeBytes hc with h | h
    · omega
    · cases h
  · intro a ha; exact absurd ha (Nat.not_lt_zero a)

theorem witness_EncodeCommandWritesTheEncodedStream :
    (ready 0x12 dict1234 [1, 2, 3]).Inv ∧ (ready 0x12 dict1234 [1, 2, 3]).phase = .idle ∧
    (ready 0x12 dict1234 [1, 2, 3]).turns = [ctrlTurn 0x12] ∧ (0x12#32).toNat % 16 = 2 ∧
    (ready 0x12 dict1234 [1, 2, 3]).inLen.toNat ≤ Config.ibufBytes ∧
    dictWellFormed (ready 0x12 dict1234 [1, 2, 3]).dict = true :=
  ⟨ready_inv _ (by decide) (by decide), rfl, rfl, by decide, by decide, by decide⟩
theorem witness_AnalyzeCommandBuildsTheDictionary :
    (ready 1 dict1234 [1, 2, 3, 4]).Inv ∧ (ready 1 dict1234 [1, 2, 3, 4]).phase = .idle ∧
    (ready 1 dict1234 [1, 2, 3, 4]).turns = [ctrlTurn 1] ∧ (1#32).toNat % 16 = 1 ∧
    (ready 1 dict1234 [1, 2, 3, 4]).inLen.toNat ≤ Config.ibufBytes ∧
    configOk (ready 1 dict1234 [1, 2, 3, 4]).codeBase (ready 1 dict1234 [1, 2, 3, 4]).topN = true :=
  ⟨ready_inv _ (by decide) (by decide), rfl, rfl, by decide, by decide, by decide⟩
theorem witness_CompressEqualsAnalyzeThenEncode :
    (ready 0 dict1234 [1]).Inv ∧ (ready 0 dict1234 [1]).phase = .idle ∧
    ((1#32).toNat % 16 = 1 ∧ (2#32).toNat % 16 = 2 ∧ (0xF3#32).toNat % 16 = 3) ∧
    (ready 0 dict1234 [1]).inLen.toNat ≤ Config.ibufBytes ∧
    configOk (ready 0 dict1234 [1]).codeBase (ready 0 dict1234 [1]).topN = true :=
  ⟨ready_inv _ (by decide) (by decide), rfl, by decide, by decide, by decide⟩
/-- One stream for each way a decode ends: `80 01`, `80 01 12 34`, `80 02`. -/
theorem witness_DecodeCommandDecodesTheStream :
    ((ready 4 dictAA [0x80, 0x01]).Inv ∧ (ready 4 dictAA [0x80, 0x01, 0x12, 0x34]).Inv ∧ (ready 4 dictAA [0x80, 0x02]).Inv) ∧
    (ready 4 dictAA [0x80, 0x01]).phase = .idle ∧ (ready 4 dictAA [0x80, 0x01]).turns = [ctrlTurn 4] ∧
    (4#32).toNat % 16 = 4 ∧ (ready 4 dictAA [0x80, 0x01, 0x12, 0x34]).inLen.toNat ≤ Config.ibufBytes ∧
    dictWellFormed dictAA = true ∧
    streamEnd dictAA 0 ((ready 4 dictAA [0x80, 0x01]).ibufSlice 0 2) = .atEnd ∧
    streamEnd dictAA 0 ((ready 4 dictAA [0x80, 0x01, 0x12, 0x34]).ibufSlice 0 4) = .atTail ∧
    streamEnd dictAA 0 ((ready 4 dictAA [0x80, 0x02]).ibufSlice 0 2) = .unknown 0 0x8002 :=
  ⟨⟨ready_inv _ (by decide) (by decide), ready_inv _ (by decide) (by decide), ready_inv _ (by decide) (by decide)⟩, rfl, rfl, by decide,
    by decide, by decide, by decide, by decide, by decide⟩

/-- The state that ENCODE of 01020304 leaves. -/
def encoded : State :=
  { ready 2 dict1234 [1, 2, 3, 4] with
    turns := [], cmd := .encode, status := { Status.clear with done := true }, origSize := 4, paddedLen := 4,
    pos := 1, opos := 2, outLen := 2, obuf := [(0, 0x80), (1, 0x01)], obufGen := 1 }

theorem witness_EncodeThenDecodeGivesTheInputBack :
    (ready 2 dict1234 [1, 2, 3, 4]).Inv ∧ (ready 2 dict1234 [1, 2, 3, 4]).phase = .idle ∧
    (ready 2 dict1234 [1, 2, 3, 4]).turns = [ctrlTurn 2] ∧ ((2#32).toNat % 16 = 2 ∨ (2#32).toNat % 16 = 3) ∧
    runSteps (2 + 1) (ready 2 dict1234 [1, 2, 3, 4]) = .next encoded ∧ encoded.phase = .idle ∧
    encoded.status.err = .none ∧ encoded.status.haz = false ∧
    ({ ready 4 dict1234 [0x80, 0x01] with origSize := 4 } : State).Inv ∧
    ({ ready 4 dict1234 [0x80, 0x01] with origSize := 4 } : State).turns = [ctrlTurn 4] ∧ (4#32).toNat % 16 = 4 ∧
    (ready 4 dict1234 [0x80, 0x01]).inLen = encoded.outLen ∧ (4 : BitVec 32) = (ready 2 dict1234 [1, 2, 3, 4]).inLen ∧
    (∀ a, a < encoded.outLen.toNat → (ready 4 dict1234 [0x80, 0x01]).ibufByte a = encoded.obufByte a) ∧
    (validPairs dict1234).Perm (validPairs encoded.dict) := by
  have h := ready_inv 4 (dict := dict1234) (bs := [0x80, 0x01]) (by decide) (by decide)
  exact ⟨ready_inv _ (by decide) (by decide), rfl, rfl, .inl (by decide), by rfl, rfl, rfl, rfl,
    .of_idle rfl h.ibufWf h.obufWf h.ibufInside h.obufInside h.dictForm h.outWritten, rfl, by decide, rfl, rfl,
    by decide, .refl _⟩

/-- A running command: ENCODE just accepted. -/
def running : State :=
  { ready 2 dict1234 [1, 2, 3, 4] with turns := [], phase := .enc, cmd := .encode, origSize := 4, paddedLen := 4 }

theorem running_inv : running.Inv where
  ibufWf := (ready_inv 2 (dict := dict1234) (bs := [1, 2, 3, 4]) (by decide) (by decide)).ibufWf
  obufWf := .nil
  ibufInside := (ready_inv 2 (dict := dict1234) (bs := [1, 2, 3, 4]) (by decide) (by decide)).ibufInside
  obufInside := by intro c hc; cases hc
  dictForm := by decide
  outWritten := by intro a ha; exact absurd ha (Nat.not_lt_zero a)
  busyLen _ := by decide
  busyStatus _ := rfl
  busyCaptures _ := ⟨rfl, rfl⟩
  phaseInv := ⟨.inl rfl, ⟨rfl, rfl, rfl⟩, by decide, by decide, rfl, by decide, by decide,
    by intro a ha; exact absurd ha (Nat.not_lt_zero a)⟩

theorem witness_RunningCommandAlwaysFinishes : running.Inv ∧ running.turns = [] := ⟨running_inv, rfl⟩
theorem witness_EveryStepKeepsTheInvariant :
    running.Inv ∧ step running =
      .next { running with pos := 1, opos := 2, obuf := [(0, 0x80), (1, 0x01)] } := ⟨running_inv, by rfl⟩
theorem witness_InvariantStatesNeverStop : running.Inv := running_inv
theorem witness_WhileBusyOnlyHazAndBusyWrCanBeSet :
    running.Inv ∧ (running.readReg .status).getLsbD 0 = true := ⟨running_inv, by decide⟩

/-! ### Host transactions -/

/-- The last slot's index. -/
def lastSlot : Nat := Config.dictDepth - 1

theorem lastSlot_lt : lastSlot < Config.dictDepth := Nat.sub_lt (by decide) (by decide)

/-- The hypotheses hold of the state `after` gives for every clause's offset, the last slot's among them. -/
theorem witness_IdleRegisterReadFollowsTheMap :
    (∀ off ∈ [0x000, 0x004, 0x008, 0x00C, 0x010, 0x014, 0x018, 0x01C, 0x020, 0x024, 0x028, 0x02C, 0x030, 0x034,
        0x038, 0x03C, 0x001, 0x040, 0x0FC, 0x10C, 0x100 + 0x10 * lastSlot, 0x104 + 0x10 * lastSlot,
        0x108 + 0x10 * lastSlot, 0x100 + 0x10 * Config.dictDepth],
      (after [.host (.regRead off)]).turns = .host (.regRead off) :: [] ∧
      (after [.host (.regRead off)]).phase = .idle) ∧ lastSlot < Config.dictDepth :=
  ⟨fun _ _ => ⟨rfl, rfl⟩, lastSlot_lt⟩
/-- The reserved offsets' bounds: each is in the clause, and none is another clause's offset. -/
theorem witness_IdleRegisterReadFollowsTheMap_reserved :
    0x001 % 4 ≠ 0 ∧ (0x040 ≤ 0x0FC ∧ 0x0FC < 0x100) ∧ (0x100 ≤ 0x10C ∧ 0x10C % 0x10 = 0xC) ∧
    (∀ j, j < Config.dictDepth → 0x108 + 0x10 * j < 0x100 + 0x10 * Config.dictDepth) :=
  ⟨by decide, by decide, by decide, fun j hj => by omega⟩
theorem witness_PlainRegistersReadBackWhatIsWritten :
    ∀ off ∈ [0x008, 0x00C, 0x010, 0x014],
      (after [.host (.regWrite off 0xFFFFFFFF)]).turns = .host (.regWrite off 0xFFFFFFFF) :: [] ∧
      (after [.host (.regWrite off 0xFFFFFFFF)]).phase = .idle := by decide
/-- DICT_CHUNK and DICT_CODE of the last slot. -/
theorem witness_DictWindowWriteLoadsOneSlot :
    (∀ off ∈ [0x100 + 0x10 * lastSlot, 0x104 + 0x10 * lastSlot],
      (after [.host (.regWrite off 0xFFFF8005)]).turns = .host (.regWrite off 0xFFFF8005) :: [] ∧
      (after [.host (.regWrite off 0xFFFF8005)]).phase = .idle) ∧ lastSlot < Config.dictDepth :=
  ⟨fun _ _ => ⟨rfl, rfl⟩, lastSlot_lt⟩
/-- DICT_FREQ[0] and the first offset past the window. -/
theorem witness_OtherRegisterWritesHaveNoEffect :
    (∀ off ∈ [0x108, 0x100 + 0x10 * Config.dictDepth],
      (after [.host (.regWrite off 1)]).turns = .host (.regWrite off 1) :: [] ∧
      (after [.host (.regWrite off 1)]).phase = .idle ∧ 0x014 < off ∧
      (∀ j, j < Config.dictDepth → off ≠ 0x100 + 0x10 * j ∧ off ≠ 0x104 + 0x10 * j)) := by
  intro off h
  refine ⟨rfl, rfl, ?_⟩
  rcases List.mem_pair.1 h with rfl | rfl
  · exact ⟨by decide, fun j _ => by omega⟩
  · exact ⟨by omega, fun j hj => by omega⟩
theorem witness_WritesWhileBusyAreDropped :
    ({ running with turns := [.host (.regWrite 0x000 5)] } : State).phase ≠ .idle ∧
    ({ running with turns := [.host (.regWrite 0x000 5)] } : State).turns = .host (.regWrite 0x000 5) :: [] ∧
    ({ running with turns := [.host (.ibufWrite 3 5)] } : State).turns = .host (.ibufWrite 3 5) :: [] := by decide
/-- The last slot's DICT_FREQ, STATUS, the offset after DICT_FREQ[0], and the buffers' address 3. -/
theorem witness_ReadsWhileBusyAreFreeOrExact :
    (∀ x ∈ [Tx.regRead (0x100 + 0x10 * lastSlot + 0x8), .regRead 0x004, .regRead 0x10C, .ibufRead 3, .obufRead 3],
      ({ running with turns := [.host x] } : State).phase ≠ .idle ∧
      ({ running with turns := [.host x] } : State).turns = .host x :: []) ∧
    lastSlot < Config.dictDepth ∧ regAt 0x10C = .reserved ∧ 3 < Config.ibufBytes :=
  ⟨fun _ _ => ⟨Phase.noConfusion, rfl⟩, lastSlot_lt, by decide, by decide⟩
/-- The addresses at the buffers' ends, inside and outside. -/
theorem witness_BufferAccessesReadAndWriteBytes :
    (∀ x ∈ [Tx.ibufWrite (Config.ibufBytes - 1) 5, .ibufWrite Config.ibufBytes 5, .ibufRead (Config.ibufBytes - 1),
        .ibufRead Config.ibufBytes, .obufRead (Config.obufBytes - 1), .obufRead Config.obufBytes],
      (after [.host x]).phase = .idle ∧ (after [.host x]).turns = .host x :: []) ∧
    Config.ibufBytes - 1 < Config.ibufBytes ∧ Config.ibufBytes ≤ Config.ibufBytes ∧
    Config.obufBytes - 1 < Config.obufBytes ∧ Config.obufBytes ≤ Config.obufBytes := by
  have := ibufBytes_bounds
  rw [obufBytes_eq]
  exact ⟨fun _ _ => ⟨rfl, rfl⟩, by omega, Nat.le_refl _, by omega, Nat.le_refl _⟩
theorem witness_HostCannotDisturbARunningCommand :
    ({ running with turns := [cmdTurn 5] } : State).phase ≠ .idle ∧
    ({ running with turns := [cmdTurn 5] } : State).turns = .host (.regWrite 0x000 5) :: [] ∧
    step { running with turns := [cmdTurn 5] } =
      .next { running with turns := [], status := { running.status with busyWr := true } } :=
  ⟨by decide, rfl, by rfl⟩
theorem witness_EndedCommandKeepsItsCmd :
    ({ running with pos := 1, opos := 2, obuf := [(0, 0x80), (1, 0x01)] } : State).BlockTurn ∧
    ({ running with pos := 1, opos := 2, obuf := [(0, 0x80), (1, 0x01)] } : State).phase ≠ .idle ∧
    step { running with pos := 1, opos := 2, obuf := [(0, 0x80), (1, 0x01)] } = .next encoded ∧
    encoded.phase = .idle := ⟨.inl rfl, by decide, by rfl, rfl⟩
theorem witness_BlockStepLeavesTheInputsAlone :
    running.BlockTurn ∧ step running = .next { running with pos := 1, opos := 2, obuf := [(0, 0x80), (1, 0x01)] } :=
  ⟨.inl rfl, by rfl⟩
theorem witness_DecodingIgnoresTheConfiguration :
    execDecode 0 (ready 4 dictAA []) =
      .next { ready 4 dictAA [] with cmd := .decode, phase := .dec, status := Status.clear } ∧
    (decoding [0x80, 0x01]).BlockTurn ∧ (decoding [0x80, 0x01]).phase = .dec ∧
    step (decoding [0x80, 0x01]) =
      .next { decoding [0x80, 0x01] with
        pos := 2, opos := 4, obuf := [(0, 0xAA), (1, 0xAA), (2, 0xAA), (3, 0xAA)] } :=
  ⟨by rfl, .inl rfl, rfl, by rfl⟩
theorem witness_HardwareResetSetsEveryResetValue : ({ running with turns := [.reset] } : State).turns = .reset :: [] := rfl

end Sys2Proof.Tests
end

section
/-! PROOFS. The state, its registers and the invariant: what STATUS and the register map hold bit by bit, and
that the invariant holds after reset and is kept by every step. -/

namespace Sys2Proof.Machine

/-! ## STATUS, bit by bit -/

/-- What stands at each bit of STATUS (R26). -/
theorem Status.getLsbD_word (busy : Bool) (st : Status) (k : Nat) :
    (st.word busy).getLsbD k =
      if k = 0 then busy else if k = 1 then st.done else if k = 2 then st.tail else if k = 3 then st.haz
      else if k = 4 then st.busyWr else if k = 5 then st.short else if k < 8 then false
      else if k < 12 then st.err.bits.getLsbD (k - 8) else false := by
  simp only [Status.word, BitVec.getLsbD_append, BitVec.getLsbD_ofBool, BitVec.getLsbD_zero]
  by_cases hk : k < 12
  · interval_cases k <;> simp
  · grind

theorem State.readReg_status (s : State) : s.readReg .status = s.status.word s.busy := rfl

/-! ## Register writes while idle -/

/-- A write of a register other than CTRL while idle (R172). -/
theorem step_regWrite_idle {s : State} {off : Nat} {v : Word} {ts : List Turn}
    (h : s.turns = .host (.regWrite off v) :: ts) (hp : s.phase = .idle) (ho : off ≠ 0x000) :
    step s = .next (State.writeReg v { s with turns := ts } (regAt off)) := by
  rw [step_host h fun off' v' he => by cases he; exact regAt_eq_ctrl.not.2 ho, State.popTurn_eq h]
  exact congrArg _ (hostRegWrite_idle off v hp)

/-- The "width used" bits of a word, read back, are the word under their mask (R22). -/
theorem low_bits_eq_and (v : Word) (n : Nat) :
    (v.extractLsb' 0 n).setWidth 32 = v &&& BitVec.ofNat 32 (2 ^ n - 1) := by
  refine BitVec.eq_of_getLsbD_eq fun i hi => ?_
  simp only [BitVec.getLsbD_setWidth, BitVec.getLsbD_extractLsb', BitVec.getLsbD_and, BitVec.getLsbD_ofNat,
    Nat.testBit_two_pow_sub_one, Nat.zero_add, hi, decide_true, Bool.true_and]
  exact Bool.and_comm ..

/-- Slot `j` after it is loaded, and every other slot (R45, R127). -/
theorem State.loadSlot_slots (s : State) (j : Nat) (f : Slot → Slot) :
    (s.loadSlot j f).slot j = { f (s.slot j) with freq := 0 } ∧ ∀ k, k ≠ j → (s.loadSlot j f).slot k = s.slot k :=
  ⟨(slotOf_putSlot ..).trans (if_pos rfl), fun _ hk => (slotOf_putSlot ..).trans (if_neg hk)⟩

/-- Below the DICT window only CODE_BASE, TOP_N, IN_LEN and ORIG_SIZE are written by their value (R22). -/
theorem State.writeReg_fixed (v : Word) (s : State) :
    ∀ p ∈ fixedRegs, p.1 ∉ [0x008, 0x00C, 0x010, 0x014] → s.writeReg v p.2 = s := by
  simp [fixedRegs, State.writeReg]

/-! ## The identification registers -/

/-- The identification registers read the parameters (R43). -/
theorem State.readReg_parameters (s : State) :
    (s.readReg .dictDepth).toNat = Config.dictDepth ∧ (s.readReg .ibufSize).toNat = Config.ibufBytes ∧
      (s.readReg .obufSize).toNat = 2 * Config.ibufBytes := by
  have := dictDepth_bounds
  have := ibufBytes_bounds
  simp only [State.readReg, BitVec.toNat_ofNat, obufBytes_eq]
  omega

/-! ## Phase COUNT: FREQ's entries add up to the chunks counted -/

/-- Counting one more chunk keeps the chunks of FREQ distinct (R111). -/
theorem countChunk_nodup (c : Chunk) {l : List FreqEntry} (h : (l.map (·.chunk)).Nodup) :
    ((countChunk c l).map (·.chunk)).Nodup := by
  rw [countChunk_chunks]
  split_ifs with hc
  · exact h
  · exact List.nodup_append.2 ⟨h, List.nodup_singleton c, fun a ha b hb hab =>
      hc (by rw [List.mem_singleton] at hb; rwa [← hb, ← hab])⟩

/-- Counting one more chunk adds one to the sum of the counts, where no count wraps (R50, R110). -/
theorem countChunk_total (c : Chunk) {l : List FreqEntry} (h : ∀ e ∈ l, e.count.toNat + 1 < 2 ^ 32) :
    ((countChunk c l).map (·.count.toNat)).sum = (l.map (·.count.toNat)).sum + 1 := by
  induction l with
  | nil => rfl
  | cons e l ih =>
    rw [countChunk]
    split_ifs with hc
    · have he : (e.count + 1).toNat = e.count.toNat + 1 := toNat_add_of_lt (h e (by simp))
      simp only [List.map_cons, List.sum_cons, he]
      omega
    · have := ih fun x hx => h x (by simp [hx])
      simp only [List.map_cons, List.sum_cons, this]
      omega

/-- No count exceeds the number of chunks counted. -/
theorem FreqSums.count_le {l : List FreqEntry} {n : Nat} (h : FreqSums l n) {e : FreqEntry} (he : e ∈ l) :
    e.count.toNat ≤ n :=
  h.total ▸ List.single_le_sum (fun _ _ => Nat.zero_le _) _ (List.mem_map_of_mem he)

/-- COUNT of one more chunk (R110, R111). -/
theorem FreqSums.countChunk {l : List FreqEntry} {n : Nat} (h : FreqSums l n) (hn : n + 1 < 2 ^ 32) (c : Chunk) :
    FreqSums (countChunk c l) (n + 1) := by
  have small : ∀ e ∈ l, e.count.toNat + 1 < 2 ^ 32 := fun e he => by have := h.count_le he; omega
  refine ⟨countChunk_nodup c h.distinctChunks, fun e he => ?_, by rw [countChunk_total c small, h.total]⟩
  rcases countChunk_mem h.distinctChunks he with ⟨_, hl⟩ | ⟨_, h1, _⟩ | ⟨e', he', _, rfl⟩
  · exact h.positive e hl
  · rw [h1]; decide
  · show 0 < (e'.count + 1).toNat
    rw [toNat_add_of_lt (small e' he')]
    exact Nat.succ_pos _

theorem FreqSums.nil : FreqSums [] 0 := ⟨List.nodup_nil, by simp, rfl⟩

/-! ## Phase SELECT: BUILD's dictionary is well formed -/

/-- SELECT's chunks are distinct (R111, R112). -/
theorem selectTop_nodup (n : BitVec 8) {l : List FreqEntry} (h : (l.map (·.chunk)).Nodup) :
    ((selectTop n l).map (·.chunk)).Nodup := by
  have hs : ((sortByCount l).map (·.chunk)).Nodup := ((sortByCount_perm l).map _).nodup_iff.2 h
  exact hs.sublist ((List.take_sublist ..).map _)

/-- Every slot that BUILD lists is valid (R120). -/
theorem validSlots_buildDict (base : BitVec 16) (sel : List FreqEntry) :
    validSlots (buildDict base sel) = buildDict base sel := by
  refine List.filter_eq_self.2 fun d hd => ?_
  obtain ⟨j, hj, rfl⟩ := List.mem_map.1 hd
  simp only [List.mem_range] at hj
  simp
  omega

/-- BUILD gives slot `j` the code `CODE_BASE + j`, which does not wrap under CFG_CHECK (R120, R121). -/
theorem builtSlot_code_toNat {base : BitVec 16} {n : BitVec 8} {sel : List FreqEntry} {j : Nat}
    (hk : configOk base n = true) (hn : sel.length ≤ n.toNat) (hj : j < sel.length) :
    (builtSlot base sel j).code.toNat = base.toNat + j := by
  obtain ⟨_, _, hsum⟩ := configOk_iff.1 hk
  rw [builtSlot_selected base hj, BitVec.toNat_ofNat]
  omega

/-- BUILD lists the chunks of the selection, in its order (R120). -/
theorem buildDict_chunks (base : BitVec 16) {sel : List FreqEntry} (h : sel.length ≤ Config.dictDepth) :
    (buildDict base sel).map (·.chunk) = sel.map (·.chunk) := by
  refine List.ext_getElem (by simp [h]) fun j h1 h2 => ?_
  have hj : j < sel.length := by simpa using h2
  simp [buildDict, builtSlot_selected base hj]

/-- Under a configuration that passes CFG_CHECK the dictionary of BUILD passes WF_CHECK (R121, R122). -/
theorem buildDict_wellFormed {base : BitVec 16} {n : BitVec 8} {sel : List FreqEntry}
    (hk : configOk base n = true) (hn : sel.length ≤ n.toNat) (hd : (sel.map (·.chunk)).Nodup) :
    dictWellFormed (buildDict base sel) = true := by
  obtain ⟨htag, hdepth, _⟩ := configOk_iff.1 hk
  have hlen : min sel.length Config.dictDepth = sel.length := by omega
  rw [dictWellFormed_iff, validSlots_buildDict, buildDict_chunks base (by omega)]
  refine ⟨fun d hd' _ => ?_, ?_, hd⟩
  · obtain ⟨j, hj, rfl⟩ := List.mem_map.1 hd'
    rw [List.mem_range, hlen] at hj
    rw [tagged_iff_le] at htag ⊢
    rw [builtSlot_code_toNat hk hn hj]
    omega
  · rw [buildDict, hlen, List.map_map]
    refine List.Nodup.map_on (fun i hi j hj hij => ?_) List.nodup_range
    have := congrArg BitVec.toNat hij
    rw [List.mem_range] at hi hj
    simp only [Function.comp_apply, builtSlot_code_toNat hk hn hi, builtSlot_code_toNat hk hn hj] at this
    omega

/-- SELECT and BUILD leave a well-formed dictionary (R122). -/
theorem State.selectAndBuild_wellFormed {s : State} {n : Nat} (hk : configOk s.codeBase s.topN = true)
    (hf : FreqSums s.freq n) : dictWellFormed s.selectAndBuild.dict = true :=
  buildDict_wellFormed hk (by rw [selectTop_length]; omega) (selectTop_nodup _ hf.distinctChunks)

/-! ## OBUF's written bytes -/

theorem State.obufWritten.mono {s : State} {m n : Nat} (h : s.obufWritten n) (hmn : m ≤ n) : s.obufWritten m :=
  fun a ha => h a (by omega)

theorem State.obufWritten_zero (s : State) : s.obufWritten 0 := fun _ ha => absurd ha (Nat.not_lt_zero _)

/-- Bytes written to OBUF take no value away. -/
theorem State.obufWritten.writeObuf {s : State} {n : Nat} (h : s.obufWritten n) (a : Nat) (bs : List Byte) :
    (s.writeObuf a bs).obufWritten n := by
  intro x hx
  rw [State.writeObuf_obuf, Memory.read_writeBytes]
  split_ifs with hi
  · have : x - a < bs.length := by omega
    simp [this]
  · exact h x hx

/-- Bytes written from the first one without a value on extend what is written. -/
theorem State.obufWritten.append {s : State} {n : Nat} (h : s.obufWritten n) (bs : List Byte) :
    (s.writeObuf n bs).obufWritten (n + bs.length) :=
  (State.obufWritten_writeObuf h (Nat.le_refl n)).mono (Nat.le_max_right ..)

/-! ## Each phase's conditions -/

/-- Phase COUNT's conditions: FREQ holds the chunks below `pos` (R48, R110, R185). -/
theorem State.phaseInv_count {s : State} (hp : s.phase = .count) :
    s.PhaseInv ↔ (s.cmd = .analyze ∨ s.cmd = .compress) ∧ s.Padded ∧ configOk s.codeBase s.topN = true ∧
      s.pos.toNat ≤ s.chunkCount ∧ FreqSums s.freq s.pos.toNat := by
  unfold State.PhaseInv; rw [hp]

/-- Phase SELECT's conditions: every chunk is counted (R112, R185). -/
theorem State.phaseInv_select {s : State} (hp : s.phase = .select) :
    s.PhaseInv ↔ (s.cmd = .analyze ∨ s.cmd = .compress) ∧ s.Padded ∧ configOk s.codeBase s.topN = true ∧
      s.pos.toNat = s.chunkCount ∧ FreqSums s.freq s.pos.toNat := by
  unfold State.PhaseInv; rw [hp]

/-- Phase ENC's conditions (R49, R144, R185). -/
theorem State.phaseInv_enc {s : State} (hp : s.phase = .enc) :
    s.PhaseInv ↔ (s.cmd = .encode ∨ s.cmd = .compress) ∧ s.Padded ∧ dictWellFormed s.dict = true ∧
      s.pos.toNat ≤ s.chunkCount ∧ s.opos.toNat % 2 = 0 ∧ 2 * s.pos.toNat ≤ s.opos.toNat ∧
      s.opos.toNat ≤ 4 * s.pos.toNat ∧ s.obufWritten s.opos.toNat := by
  unfold State.PhaseInv; rw [hp]

/-- Phase DEC's conditions (R48, R49, R151, R162). -/
theorem State.phaseInv_dec {s : State} (hp : s.phase = .dec) :
    s.PhaseInv ↔ s.cmd = .decode ∧ dictWellFormed s.dict = true ∧ s.pos.toNat % 2 = 0 ∧
      s.pos.toNat ≤ s.inLen.toNat ∧ s.opos.toNat % 4 = 0 ∧ s.opos.toNat ≤ 2 * s.pos.toNat ∧
      s.obufWritten s.opos.toNat := by
  unfold State.PhaseInv; rw [hp]

/-- PAD's results stand after PAD, for a length in range (R100). -/
theorem State.pad_padded {s : State} (h : s.inLen.toNat ≤ Config.ibufBytes) : s.pad.Padded :=
  ⟨(State.pad_toNat h).2, (State.pad_toNat h).1, rfl⟩

theorem State.Padded.of_fields {s t : State} (h : s.Padded) (inLen : t.inLen = s.inLen)
    (paddedLen : t.paddedLen = s.paddedLen) (padLen : t.padLen = s.padLen) (origSize : t.origSize = s.origSize) :
    t.Padded :=
  ⟨by rw [paddedLen, inLen]; exact h.paddedLen, by rw [padLen, inLen]; exact h.padLen,
    by rw [origSize, inLen]; exact h.origSize⟩

/-! ## The invariant from one state to another -/

section
variable {s t : State}

/-- The invariant reads none of the model's own turns, draws and replies, and not BUSY_WR. -/
theorem State.Inv.withHostFields (h : s.Inv) (turns : List Turn) (draws : Nat) (replies : List Reply)
    (busyWr : Bool) :
    State.Inv { s with
      turns := turns, draws := draws, replies := replies, status := { s.status with busyWr := busyWr } } where
  ibufWf := h.ibufWf
  obufWf := h.obufWf
  ibufInside := h.ibufInside
  obufInside := h.obufInside
  dictForm := h.dictForm
  outWritten := h.outWritten
  busyLen := h.busyLen
  busyStatus hp := congrArg (fun st => { st with busyWr := busyWr }) (h.busyStatus hp)
  busyCaptures := h.busyCaptures
  phaseInv := h.phaseInv.of_fields rfl rfl rfl rfl rfl rfl rfl rfl rfl rfl rfl rfl rfl

theorem State.Inv.popTurn (h : s.Inv) : s.popTurn.Inv :=
  h.withHostFields s.turns.tail s.draws s.replies s.status.busyWr

theorem State.Inv.reply (h : s.Inv) (r : Reply) : (s.reply r).Inv :=
  h.withHostFields s.turns s.draws (r :: s.replies) s.status.busyWr

theorem State.Inv.nextDraw (h : s.Inv) : s.nextDraw.Inv :=
  h.withHostFields s.turns (s.draws + 1) s.replies s.status.busyWr

theorem State.Inv.dropWrite (h : s.Inv) : s.dropWrite.Inv := h.withHostFields s.turns s.draws s.replies true

/-- An idle state with the memories and the output of a state of the invariant has it too. -/
theorem State.Inv.to_idle (h : s.Inv) (phase : t.phase = .idle) (ibuf : t.ibuf = s.ibuf) (obuf : t.obuf = s.obuf)
    (outLen : t.outLen = s.outLen) (dictForm : DictForm t.dict) : t.Inv :=
  .of_idle phase (ibuf ▸ h.ibufWf) (obuf ▸ h.obufWf) (ibuf ▸ h.ibufInside) (obuf ▸ h.obufInside) dictForm
    (by unfold State.obufWritten; rw [obuf, outLen]; exact h.outWritten)

/-- An idle state whose output has been closed at a length up to which every byte is written (R75). -/
theorem State.Inv.to_closed (h : s.Inv) {n : BitVec 32} (written : s.obufWritten n.toNat) (phase : t.phase = .idle)
    (ibuf : t.ibuf = s.ibuf) (obuf : t.obuf = s.obuf.keepBelow n.toNat) (outLen : t.outLen = n)
    (dict : t.dict = s.dict) : t.Inv := by
  refine .of_idle phase (ibuf ▸ h.ibufWf) (obuf ▸ Memory.keepBelow_wf h.obufWf _) (ibuf ▸ h.ibufInside) ?_
    (dict ▸ h.dictForm) ?_
  · rw [obuf]
    exact fun c hc => h.obufInside c (Memory.mem_keepBelow.1 hc).1
  · rw [outLen]
    intro a ha
    rw [obuf, Memory.read_keepBelow, if_pos ha]
    exact written a ha

/-- A state a command has just been started in (R177). -/
theorem State.Inv.to_started (h : s.Inv) (len : s.inLen.toNat ≤ Config.ibufBytes) (ibuf : t.ibuf = s.ibuf)
    (obuf : t.obuf = s.obuf) (outLen : t.outLen = s.outLen) (inLen : t.inLen = s.inLen) (dict : t.dict = s.dict)
    (status : t.status = Status.clear) (captures : t.errPos = 0 ∧ t.errVal = 0) (phaseInv : t.PhaseInv) : t.Inv where
  ibufWf := ibuf ▸ h.ibufWf
  obufWf := obuf ▸ h.obufWf
  ibufInside := ibuf ▸ h.ibufInside
  obufInside := obuf ▸ h.obufInside
  dictForm := dict ▸ h.dictForm
  outWritten := by unfold State.obufWritten; rw [obuf, outLen]; exact h.outWritten
  busyLen _ := inLen ▸ len
  busyStatus _ := by rw [status]
  busyCaptures _ := captures
  phaseInv := phaseInv

/-- A state the running command goes on in: bytes written inside OBUF (none, in most steps), HAZ perhaps
set, DICT perhaps built anew, and its phase's conditions met. -/
theorem State.Inv.to_running (h : s.Inv) (busy : s.phase ≠ .idle) {a : Nat} {bs : List Byte}
    (inside : a + bs.length ≤ Config.obufBytes) (obuf : t.obuf = s.obuf.writeBytes a bs) (ibuf : t.ibuf = s.ibuf)
    (outLen : t.outLen = s.outLen) (inLen : t.inLen = s.inLen)
    (status : t.status = { s.status with haz := t.status.haz })
    (captures : t.errPos = s.errPos ∧ t.errVal = s.errVal) (dictForm : DictForm t.dict) (phaseInv : t.PhaseInv) :
    t.Inv where
  ibufWf := ibuf ▸ h.ibufWf
  obufWf := obuf ▸ Memory.writeBytes_wf bs h.obufWf a
  ibufInside := ibuf ▸ h.ibufInside
  obufInside := by
    rw [obuf]
    intro c hc
    rcases Memory.mem_writeBytes hc with ⟨_, hlt⟩ | hc
    · omega
    · exact h.obufInside c hc
  dictForm := dictForm
  outWritten := by unfold State.obufWritten; rw [obuf, outLen]; exact h.outWritten.writeObuf a bs
  busyLen _ := inLen ▸ h.busyLen busy
  busyStatus _ := by rw [status, h.busyStatus busy]
  busyCaptures _ := by rw [captures.1, captures.2]; exact h.busyCaptures busy
  phaseInv := phaseInv

end

/-! ## Reset -/

/-- After reset the block is idle and lists no byte and no slot (R51). -/
theorem State.reset_inv : State.reset.Inv :=
  .of_idle rfl State.reset_memory_wf.1 State.reset_memory_wf.2 (by simp [State.reset]) (by simp [State.reset])
    clearedDict_form State.reset.obufWritten_zero

/-- A hardware reset establishes the invariant, whatever the state (R220). -/
theorem State.hardwareReset_inv (s : State) : s.hardwareReset.Inv :=
  State.reset_inv.to_idle rfl rfl rfl rfl clearedDict_form

/-! ## The host's steps -/

section
variable {s t : State}

/-- A slot's register lies inside the table (R45). -/
theorem regAt_slot_lt {off j : Nat} (h : regAt off = .dictChunk j ∨ regAt off = .dictCode j) :
    j < Config.dictDepth := by
  rcases regAt_cases off with ⟨_, hm⟩ | ⟨k, hk, ⟨_, hr⟩ | ⟨_, hr⟩ | ⟨_, hr⟩⟩ | hr
  · rcases h with h | h <;> rw [h] at hm <;> simp [fixedRegs] at hm
  all_goals rw [hr] at h; simp at h
  all_goals exact h ▸ hk

theorem State.Inv.writeReg (h : s.Inv) (hp : s.phase = .idle) (v : Word) (off : Nat) :
    (s.writeReg v (regAt off)).Inv := by
  have hslot := fun j => regAt_slot_lt (off := off) (j := j)
  cases hr : regAt off with
  | dictChunk j => exact h.to_idle hp rfl rfl rfl (putSlot_form h.dictForm _ (hslot j (.inl hr)))
  | dictCode j => exact h.to_idle hp rfl rfl rfl (putSlot_form h.dictForm _ (hslot j (.inr hr)))
  | _ => exact h.to_idle hp rfl rfl rfl h.dictForm

theorem State.Inv.writeIbuf (h : s.Inv) (hp : s.phase = .idle) {a : Nat} (ha : a < Config.ibufBytes) (b : Byte) :
    (s.writeIbuf a b).Inv := by
  refine .of_idle hp (Memory.write_wf h.ibufWf a b) h.obufWf (fun c hc => ?_) h.obufInside h.dictForm h.outWritten
  rcases Memory.mem_write hc with rfl | hc
  · exact ha
  · exact h.ibufInside c hc

/-- Every host transaction but a CTRL write keeps the invariant (R170 to R176). -/
theorem State.Inv.hostStep (h : s.Inv) (x : Tx) : (hostStep s x).Inv := by
  cases x with
  | regRead off =>
    show (hostRegRead off s).Inv
    unfold hostRegRead
    split_ifs
    · exact (h.reply _).nextDraw
    · exact (h.reply _).nextDraw
    · exact h.reply _
  | regWrite off v =>
    show (hostRegWrite off v s).Inv
    by_cases hp : s.phase = .idle
    · rw [hostRegWrite_idle off v hp]; exact h.writeReg hp v off
    · rw [hostRegWrite_busy off v hp]; exact h.dropWrite
  | ibufRead a => exact h.reply _
  | ibufWrite a b =>
    show (hostIbufWrite a b s).Inv
    by_cases hp : s.phase = .idle
    · by_cases ha : a < Config.ibufBytes
      · rw [hostIbufWrite_idle b hp ha]; exact h.writeIbuf hp ha b
      · rw [hostIbufWrite_outside b hp (Nat.not_lt.1 ha)]; exact h
    · rw [hostIbufWrite_busy a b hp]; exact h.dropWrite
  | obufRead a =>
    show (hostObufRead a s).Inv
    by_cases hp : s.phase = .idle
    · rw [hostObufRead_idle a hp]; exact h.reply _
    · rw [hostObufRead_busy a hp]; exact (h.reply _).nextDraw

/-! ## Commands at acceptance -/

/-- A CTRL write keeps the invariant where its acceptance action does. -/
theorem ctrlWrite_keeps_inv {c : BitVec 4} {act : State → State} (h : s.Inv)
    (hact : s.phase = .idle → check c s = none → (act s.clearForCommand).Inv)
    (hr : ctrlWrite c act s = .next t) : t.Inv := by
  rcases ctrlWrite_cases hr with ⟨_, ht⟩ | ⟨hp, e, _, ht⟩ | ⟨hp, hc, ht⟩ <;> cases ht
  · exact h.dropWrite
  · exact h.to_idle hp rfl rfl rfl h.dictForm
  · exact hact hp (check_clearForCommand c s ▸ hc)

theorem check_analyzer_accepts {c : BitVec 4} (hc : c = 1#4 ∨ c = 3#4) (h : check c s = none) :
    s.inLen.toNat ≤ Config.ibufBytes ∧ configOk s.codeBase s.topN = true := by
  rcases hc with rfl | rfl <;> simpa using check_none h

theorem check_codec_accepts {c : BitVec 4} (hc : c = 2#4 ∨ c = 4#4) (h : check c s = none) :
    s.inLen.toNat ≤ Config.ibufBytes ∧ dictWellFormed s.dict = true := by
  rcases hc with rfl | rfl <;> simpa using check_none h

/-- ANALYZE and COMPRESS start in COUNT with nothing counted (R179, R181). -/
theorem State.Inv.startCount (h : s.Inv) {c : BitVec 4} (hc : c = 1#4 ∨ c = 3#4) (hk : check c s = none)
    {cmd : Cmd} (hcmd : cmd = .analyze ∨ cmd = .compress) : (s.clearForCommand.startCount cmd).Inv := by
  obtain ⟨hlen, hconf⟩ := check_analyzer_accepts hc hk
  have hpad := State.pad_padded hlen
  exact h.to_started hlen rfl rfl rfl rfl rfl rfl ⟨rfl, rfl⟩ ((State.phaseInv_count rfl).2
    ⟨hcmd, hpad.of_fields rfl rfl rfl rfl, hconf, Nat.zero_le _, FreqSums.nil⟩)

/-- ENCODE starts in ENC with no chunk encoded (R180). -/
theorem State.Inv.startEncode (h : s.Inv) (hk : check 2#4 s = none) :
    (s.clearForCommand.pad.rewind.start .encode .enc).Inv := by
  obtain ⟨hlen, hdict⟩ := check_codec_accepts (.inl rfl) hk
  have hpad := State.pad_padded hlen
  exact h.to_started hlen rfl rfl rfl rfl rfl rfl ⟨rfl, rfl⟩ ((State.phaseInv_enc rfl).2
    ⟨.inl rfl, hpad.of_fields rfl rfl rfl rfl, hdict, Nat.zero_le _, rfl, Nat.le_refl _,
      Nat.le_refl _, s.obufWritten_zero⟩)

/-- DECODE starts in DEC with nothing decoded (R182). -/
theorem State.Inv.startDecode (h : s.Inv) (hk : check 4#4 s = none) :
    (s.clearForCommand.rewind.start .decode .dec).Inv := by
  obtain ⟨hlen, hdict⟩ := check_codec_accepts (.inr rfl) hk
  exact h.to_started hlen rfl rfl rfl rfl rfl rfl ⟨rfl, rfl⟩ ((State.phaseInv_dec rfl).2
    ⟨rfl, hdict, rfl, Nat.zero_le _, rfl, Nat.le_refl _, s.obufWritten_zero⟩)

/-- Every command word keeps the invariant (R177 to R183). -/
theorem exec_decodeCtrl_keeps_inv (h : s.Inv) (w : Word) (hr : exec (decodeCtrl w) s = .next t) : t.Inv := by
  have cleared : s.phase = .idle → s.clearForCommand.Inv := fun hp => h.to_idle hp rfl rfl rfl h.dictForm
  unfold decodeCtrl commandOf at hr
  split at hr
  · exact ctrlWrite_keeps_inv h (fun hp _ => (cleared hp).to_idle hp rfl rfl rfl h.dictForm) (exec_nop .. ▸ hr)
  · exact ctrlWrite_keeps_inv h (fun _ hk => h.startCount (.inl rfl) hk (.inl rfl)) (exec_analyze .. ▸ hr)
  · exact ctrlWrite_keeps_inv h (fun _ hk => h.startEncode hk) (exec_encode .. ▸ hr)
  · exact ctrlWrite_keeps_inv h (fun _ hk => h.startCount (.inr rfl) hk (.inr rfl)) (exec_compress .. ▸ hr)
  · exact ctrlWrite_keeps_inv h (fun _ hk => h.startDecode hk) (exec_decode .. ▸ hr)
  · exact ctrlWrite_keeps_inv h (fun hp _ => (cleared hp).to_idle hp rfl rfl rfl clearedDict_form)
      (exec_dictClear .. ▸ hr)
  · exact ctrlWrite_keeps_inv h (fun hp _ => cleared hp) (exec_reservedCmd67 .. ▸ hr)
  · exact ctrlWrite_keeps_inv h (fun hp _ => cleared hp) (exec_reservedCmd67 .. ▸ hr)
  · exact ctrlWrite_keeps_inv h (fun hp _ => cleared hp) (exec_reservedCmd8F .. ▸ hr)

/-! ## The block's steps -/

/-- COUNT of one chunk (R110). -/
theorem State.Inv.countOne (h : s.Inv) (hp : s.phase = .count) (hlt : s.pos.toNat < s.chunkCount)
    (hb : 4 * s.pos.toNat + 4 ≤ Config.ibufBytes) (c : Chunk) : (s.countOne c).Inv := by
  obtain ⟨hcmd, hpad, hconf, _, hfreq⟩ := (State.phaseInv_count hp).1 h.phaseInv
  obtain ⟨_, hmax, _⟩ := ibufBytes_bounds
  have hpos : (s.pos + 1).toNat = s.pos.toNat + 1 := toNat_add_of_lt (by simp; omega)
  refine h.to_running (by simp [hp]) (a := 0) (bs := []) (Nat.zero_le _) rfl rfl rfl rfl rfl ⟨rfl, rfl⟩ h.dictForm
    ((State.phaseInv_count (by exact hp)).2 ⟨hcmd, hpad.of_fields rfl rfl rfl rfl, hconf, ?_, ?_⟩)
  · rw [State.countOne_pos, State.countOne_chunkCount, hpos]; exact hlt
  · rw [State.countOne_pos, State.countOne_freq, hpos]; exact hfreq.countChunk (by omega) c

/-- COUNT's exit (R185). -/
theorem State.Inv.enterSelect (h : s.Inv) (hp : s.phase = .count) (he : s.pos.toNat = s.chunkCount) :
    (s.enter .select).Inv := by
  obtain ⟨hcmd, hpad, hconf, _, hfreq⟩ := (State.phaseInv_count hp).1 h.phaseInv
  exact h.to_running (by simp [hp]) (a := 0) (bs := []) (Nat.zero_le _) rfl rfl rfl rfl rfl ⟨rfl, rfl⟩ h.dictForm
    ((State.phaseInv_select rfl).2 ⟨hcmd, hpad.of_fields rfl rfl rfl rfl, hconf, he, hfreq⟩)

/-- SELECT and BUILD as the end of ANALYZE (R185). -/
theorem State.Inv.endAnalyze (h : s.Inv) : s.selectAndBuild.finish.Inv :=
  h.to_idle rfl rfl rfl rfl (buildDict_form ..)

/-- SELECT and BUILD on COMPRESS's way into ENC: WF_CHECK holds of what BUILD leaves (R122, R185). -/
theorem State.Inv.enterEnc (h : s.Inv) (hp : s.phase = .select) (hc : s.cmd = .compress) :
    (s.selectAndBuild.rewind.enter .enc).Inv := by
  obtain ⟨_, hpad, hconf, _, hfreq⟩ := (State.phaseInv_select hp).1 h.phaseInv
  exact h.to_running (by simp [hp]) (a := 0) (bs := []) (Nat.zero_le _) rfl rfl rfl rfl rfl ⟨rfl, rfl⟩
    (buildDict_form ..) ((State.phaseInv_enc rfl).2
      ⟨.inr hc, hpad.of_fields rfl rfl rfl rfl, State.selectAndBuild_wellFormed hconf hfreq,
        Nat.zero_le _, rfl, Nat.le_refl _, Nat.le_refl _, s.obufWritten_zero⟩)

/-- One chunk encoded, in two bytes or four: `opos` stays between `2 * pos` and `4 * pos` (R140, R141, R144). -/
theorem State.Inv.encodeBytes (h : s.Inv) (hp : s.phase = .enc) (hlt : s.pos.toNat < s.chunkCount)
    (hb : 4 * s.pos.toNat + 4 ≤ Config.ibufBytes) {bs : List Byte} (hn : bs.length = 2 ∨ bs.length = 4)
    (haz : Bool) :
    State.Inv { (s.writeObuf s.opos.toNat bs).advance 1 (BitVec.ofNat 32 bs.length) with
      status := { s.status with haz := haz } } := by
  obtain ⟨hcmd, hpad, hdict, _, heven, hlow, hhigh, hw⟩ := (State.phaseInv_enc hp).1 h.phaseInv
  obtain ⟨_, hmax, _⟩ := ibufBytes_bounds
  have hpos : (s.pos + 1).toNat = s.pos.toNat + 1 := toNat_add_of_lt (by simp; omega)
  have hlen : (BitVec.ofNat 32 bs.length).toNat = bs.length := by rw [BitVec.toNat_ofNat]; omega
  have hopos : (s.opos + BitVec.ofNat 32 bs.length).toNat = s.opos.toNat + bs.length := by
    rw [toNat_add_of_lt (by omega), hlen]
  refine h.to_running (by simp [hp]) (a := s.opos.toNat) (bs := bs) (by rw [obufBytes_eq]; omega) rfl rfl rfl rfl
    rfl ⟨rfl, rfl⟩ h.dictForm ((State.phaseInv_enc (by exact hp)).2
      ⟨hcmd, hpad.of_fields rfl rfl rfl rfl, hdict, ?_⟩)
  simp only [State.advance_pos, State.advance_opos, State.writeObuf_pos, State.writeObuf_opos, hpos, hopos]
  exact ⟨hlt, by omega, by omega, by omega, hw.append bs⟩

/-- ENC_HIT and ENC_MISS (R140, R141). -/
theorem State.Inv.encodeChunk (h : s.Inv) (hp : s.phase = .enc) (hlt : s.pos.toNat < s.chunkCount)
    (hb : 4 * s.pos.toNat + 4 ≤ Config.ibufBytes) {c : Chunk} (hr : encodeChunk c s = .next t) : t.Inv := by
  rcases encodeChunk_cases hr with ⟨code, _, _, rfl⟩ | ⟨_, _, rfl⟩
  · exact h.encodeBytes hp hlt hb (bs := unitBytes code) (.inl rfl) s.status.haz
  · exact h.encodeBytes hp hlt hb (bs := chunkBytes c) (.inr rfl) (s.status.haz || collides c)

/-- ENC_END (R142). -/
theorem State.Inv.encEnd (h : s.Inv) (hp : s.phase = .enc) : s.encEnd.Inv := by
  obtain ⟨_, _, _, _, _, _, _, hw⟩ := (State.phaseInv_enc hp).1 h.phaseInv
  exact h.to_closed hw rfl rfl rfl rfl rfl

/-- A block step outside phase DEC keeps the invariant (R185). -/
theorem State.Inv.blockStep (h : s.Inv) (hr : blockStep s = .next t) : t.Inv := by
  rcases blockStep_cases hr with ⟨_, rfl⟩ | ⟨hp, hlt, hb, rfl⟩ | ⟨hp, he, rfl⟩ | ⟨_, _, rfl⟩ | ⟨hp, hc, rfl⟩ |
    ⟨hp, hlt, hb, hr⟩ | ⟨hp, _, rfl⟩
  · exact h
  · exact h.countOne hp hlt hb _
  · exact h.enterSelect hp he
  · exact h.endAnalyze
  · exact h.enterEnc hp hc
  · exact h.encodeChunk hp hlt hb hr
  · exact h.encEnd hp

/-- A chunk emitted for two or four bytes of the stream: `opos` stays at most `2 * pos` (R152, R154, R162). -/
theorem State.Inv.emitChunk (h : s.Inv) (hp : s.phase = .dec) (hroom : s.opos.toNat + 4 ≤ Config.obufBytes)
    {d : BitVec 32} (hd : d.toNat = 2 ∨ d.toNat = 4) (hleft : d.toNat ≤ s.bytesLeft) (ch : Chunk) :
    ((s.writeObuf s.opos.toNat (chunkBytes ch)).advance d 4).Inv := by
  obtain ⟨hcmd, hdict, heven, _, halign, hbound, hw⟩ := (State.phaseInv_dec hp).1 h.phaseInv
  obtain ⟨_, hmax, _⟩ := ibufBytes_bounds
  have hlen := h.busyLen (by simp [hp])
  have hfits : s.pos.toNat + d.toNat ≤ s.inLen.toNat := by unfold State.bytesLeft at hleft; omega
  have hpos : (s.pos + d).toNat = s.pos.toNat + d.toNat := toNat_add_of_lt (by omega)
  have hopos : (s.opos + 4).toNat = s.opos.toNat + 4 := toNat_add_of_lt (by simp; omega)
  refine h.to_running (by simp [hp]) (bs := chunkBytes ch) hroom rfl rfl rfl rfl rfl ⟨rfl, rfl⟩ h.dictForm
    ((State.phaseInv_dec (by exact hp)).2 ⟨hcmd, hdict, ?_⟩)
  simp only [State.advance_pos, State.advance_opos, State.advance_inLen, State.writeObuf_pos, State.writeObuf_opos,
    State.writeObuf_inLen, hpos, hopos]
  exact ⟨by omega, hfits, by omega, by omega, hw.append (chunkBytes ch)⟩

/-- A step of phase DEC keeps the invariant: a chunk is emitted, or the output is closed at what is decoded
or, by TRUNCATE, at a part of it (R150 to R158). -/
theorem State.Inv.decStep (h : s.Inv) (hb : s.BlockTurn) (hp : s.phase = .dec) (hr : step s = .next t) : t.Inv := by
  obtain ⟨_, _, _, _, _, _, hw⟩ := (State.phaseInv_dec hp).1 h.phaseInv
  obtain ⟨_, _, hcases⟩ := decStep_cases hb hp hr
  have h' := h.popTurn
  have hcut := hw.mono (truncatedLen_le s.origSize s.opos)
  rcases hcases with ⟨_, rfl⟩ | ⟨_, rfl⟩ | ⟨hleft, _, ch, _, hroom, rfl⟩ | ⟨_, _, _, rfl⟩ | ⟨_, _, _, rfl⟩ |
    ⟨hleft, _, hroom, rfl⟩
  · exact h'.to_closed hcut rfl rfl rfl rfl rfl
  · exact h'.to_closed hcut rfl rfl rfl rfl rfl
  · exact h'.emitChunk hp hroom (d := 2) (.inl rfl) hleft ch
  · exact h'.to_closed hw rfl rfl rfl rfl rfl
  · exact h'.to_closed hcut rfl rfl rfl rfl rfl
  · exact h'.emitChunk hp hroom (d := 4) (.inr rfl) hleft _

/-! ## Every step -/

/-- Whose turn a step can be (R72). -/
theorem State.turn_cases (s : State) :
    s.BlockTurn ∨ (∃ ts, s.turns = .reset :: ts) ∨ ∃ x ts, s.turns = .host x :: ts := by
  unfold State.BlockTurn
  cases s.turns with
  | nil => exact .inl (.inl rfl)
  | cons u ts =>
    cases u with
    | block => exact .inl (.inr rfl)
    | reset => exact .inr (.inl ⟨ts, rfl⟩)
    | host x => exact .inr (.inr ⟨x, ts, rfl⟩)

/-- The block's turn keeps the invariant. -/
theorem State.Inv.blockTurn (h : s.Inv) (hb : s.BlockTurn) (hr : step s = .next t) : t.Inv := by
  by_cases hp : s.phase = .dec
  · exact h.decStep hb hp hr
  · exact h.popTurn.blockStep (step_block hb hp ▸ hr)

/-- The host's turn keeps the invariant. -/
theorem State.Inv.hostTurn (h : s.Inv) {x : Tx} {ts : List Turn} (hx : s.turns = .host x :: ts)
    (hr : step s = .next t) : t.Inv := by
  by_cases hctrl : ∃ off v, x = .regWrite off v ∧ regAt off = .ctrl
  · obtain ⟨off, v, rfl, ho⟩ := hctrl
    exact exec_decodeCtrl_keeps_inv h.popTurn v (step_ctrl hx ho ▸ hr)
  · have hother : ∀ off v, x = .regWrite off v → regAt off ≠ .ctrl := fun off v he ho => hctrl ⟨off, v, he, ho⟩
    rw [step_host hx hother] at hr
    cases hr
    exact h.popTurn.hostStep x

end

/-! ## `cmd` along a command -/

/-- A block step leaves `cmd` alone (R47). -/
theorem step_block_cmd {s t : State} (hb : s.BlockTurn) (hr : step s = .next t) : t.cmd = s.cmd := by
  by_cases hp : s.phase = .dec
  · obtain ⟨_, _, hcases⟩ := decStep_cases hb hp hr
    rcases hcases with ⟨_, rfl⟩ | ⟨_, rfl⟩ | ⟨_, _, _, _, _, rfl⟩ | ⟨_, _, _, rfl⟩ | ⟨_, _, _, rfl⟩ | ⟨_, _, _, rfl⟩
    all_goals rfl
  · rw [step_block hb hp] at hr
    rcases blockStep_cases hr with ⟨_, rfl⟩ | ⟨_, _, _, rfl⟩ | ⟨_, _, rfl⟩ | ⟨_, _, rfl⟩ | ⟨_, _, rfl⟩ |
      ⟨_, _, _, hr⟩ | ⟨_, _, rfl⟩
    case inr.inr.inr.inr.inr.inl =>
      rcases encodeChunk_cases hr with ⟨_, _, _, rfl⟩ | ⟨_, _, rfl⟩ <;> rfl
    all_goals rfl

/-! ## The statements about the state settled, by tier -/

/-- Settles O42. -/
theorem resetStateHasTheInvariant : Obligations.ResetStateHasTheInvariant := State.reset_inv

/-- Settles O48, from the parameters' bounds. -/
theorem identificationRegistersReadTheParameters : Obligations.IdentificationRegistersReadTheParameters := by
  obtain ⟨hlow, hhigh, hmul⟩ := ibufBytes_bounds
  obtain ⟨hdlow, hdhigh⟩ := dictDepth_bounds
  have hfreq : 4 * Config.freqDepth = Config.ibufBytes := by unfold Config.freqDepth; omega
  exact ⟨⟨hlow, hhigh, hmul, rfl, hfreq, hdlow, hdhigh, by decide⟩, State.readReg_parameters⟩

/-- Settles O56: no block step, the last of a command among them, changes `cmd`. -/
theorem endedCommandKeepsItsCmd : Obligations.EndedCommandKeepsItsCmd :=
  fun _ _ hb _ hr _ => step_block_cmd hb hr

/-- Settles O59: each value as reset sets it. -/
theorem resetLeavesTheSpecsValues : Obligations.ResetLeavesTheSpecsValues :=
  ⟨by decide, rfl, rfl, rfl, rfl, rfl, rfl, rfl, rfl, rfl, rfl, rfl, slotOf_nil, rfl, rfl, rfl, rfl,
    fun _ => ⟨rfl, rfl⟩, State.readReg_parameters _⟩

/-- Settles O60: the reset's turn overwrites the state whatever it was. -/
theorem hardwareResetSetsEveryResetValue : Obligations.HardwareResetSetsEveryResetValue := by
  intro s ts h
  refine ⟨_, step_reset h, ?_⟩
  rw [State.popTurn_eq h]
  rfl

/-- Settles O45: the invariant leaves only HAZ and BUSY_WR of STATUS free while a command runs. -/
theorem whileBusyOnlyHazAndBusyWrCanBeSet : Obligations.WhileBusyOnlyHazAndBusyWrCanBeSet := by
  intro s hs hbusy k hk
  rw [State.readReg_status, Status.getLsbD_word, if_pos rfl, State.busy_eq_true] at hbusy
  rw [State.readReg_status, hs.busyStatus hbusy, Status.getLsbD_word] at hk
  simp only [Status.clear, ErrCode.bits] at hk
  grind

/-- Settles O46, from the bits of the word. -/
theorem statusFieldsStandAtTheirBits : Obligations.StatusFieldsStandAtTheirBits := by
  intro s
  simp only [State.readReg_status, Status.getLsbD_word]
  refine ⟨by simp, rfl, rfl, rfl, rfl, rfl, ?_, ?_, ?_⟩
  · refine BitVec.eq_of_getLsbD_eq fun i hi => ?_
    rw [BitVec.getLsbD_extractLsb', Status.getLsbD_word]
    interval_cases i <;> simp
  · refine BitVec.eq_of_getLsbD_eq fun i hi => ?_
    rw [BitVec.getLsbD_extractLsb', Status.getLsbD_word]
    grind
  · have herr : (s.status.word s.busy).extractLsb' 8 4 = s.status.err.bits := by
      refine BitVec.eq_of_getLsbD_eq fun i hi => ?_
      rw [BitVec.getLsbD_extractLsb', Status.getLsbD_word]
      grind
    rw [herr]
    cases s.status.err <;> rfl

/-- Settles O49: each of the four offsets is its register, and the "width used" bits are a mask. -/
theorem plainRegistersReadBackWhatIsWritten : Obligations.PlainRegistersReadBackWhatIsWritten := by
  intro s off v ts h hp
  refine ⟨?_, ?_, ?_, ?_⟩ <;> rintro rfl
  · exact ⟨_, step_regWrite_idle h hp (by decide), rfl, low_bits_eq_and v 16⟩
  · exact ⟨_, step_regWrite_idle h hp (by decide), rfl, low_bits_eq_and v 8⟩
  · exact ⟨_, step_regWrite_idle h hp (by decide), rfl, rfl⟩
  · exact ⟨_, step_regWrite_idle h hp (by decide), rfl, rfl⟩

/-- Settles O50: both offsets of a slot's window load that slot. -/
theorem dictWindowWriteLoadsOneSlot : Obligations.DictWindowWriteLoadsOneSlot := by
  intro s off j v ts h hp hj
  have hcode : v.extractLsb' 0 16 = BitVec.ofNat 16 v.toNat :=
    BitVec.eq_of_toNat_eq (by simp [BitVec.extractLsb'_toNat])
  refine ⟨?_, ?_⟩ <;> rintro rfl
  · refine ⟨_, step_regWrite_idle h hp (by omega), ?_⟩
    rw [regAt_dictChunk hj]
    exact ⟨rfl, State.loadSlot_slots ..⟩
  · refine ⟨_, step_regWrite_idle h hp (by omega), ?_⟩
    rw [regAt_dictCode hj, ← hcode]
    exact ⟨rfl, State.loadSlot_slots ..⟩

/-- Settles O51, by what the map holds at the offset. -/
theorem otherRegisterWritesHaveNoEffect : Obligations.OtherRegisterWritesHaveNoEffect := by
  intro s off v ts h hp h0 hbase htop hlen hsize hwin
  rw [step_regWrite_idle h hp h0]
  refine congrArg _ ?_
  rcases regAt_cases off with ⟨_, hm⟩ | ⟨j, hj, ⟨ho, _⟩ | ⟨ho, _⟩ | ⟨_, hr⟩⟩ | hr
  · exact State.writeReg_fixed v _ _ hm (by simp [hbase, htop, hlen, hsize])
  · exact absurd ho (hwin j hj).1
  · exact absurd ho (hwin j hj).2
  · rw [hr]; rfl
  · rw [hr]; rfl

/-- Settles O43, by whose turn the step is. -/
theorem everyStepKeepsTheInvariant : Obligations.EveryStepKeepsTheInvariant := by
  intro s t h hr
  rcases s.turn_cases with hb | ⟨ts, hts⟩ | ⟨x, ts, hx⟩
  · exact h.blockTurn hb hr
  · rw [step_reset hts] at hr
    cases hr
    exact s.popTurn.hardwareReset_inv
  · exact h.hostTurn hx hr

end Sys2Proof.Machine
end

section
/-! PROOFS. The running command's memory: from a state of the invariant no access leaves IBUF or OBUF, the host
cannot reach what the block works on, and the block leaves its inputs as they are. -/

namespace Sys2Proof.Machine

/-! ## A chunk that does not fit OBUF -/

/-- A chunk emitted past OBUF's end stops the machine (log entry 12). -/
theorem emitChunk_outside {ch : Chunk} {dpos : BitVec 32} {s : State} (h : Config.obufBytes < s.opos.toNat + 4) :
    emitChunk ch dpos s = .fault .obufWriteOutOfRange :=
  memWrite_outside h

/-- Settles O25: both forms emit a chunk at `opos`. -/
theorem chunkOutsideObufStops : Obligations.ChunkOutsideObufStops := by
  intro c key s h
  refine ⟨?_, fun hk => ?_⟩
  · rw [exec_verbatim, emitChunk_outside h]
  · rw [exec_code_known hk, emitChunk_outside h]

/-! ## Steps that answer a next state -/

section
variable {s : State}

/-- A command word is dropped, refused or accepted, and each answers a next state (R176, R177). -/
theorem exec_decodeCtrl_answers (w : Word) (s : State) : ∃ t, exec (decodeCtrl w) s = .next t := by
  obtain ⟨act, hexec, _⟩ := exec_commandOf (w.extractLsb' 4 28) (w.extractLsb' 0 4) s
  rcases ctrlWrite_cases hexec.symm with ⟨_, h⟩ | ⟨_, _, _, h⟩ | ⟨_, _, h⟩ <;> exact ⟨_, h⟩

/-- A chunk before the padded input's end lies inside IBUF (R67, R102). -/
theorem State.Padded.chunk_inside (h : s.Padded) (hl : s.inLen.toNat ≤ Config.ibufBytes)
    (hlt : s.pos.toNat < s.chunkCount) : 4 * s.pos.toNat + 4 ≤ Config.ibufBytes := by
  have := (h.le_ibufBytes hl).1
  unfold State.chunkCount at hlt
  omega

/-- A chunk is encoded where four bytes of OBUF are left (R140, R141). -/
theorem encodeChunk_answers (c : Chunk) (h : s.opos.toNat + 4 ≤ Config.obufBytes) :
    ∃ t, encodeChunk c s = .next t := by
  cases hk : lookupChunk s.dict c with
  | some code => exact ⟨_, encodeChunk_hit hk (by omega)⟩
  | none => exact ⟨_, encodeChunk_miss hk h⟩

/-- Phase COUNT has a row for every position up to the number of chunks (R185). -/
theorem countStep_answers (h : s.Inv) (hp : s.phase = .count) : ∃ t, countStep s = .next t := by
  obtain ⟨_, hpad, _, hle, _⟩ := (State.phaseInv_count hp).1 h.phaseInv
  rcases Nat.lt_or_eq_of_le hle with hlt | heq
  · exact ⟨_, countStep_chunk hlt (hpad.chunk_inside (h.busyLen (by simp [hp])) hlt)⟩
  · exact ⟨_, countStep_exit heq⟩

/-- Phase SELECT has a row for ANALYZE and for COMPRESS (R185). -/
theorem selectStep_answers (h : s.Inv) (hp : s.phase = .select) : ∃ t, selectStep s = .next t := by
  obtain ⟨hc | hc, _⟩ := (State.phaseInv_select hp).1 h.phaseInv
  · exact ⟨_, selectStep_analyze hc⟩
  · exact ⟨_, selectStep_compress hc⟩

/-- Phase ENC reads inside IBUF and, with `opos ≤ 4 * pos`, writes inside OBUF (R144, R185). -/
theorem encStep_answers (h : s.Inv) (hp : s.phase = .enc) : ∃ t, encStep s = .next t := by
  obtain ⟨_, hpad, _, hle, _, _, hhigh, _⟩ := (State.phaseInv_enc hp).1 h.phaseInv
  rcases Nat.lt_or_eq_of_le hle with hlt | heq
  · have hb := hpad.chunk_inside (h.busyLen (by simp [hp])) hlt
    rw [encStep_chunk hlt hb]
    exact encodeChunk_answers _ (by rw [obufBytes_eq]; omega)
  · exact ⟨_, encStep_exit heq⟩

/-- Outside phase DEC the block's step answers a next state (R184, R185). -/
theorem blockStep_answers (h : s.Inv) (hp : s.phase ≠ .dec) : ∃ t, blockStep s = .next t := by
  cases hq : s.phase with
  | idle => exact ⟨s, blockStep_idle hq⟩
  | count => rw [blockStep_count hq]; exact countStep_answers h hq
  | select => rw [blockStep_select hq]; exact selectStep_answers h hq
  | enc => rw [blockStep_enc hq]; exact encStep_answers h hq
  | dec => exact absurd hq hp

/-- In phase DEC a form is read inside IBUF; with two bytes or more left and `opos ≤ 2 * pos`, its chunk fits
OBUF (R155, R162). -/
theorem decStep_answers (h : s.Inv) (hb : s.BlockTurn) (hp : s.phase = .dec) : ∃ t, step s = .next t := by
  obtain ⟨_, _, _, hle, _, hbound, _⟩ := (State.phaseInv_dec hp).1 h.phaseInv
  have hlen := h.busyLen (by simp [hp])
  have hroom : 2 ≤ s.bytesLeft → s.popTurn.opos.toNat + 4 ≤ Config.obufBytes := by
    intro hleft
    unfold State.bytesLeft at hleft
    rw [obufBytes_eq, State.popTurn_opos]
    omega
  rw [step_form hb hp hle hlen]
  rcases decode_streamWindow s with ⟨_, hw⟩ | ⟨_, hw⟩ | ⟨hleft, _, ⟨ch, hk, hw⟩ | ⟨_, hw⟩⟩ | ⟨_, _, _, _, hw⟩ |
    ⟨hleft, _, hw⟩ <;> rw [hw]
  · exact ⟨_, exec_endOfStream _⟩
  · exact ⟨_, exec_tailByte ..⟩
  · rw [exec_code_known (by exact hk)]
    exact ⟨_, emitChunk_inside (hroom hleft)⟩
  · exact ⟨_, exec_unknownCode ..⟩
  · exact ⟨_, exec_tailHalf ..⟩
  · rw [exec_verbatim]
    exact ⟨_, emitChunk_inside (hroom (by omega))⟩

/-- The host's turn answers a next state, in any state (R170). -/
theorem hostTurn_answers {x : Tx} {ts : List Turn} (hx : s.turns = .host x :: ts) : ∃ t, step s = .next t := by
  by_cases hctrl : ∃ off v, x = .regWrite off v ∧ regAt off = .ctrl
  · obtain ⟨off, v, rfl, ho⟩ := hctrl
    rw [step_ctrl hx ho]
    exact exec_decodeCtrl_answers v _
  · exact ⟨_, step_host hx fun off v he ho => hctrl ⟨off, v, he, ho⟩⟩

end

/-- Settles O44, by whose turn the step is. -/
theorem invariantStatesNeverStop : Obligations.InvariantStatesNeverStop := by
  intro s h
  rcases s.turn_cases with hb | ⟨ts, hts⟩ | ⟨x, ts, hx⟩
  · by_cases hp : s.phase = .dec
    · exact decStep_answers h hb hp
    · rw [step_block hb hp]
      exact blockStep_answers h.popTurn hp
  · exact ⟨_, step_reset hts⟩
  · exact hostTurn_answers hx

/-! ## The host while a command runs -/

/-- What the host can change of a state while a command runs: the model's own draws and replies, and BUSY_WR
(R176). -/
def State.withHostTrace (s : State) (draws : Nat) (replies : List Reply) (busyWr : Bool) : State :=
  { s with draws := draws, replies := replies, status := { s.status with busyWr := busyWr } }

/-- While a command runs, a host transaction other than a CTRL write leaves only its trace (R74, R176). -/
theorem hostStep_busy {s : State} (hp : s.phase ≠ .idle) (x : Tx) :
    ∃ draws replies busyWr, hostStep s x = s.withHostTrace draws replies busyWr := by
  cases x with
  | regRead off =>
    show ∃ _ _ _, hostRegRead off s = _
    by_cases hfree : (regAt off).unspecifiedWhileBusy = true
    · exact ⟨_, _, _, hostRegRead_busy_free hp hfree⟩
    by_cases hstatus : regAt off = .status
    · exact ⟨_, _, _, hostRegRead_busy_status hp hstatus⟩
    · exact ⟨_, _, _, hostRegRead_busy_exact (Bool.eq_false_iff.2 hfree) hstatus⟩
  | regWrite off v => exact ⟨_, _, _, hostRegWrite_busy off v hp⟩
  | ibufRead a => exact ⟨_, _, _, rfl⟩
  | ibufWrite a b => exact ⟨_, _, _, hostIbufWrite_busy a b hp⟩
  | obufRead a => exact ⟨_, _, _, hostObufRead_busy a hp⟩

/-- While a command runs, every command word is dropped (R176, R188). -/
theorem exec_decodeCtrl_busy {s : State} (hp : s.phase ≠ .idle) (w : Word) :
    exec (decodeCtrl w) s = .next s.dropWrite := by
  obtain ⟨act, hexec, _⟩ := exec_commandOf (w.extractLsb' 4 28) (w.extractLsb' 0 4) s
  exact hexec.trans (ctrlWrite_busy hp)

/-- While a command runs, the host's turn is taken off and leaves only its trace. -/
theorem step_host_busy {s : State} {x : Tx} {ts : List Turn} (hp : s.phase ≠ .idle)
    (hx : s.turns = .host x :: ts) :
    ∃ draws replies busyWr, step s = .next (s.popTurn.withHostTrace draws replies busyWr) := by
  by_cases hctrl : ∃ off v, x = .regWrite off v ∧ regAt off = .ctrl
  · obtain ⟨off, v, rfl, ho⟩ := hctrl
    exact ⟨_, _, _, (step_ctrl hx ho).trans (exec_decodeCtrl_busy (s := s.popTurn) hp v)⟩
  · obtain ⟨draws, replies, busyWr, hstep⟩ := hostStep_busy (s := s.popTurn) hp x
    exact ⟨draws, replies, busyWr,
      (step_host hx fun off v he ho => hctrl ⟨off, v, he, ho⟩).trans (congrArg _ hstep)⟩

/-- Settles O55: the host's trace is all that its transaction leaves. -/
theorem hostCannotDisturbARunningCommand : Obligations.HostCannotDisturbARunningCommand := by
  intro s t x ts hp hx hr
  obtain ⟨draws, replies, busyWr, hstep⟩ := step_host_busy hp hx
  rw [hstep, State.popTurn_eq hx] at hr
  cases hr
  rfl

/-! ## The block and its inputs -/

/-- What a block step from `s` to `t` leaves alone: the command's inputs, DICT outside SELECT and FREQ outside
COUNT (R60, R74, R184). -/
def State.InputsKept (s t : State) : Prop :=
  t.ibuf = s.ibuf ∧ t.ibufGen = s.ibufGen ∧ t.inLen = s.inLen ∧ t.codeBase = s.codeBase ∧ t.topN = s.topN ∧
    t.origSize = s.origSize ∧ (s.phase ≠ .select → t.dict = s.dict) ∧ (s.phase ≠ .count → t.freq = s.freq)

/-- One chunk encoded writes OBUF, HAZ and the positions only (R140, R141). -/
theorem encodeChunk_keeps_inputs {c : Chunk} {s t : State} (hr : encodeChunk c s = .next t) : s.InputsKept t := by
  rcases encodeChunk_cases hr with ⟨_, _, _, rfl⟩ | ⟨_, _, rfl⟩
  all_goals exact ⟨rfl, rfl, rfl, rfl, rfl, rfl, fun _ => rfl, fun _ => rfl⟩

/-- A block step outside phase DEC: COUNT writes FREQ, SELECT writes DICT, no other step either (R184, R185). -/
theorem blockStep_keeps_inputs {s t : State} (hr : blockStep s = .next t) : s.InputsKept t := by
  rcases blockStep_cases hr with ⟨_, rfl⟩ | ⟨hp, _, _, rfl⟩ | ⟨_, _, rfl⟩ | ⟨hp, _, rfl⟩ | ⟨hp, _, rfl⟩ |
    ⟨_, _, _, hr⟩ | ⟨_, _, rfl⟩
  · exact ⟨rfl, rfl, rfl, rfl, rfl, rfl, fun _ => rfl, fun _ => rfl⟩
  · exact ⟨rfl, rfl, rfl, rfl, rfl, rfl, fun _ => rfl, absurd hp⟩
  · exact ⟨rfl, rfl, rfl, rfl, rfl, rfl, fun _ => rfl, fun _ => rfl⟩
  · exact ⟨rfl, rfl, rfl, rfl, rfl, rfl, absurd hp, fun _ => rfl⟩
  · exact ⟨rfl, rfl, rfl, rfl, rfl, rfl, absurd hp, fun _ => rfl⟩
  · exact encodeChunk_keeps_inputs hr
  · exact ⟨rfl, rfl, rfl, rfl, rfl, rfl, fun _ => rfl, fun _ => rfl⟩

/-- A step of phase DEC emits a chunk or ends the command, and writes no input (R152 to R158). -/
theorem decStep_keeps_inputs {s t : State} (hb : s.BlockTurn) (hp : s.phase = .dec) (hr : step s = .next t) :
    s.InputsKept t := by
  obtain ⟨_, _, hcases⟩ := decStep_cases hb hp hr
  rcases hcases with ⟨_, rfl⟩ | ⟨_, rfl⟩ | ⟨_, _, _, _, _, rfl⟩ | ⟨_, _, _, rfl⟩ | ⟨_, _, _, rfl⟩ | ⟨_, _, _, rfl⟩
  all_goals exact ⟨rfl, rfl, rfl, rfl, rfl, rfl, fun _ => rfl, fun _ => rfl⟩

/-- The block's turn keeps the inputs, in any phase. -/
theorem step_block_keeps_inputs {s t : State} (hb : s.BlockTurn) (hr : step s = .next t) : s.InputsKept t := by
  by_cases hp : s.phase = .dec
  · exact decStep_keeps_inputs hb hp hr
  · exact blockStep_keeps_inputs (s := s.popTurn) (step_block hb hp ▸ hr)

/-- Settles O57, by whether the phase is DEC. -/
theorem blockStepLeavesTheInputsAlone : Obligations.BlockStepLeavesTheInputsAlone :=
  fun _ _ hb hr => step_block_keeps_inputs hb hr

end Sys2Proof.Machine
end

section
/-! PROOFS. The encodings: a command word and a stream form are read back from the words they are written as,
and no bit of what is read is lost. -/

namespace Sys2Proof

/-! ## The CMD field (R89, R90) -/

theorem decodeCtrl_commandWord (ign : BitVec 28) (c : BitVec 4) : decodeCtrl (ign ++ c : Word) = commandOf ign c := by
  rw [decodeCtrl, extract_commandWord_ignored, extract_commandWord_cmd ign c 4 (Nat.le_refl 4),
    BitVec.extractLsb'_eq_self]

/-- RESERVED_CMD_6_7 is CMD 6 and 7, by its low bit. -/
theorem reserved67_field : ∀ low : BitVec 1,
    (0b011#3 ++ low).toNat = 6 + low.toNat ∧ (0b011#3 ++ low).extractLsb' 0 1 = low := by decide

/-- RESERVED_CMD_8_F is CMD 8 to 15, by its low bits. -/
theorem reserved8F_field : ∀ low : BitVec 3,
    (0b1#1 ++ low).toNat = 8 + low.toNat ∧ (0b1#1 ++ low).extractLsb' 0 3 = low := by decide

/-- CMD 6 and 7 are the field of RESERVED_CMD_6_7. -/
theorem field_reserved67 : ∀ c : BitVec 4, c.toNat = 6 ∨ c.toNat = 7 → 0b011#3 ++ c.extractLsb' 0 1 = c := by
  decide

/-- CMD 8 to 15 are the field of RESERVED_CMD_8_F. -/
theorem field_reserved8F : ∀ c : BitVec 4, 8 ≤ c.toNat → 0b1#1 ++ c.extractLsb' 0 3 = c := by decide

theorem commandOf_67 (ign : BitVec 28) {c : BitVec 4} (h : c.toNat = 6 ∨ c.toNat = 7) :
    commandOf ign c = .reservedCmd67 ign (c.extractLsb' 0 1) := by
  rcases h with h | h <;> rw [commandOf, h] <;> rfl

theorem commandOf_8F (ign : BitVec 28) {c : BitVec 4} (h : 8 ≤ c.toNat) :
    commandOf ign c = .reservedCmd8F ign (c.extractLsb' 0 3) := by
  unfold commandOf
  split
  case h_9 => rfl
  all_goals omega

/-- A CMD field is reserved or one of the six commands' (R89, R90). -/
theorem cmd_cases (c : BitVec 4) :
    8 ≤ c.toNat ∨ (c.toNat = 6 ∨ c.toNat = 7) ∨ c = 0 ∨ c = 1 ∨ c = 2 ∨ c = 3 ∨ c = 4 ∨ c = 5 := by
  revert c; decide

/-- No bit of a command word is lost (R89). -/
theorem encode_commandOf (ign : BitVec 28) (c : BitVec 4) : encode (commandOf ign c) = ctrlWord ign c := by
  rcases cmd_cases c with h | h | rfl | rfl | rfl | rfl | rfl | rfl
  · rw [commandOf_8F ign h, encode, field_reserved8F c h]
  · rw [commandOf_67 ign h, encode, field_reserved67 c h]
  all_goals rfl

theorem encode_decodeCtrl (w : Word) : encode (decodeCtrl w) = .ctrl w := by
  rw [decodeCtrl, encode_commandOf, ctrlWord, commandWord_split]

/-- Every command word's fields are free (R89). -/
theorem commandOf_wellFormed (ign : BitVec 28) (c : BitVec 4) : (commandOf ign c).wellFormed = true := by
  unfold commandOf
  split <;> rfl

/-! ## The stream's next form, by the bytes left and the tag (R86) -/

section
variable (known : StreamUnit → Bool) {b0 : Byte} (b1 : Byte)

theorem decodeStream_tagged (ht : b0.getLsbD 7 = true) (rest : List Byte) :
    decodeStream known (b0 :: b1 :: rest) =
      if known (unitOfBytes b0 b1) then .code (unitOfBytes b0 b1) else .unknownCode (unitOfBytes b0 b1) :=
  if_pos ((tagged_unitOfBytes b0 b1).trans ht)

theorem decodeStream_half (ht : b0.getLsbD 7 = false) (extra : Option Byte) :
    decodeStream known (b0 :: b1 :: extra.toList) = .tailHalf (unitOfBytes b0 b1) extra := by
  have hu := ne_true_of_eq_false ((tagged_unitOfBytes b0 b1).trans ht)
  cases extra with
  | none => exact if_neg hu
  | some b2 => exact if_neg hu

theorem decodeStream_pair (ht : b0.getLsbD 7 = false) (b2 b3 : Byte) (rest : List Byte) :
    decodeStream known (b0 :: b1 :: b2 :: b3 :: rest) = .verbatim (chunkOfBytes b0 b1 b2 b3) :=
  if_neg (ne_true_of_eq_false ((tagged_unitOfBytes b0 b1).trans ht))

/-- A tagged unit is read as CODE or UNKNOWN_CODE (R82). -/
theorem decodeStream_code_or_unknownCode (ht : b0.getLsbD 7 = true) (rest : List Byte) :
    decodeStream known (b0 :: b1 :: rest) = .code (unitOfBytes b0 b1) ∨
      decodeStream known (b0 :: b1 :: rest) = .unknownCode (unitOfBytes b0 b1) := by
  rw [decodeStream_tagged known b1 ht]
  cases known (unitOfBytes b0 b1)
  · exact .inr rfl
  · exact .inl rfl

end

/-- Every stream's next form, with the bytes it is read from (R86). -/
theorem decodeStream_cases (known : StreamUnit → Bool) (bs : List Byte) :
    (bs = [] ∧ decodeStream known bs = .endOfStream) ∨
    (∃ b, bs = [b] ∧ decodeStream known bs = .tailByte b) ∨
    (∃ b0 b1 rest, bs = b0 :: b1 :: rest ∧ b0.getLsbD 7 = true ∧
      (decodeStream known bs = .code (unitOfBytes b0 b1) ∨
        decodeStream known bs = .unknownCode (unitOfBytes b0 b1))) ∨
    (∃ b0 b1 extra, bs = b0 :: b1 :: Option.toList extra ∧ b0.getLsbD 7 = false ∧
      decodeStream known bs = .tailHalf (unitOfBytes b0 b1) extra) ∨
    (∃ b0 b1 b2 b3 rest, bs = b0 :: b1 :: b2 :: b3 :: rest ∧ b0.getLsbD 7 = false ∧
      decodeStream known bs = .verbatim (chunkOfBytes b0 b1 b2 b3)) := by
  match bs with
  | [] => exact .inl ⟨rfl, rfl⟩
  | [b] => exact .inr (.inl ⟨b, rfl, rfl⟩)
  | b0 :: b1 :: rest =>
    cases ht : b0.getLsbD 7 with
    | true =>
      exact .inr (.inr (.inl ⟨b0, b1, rest, rfl, ht, decodeStream_code_or_unknownCode known b1 ht rest⟩))
    | false =>
      match rest with
      | [] => exact .inr (.inr (.inr (.inl ⟨b0, b1, none, rfl, ht, decodeStream_half known b1 ht none⟩)))
      | [b2] => exact .inr (.inr (.inr (.inl ⟨b0, b1, some b2, rfl, ht, decodeStream_half known b1 ht (some b2)⟩)))
      | b2 :: b3 :: rest =>
        exact .inr (.inr (.inr (.inr ⟨b0, b1, b2, b3, rest, rfl, ht, decodeStream_pair known b1 ht b2 b3 rest⟩)))

/-! ## The bytes of each form -/

theorem encode_code (b0 b1 : Byte) : encode (.code (unitOfBytes b0 b1)) = .stream [b0, b1] := by
  rw [encode, unitBytes_unitOfBytes]

theorem encode_unknownCode (b0 b1 : Byte) : encode (.unknownCode (unitOfBytes b0 b1)) = .stream [b0, b1] := by
  rw [encode, unitBytes_unitOfBytes]

theorem encode_tailHalf (b0 b1 : Byte) (extra : Option Byte) :
    encode (.tailHalf (unitOfBytes b0 b1) extra) = .stream (b0 :: b1 :: extra.toList) := by
  rw [encode, unitBytes_unitOfBytes]; rfl

theorem encode_verbatim (b0 b1 b2 b3 : Byte) :
    encode (.verbatim (chunkOfBytes b0 b1 b2 b3)) = .stream [b0, b1, b2, b3] := by
  rw [encode, chunkBytes_chunkOfBytes]

/-- No byte of a stream is lost: the next form's bytes are the stream's next bytes (R86). -/
theorem encode_decodeStream (known : StreamUnit → Bool) (bs : List Byte) :
    ∃ taken rest, encode (decodeStream known bs) = .stream taken ∧
      bs = taken ++ rest ∧ (rest = [] ∨ taken.length = 2 ∨ taken.length = 4) := by
  rcases decodeStream_cases known bs with ⟨rfl, hd⟩ | ⟨b, rfl, hd⟩ | ⟨b0, b1, rest, rfl, _, hd | hd⟩ |
    ⟨b0, b1, extra, rfl, _, hd⟩ | ⟨b0, b1, b2, b3, rest, rfl, _, hd⟩ <;> rw [hd]
  · exact ⟨[], [], rfl, rfl, .inl rfl⟩
  · exact ⟨[b], [], rfl, rfl, .inl rfl⟩
  · exact ⟨[b0, b1], rest, encode_code b0 b1, rfl, .inr (.inl rfl)⟩
  · exact ⟨[b0, b1], rest, encode_unknownCode b0 b1, rfl, .inr (.inl rfl)⟩
  · exact ⟨_, [], encode_tailHalf b0 b1 extra, (List.append_nil _).symm, .inl rfl⟩
  · exact ⟨[b0, b1, b2, b3], rest, encode_verbatim b0 b1 b2 b3, rfl, .inr (.inr rfl)⟩

/-- A form's tag bit is the one it was read by (R82 to R84). -/
theorem decodeStream_wellFormed (known : StreamUnit → Bool) (bs : List Byte) :
    (decodeStream known bs).wellFormed = true := by
  rcases decodeStream_cases known bs with ⟨_, hd⟩ | ⟨_, _, hd⟩ | ⟨b0, b1, _, _, ht, hd | hd⟩ |
    ⟨b0, b1, _, _, ht, hd⟩ | ⟨b0, b1, b2, b3, _, _, ht, hd⟩ <;> rw [hd, Instr.wellFormed]
  · rw [tagged_unitOfBytes, ht]
  · rw [tagged_unitOfBytes, ht]
  · rw [tagged_unitOfBytes, ht]; rfl
  · rw [chunkOfBytes, tag_chunkOfUnits, tagged_unitOfBytes, ht]; rfl

/-! ## Reading back what is written -/

/-- A code unit is read back as the dictionary's knowledge of its key says (R82, R150). -/
theorem decodeStream_unitBytes_tagged (known : StreamUnit → Bool) {key : StreamUnit}
    (ht : StreamUnit.tagged key = true) :
    decodeStream known (unitBytes key) = if known key then .code key else .unknownCode key := by
  rw [unitBytes, decodeStream_tagged known _ (by rwa [Laws.TagBit.first_byte]), unitOfBytes_extract]

theorem decodeStream_unitBytes_untagged (known : StreamUnit → Bool) {u0 : StreamUnit}
    (ht : StreamUnit.tagged u0 = false) (extra : Option Byte) :
    decodeStream known (unitBytes u0 ++ extra.toList) = .tailHalf u0 extra :=
  (decodeStream_half known _ (by rwa [Laws.TagBit.first_byte]) extra).trans (by rw [unitOfBytes_extract])

theorem decodeStream_chunkBytes (known : StreamUnit → Bool) {c : Chunk} (ht : c.getLsbD 31 = false) :
    decodeStream known (chunkBytes c) = .verbatim c := by
  rw [chunkBytes, decodeStream_pair known _ (by rwa [BitVec.getLsbD_extractLsb']), chunkOfBytes_extract]

/-- Settles O1, constructor by constructor. -/
theorem decodeOfEncodeIsTheInstruction : Obligations.DecodeOfEncodeIsTheInstruction := by
  intro known i hwf hcode hunknown
  cases i with
  | nop ign => exact decodeCtrl_commandWord ign 0
  | analyze ign => exact decodeCtrl_commandWord ign 1
  | encode ign => exact decodeCtrl_commandWord ign 2
  | compress ign => exact decodeCtrl_commandWord ign 3
  | decode ign => exact decodeCtrl_commandWord ign 4
  | dictClear ign => exact decodeCtrl_commandWord ign 5
  | reservedCmd67 ign low =>
    obtain ⟨hfield, hlow⟩ := reserved67_field low
    exact (decodeCtrl_commandWord ign _).trans ((commandOf_67 ign (by omega)).trans (by rw [hlow]))
  | reservedCmd8F ign low =>
    obtain ⟨hfield, hlow⟩ := reserved8F_field low
    exact (decodeCtrl_commandWord ign _).trans ((commandOf_8F ign (by omega)).trans (by rw [hlow]))
  | code key => exact (decodeStream_unitBytes_tagged known hwf).trans (if_pos (hcode key rfl))
  | unknownCode key =>
    exact (decodeStream_unitBytes_tagged known hwf).trans (if_neg (by rw [hunknown key rfl]; decide))
  | verbatim c => exact decodeStream_chunkBytes known (Bool.not_eq_true' _ ▸ hwf)
  | tailHalf u0 extra => exact decodeStream_unitBytes_untagged known (Bool.not_eq_true' _ ▸ hwf) extra
  | tailByte b => rfl
  | endOfStream => rfl

/-- Settles O2: command words field by field, the stream form by form. -/
theorem encodeOfDecodeIsTheWords : Obligations.EncodeOfDecodeIsTheWords :=
  fun known => ⟨encode_decodeCtrl, encode_decodeStream known⟩

/-- Settles O3. -/
theorem decodedInstructionIsWellFormed : Obligations.DecodedInstructionIsWellFormed := by
  intro known ws
  cases ws with
  | ctrl w => exact commandOf_wellFormed _ _
  | stream bs => exact decodeStream_wellFormed known bs

/-- Settles O4, each clause by the shape its length gives the stream. -/
theorem streamFormFollowsBytesLeftAndTag : Obligations.StreamFormFollowsBytesLeftAndTag := by
  intro known bs
  simp only [decode]
  refine ⟨fun hlen => ?_, fun hlen => ?_, fun b hlen hb ht => ?_, fun b hlen hb ht => ?_,
    fun b hlen hlen' hb ht => ?_⟩
  · rw [List.length_eq_zero_iff.1 hlen]; rfl
  · obtain ⟨b, rfl⟩ := List.length_eq_one_iff.1 hlen
    exact ⟨b, rfl, rfl⟩
  · match bs, hlen with
    | b0 :: b1 :: rest, _ =>
      cases hb
      have hd := decodeStream_code_or_unknownCode known b1 ht rest
      refine ⟨_, hd, ?_⟩
      rcases hd with hd | hd <;> rw [hd]
      · exact encode_code b b1
      · exact encode_unknownCode b b1
  · match bs, hlen with
    | b0 :: b1 :: b2 :: b3 :: rest, _ =>
      cases hb
      rw [decodeStream_pair known b1 ht]
      exact ⟨_, rfl, encode_verbatim b b1 b2 b3⟩
  · obtain ⟨b1, extra, rfl⟩ : ∃ b1 extra, bs = b :: b1 :: Option.toList extra := by
      match bs, hlen, hlen' with
      | [b0, b1], _, _ => cases hb; exact ⟨b1, none, rfl⟩
      | [b0, b1, b2], _, _ => cases hb; exact ⟨b1, some b2, rfl⟩
    rw [decodeStream_half known b1 ht]
    exact ⟨_, _, rfl, encode_tailHalf b b1 extra⟩

/-- Settles O5: each word by its CMD field, each stream by its first byte's tag and the bytes left. -/
theorem specWordsDecodeAsWritten : Obligations.SpecWordsDecodeAsWritten :=
  ⟨decodeCtrl_commandWord 1 3, decodeCtrl_commandWord 0xFFFFFFF 0, decodeCtrl_commandWord 0 9,
    decodeStream_tagged (fun _ => true) (b0 := 0x80) 0x01 rfl [0x12],
    decodeStream_tagged (fun _ => false) (b0 := 0x90) 0x00 rfl [0x00, 0x00],
    decodeStream_pair (fun _ => true) (b0 := 0x05) 0x06 rfl 0x80 0x01 [],
    decodeStream_half (fun _ => true) (b0 := 0x12) 0x34 rfl (some 0x56)⟩

namespace Machine

/-! ## Reserved commands at acceptance -/

/-- A CTRL write whose CMD is 6 or above is refused (R90, R202). -/
theorem ctrlWrite_reserved {c : BitVec 4} {act : State → State} {s : State} (hp : s.phase = .idle)
    (hc : 6 ≤ c.toNat) : ctrlWrite c act s = .next (s.clearForCommand.refuse .badCmd) :=
  ctrlWrite_refused hp (check_badCmd _ hc)

/-- Settles O12: both rows' CMD fields are 6 or above. -/
theorem reservedCommandIsRefusedWithBadCmd : Obligations.ReservedCommandIsRefusedWithBadCmd := by
  refine fun s hp => ⟨fun ign low => ?_, fun ign low => ?_⟩
  · have hfield := (reserved67_field low).1
    exact (exec_reservedCmd67 ign low s).trans (ctrlWrite_reserved hp (by omega))
  · have hfield := (reserved8F_field low).1
    exact (exec_reservedCmd8F ign low s).trans (ctrlWrite_reserved hp (by omega))

/-! ## The encoded stream's length -/

/-- A chunk takes two bytes where the dictionary has it and four where it has not (R140, R141). -/
theorem chunkOutput_length (dict : List Slot) (c : Chunk) :
    (chunkOutput dict c).length = if (lookupChunk dict c).isSome then 2 else 4 := by
  unfold chunkOutput
  cases lookupChunk dict c <;> rfl

theorem encodedBytes_cons (dict : List Slot) (c : Chunk) (cs : List Chunk) :
    encodedBytes dict (c :: cs) = chunkOutput dict c ++ encodedBytes dict cs := List.flatMap_cons

/-- Two bytes a hit and four a miss, without subtraction (R92). -/
theorem encodedBytes_length (dict : List Slot) (chunks : List Chunk) :
    (encodedBytes dict chunks).length + 2 * chunks.countP (fun c => (lookupChunk dict c).isSome) =
      4 * chunks.length := by
  induction chunks with
  | nil => rfl
  | cons c cs ih =>
    rw [encodedBytes_cons, List.length_append, chunkOutput_length, List.countP_cons, List.length_cons]
    split_ifs <;> omega

/-- Settles O35: the hits are at most all the chunks. -/
theorem encodedLengthIsBetweenHalfAndWhole : Obligations.EncodedLengthIsBetweenHalfAndWhole := by
  intro dict chunks
  have hlen := encodedBytes_length dict chunks
  have hhits := List.countP_le_length (p := fun c => (lookupChunk dict c).isSome) (l := chunks)
  omega

end Machine

end Sys2Proof
end

section
/-! PROOFS. The chunker: the commands that take the input in chunks pad it at acceptance, and a chunk read is
four bytes of the padded input. -/

namespace Sys2Proof.Machine

section
variable {s : State}

/-! ## Acceptance of the commands that pad the input (R179 to R181) -/

/-- ANALYZE and COMPRESS are accepted under CFG_CHECK's conditions on naturals (R121, R177). -/
theorem ctrlWrite_startCount {c : BitVec 4} {cmd : Cmd} (hc : c = 1#4 ∨ c = 3#4) (hp : s.phase = .idle)
    (hl : s.inLen.toNat ≤ Config.ibufBytes) (hbase : 0x8000 ≤ s.codeBase.toNat)
    (htop : s.topN.toNat ≤ Config.dictDepth) (hsum : s.codeBase.toNat + s.topN.toNat ≤ 0x10000) :
    ctrlWrite c (State.startCount cmd) s = .next (s.clearForCommand.startCount cmd) :=
  have hconf : configOk s.codeBase s.topN = true := configOk_iff.2 ⟨(tagged_iff_le _).2 hbase, htop, hsum⟩
  ctrlWrite_accepted hp (check_analyzer_none hc hl hconf)

/-- ENCODE is accepted with a well-formed dictionary (R177, R180). -/
theorem exec_encode_accepted (ign : BitVec 28) (hp : s.phase = .idle) (hl : s.inLen.toNat ≤ Config.ibufBytes)
    (hd : dictWellFormed s.dict = true) :
    exec (.encode ign) s = .next (s.clearForCommand.pad.rewind.start .encode .enc) :=
  (exec_encode ign s).trans (ctrlWrite_accepted hp (check_codec_none (.inl rfl) hl hd))

/-! ## The bytes of a chunk (R101, R103) -/

theorem State.padByte_of_lt {a : Nat} (h : a < s.inLen.toNat) : s.padByte a = s.ibufByte a := if_pos h

theorem State.padByte_of_le {a : Nat} (h : s.inLen.toNat ≤ a) : s.padByte a = 0 := if_neg (Nat.not_lt.2 h)

/-- Byte `t` of a chunk, the most significant first, is the padded input's byte `t` after the chunk's address. -/
theorem State.extract_chunkAt (s : State) (k : Nat) {t : Nat} (ht : t < 4) :
    (s.chunkAt k).extractLsb' (24 - 8 * t) 8 = s.padByte (4 * k + t) := by
  obtain ⟨h0, h1, h2, h3⟩ := extract_chunkOfBytes (s.padByte (4 * k)) (s.padByte (4 * k + 1))
    (s.padByte (4 * k + 2)) (s.padByte (4 * k + 3))
  match t, ht with
  | 0, _ => exact h0
  | 1, _ => exact h1
  | 2, _ => exact h2
  | 3, _ => exact h3

end

/-! ## The statements about the chunker settled -/

/-- Settles O13: both commands have one acceptance action, and PAD's results do not wrap. -/
theorem analyzeAndCompressStartCounting : Obligations.AnalyzeAndCompressStartCounting := by
  intro ign s hp hl hbase htop hsum
  have hpad := State.pad_toNat hl
  exact ⟨⟨_, (exec_analyze ign s).trans (ctrlWrite_startCount (.inl rfl) hp hl hbase htop hsum), rfl, hpad⟩,
    ⟨_, (exec_compress ign s).trans (ctrlWrite_startCount (.inr rfl) hp hl hbase htop hsum), rfl, hpad⟩⟩

/-- Settles O14: what ENCODE's acceptance leaves, PAD's results unwrapped. -/
theorem encodeStartsEncoding : Obligations.EncodeStartsEncoding :=
  fun ign _ hp hl hd => ⟨_, exec_encode_accepted ign hp hl hd, rfl, State.pad_toNat hl⟩

/-- Settles O27: a chunk's byte is the padded input's, which IN_LEN divides from IBUF's. -/
theorem chunkReadPadsWithZeros : Obligations.ChunkReadPadsWithZeros := by
  intro s k t ht
  rw [s.extract_chunkAt k ht]
  exact ⟨State.padByte_of_lt, State.padByte_of_le⟩

end Sys2Proof.Machine
end

section
/-! PROOFS. The frequency analyzer: what FREQ holds after phase COUNT, which of its entries SELECT takes and in
which order, and the whole run of an accepted ANALYZE. -/

namespace Sys2Proof.Machine

/-! ## COUNT of one chunk (R110) -/

/-- A chunk that no entry holds is appended. -/
theorem countChunk_of_new {c : Chunk} {l : List FreqEntry} (h : ∀ e ∈ l, e.chunk ≠ c) :
    countChunk c l = l ++ [{ chunk := c, count := 1 }] := by
  induction l with
  | nil => rfl
  | cons e l ih =>
    rw [countChunk, if_neg (h e (by simp)), ih fun x hx => h x (by simp [hx]), List.cons_append]

/-- The first entry that holds the chunk is counted up, in its place. -/
theorem countChunk_of_first {c : Chunk} {l : List FreqEntry} {n : Nat} {e : FreqEntry} (hn : l[n]? = some e)
    (hc : e.chunk = c) (hfirst : ∀ (m : Nat) (e' : FreqEntry), m < n → l[m]? = some e' → e'.chunk ≠ c) :
    countChunk c l = l.set n { e with count := e.count + 1 } := by
  induction l generalizing n with
  | nil => simp at hn
  | cons x l ih =>
    rw [countChunk]
    cases n with
    | zero =>
      cases hn
      rw [if_pos hc, List.set_cons_zero]
    | succ n =>
      have hx : x.chunk ≠ c := hfirst 0 x (Nat.succ_pos n) rfl
      have hrest := ih hn fun m e' hm he' => hfirst (m + 1) e' (Nat.succ_lt_succ hm) he'
      rw [if_neg hx, hrest, List.set_cons_succ]

/-- The chunks of FREQ after one more count. -/
theorem mem_countChunk_chunks {c x : Chunk} {l : List FreqEntry} :
    x ∈ (countChunk c l).map (·.chunk) ↔ x ∈ l.map (·.chunk) ∨ x = c := by
  rw [countChunk_chunks]
  split_ifs with hc
  · exact ⟨.inl, fun h => h.elim id fun hx => hx ▸ hc⟩
  · rw [List.mem_append, List.mem_singleton]

/-! ## FREQ after a list of chunks (R111) -/

theorem freqOf_append_singleton (cs : List Chunk) (c : Chunk) : freqOf (cs ++ [c]) = countChunk c (freqOf cs) := by
  simp [freqOf]

/-- FREQ's entries of a list of chunks add up to its length. -/
theorem freqOf_sums (cs : List Chunk) (h : cs.length < 2 ^ 32) : FreqSums (freqOf cs) cs.length := by
  induction cs using List.reverseRecOn with
  | nil => exact FreqSums.nil
  | append_singleton cs c ih =>
    rw [List.length_append] at h ⊢
    rw [freqOf_append_singleton]
    exact (ih (by omega)).countChunk h c

theorem mem_freqOf_chunks {cs : List Chunk} {x : Chunk} : x ∈ (freqOf cs).map (·.chunk) ↔ x ∈ cs := by
  induction cs using List.reverseRecOn with
  | nil => rfl
  | append_singleton cs c ih =>
    rw [freqOf_append_singleton, mem_countChunk_chunks, ih, List.mem_append, List.mem_singleton]

/-- There are at most as many distinct chunks as chunks. -/
theorem freqOf_length_le {cs : List Chunk} (h : cs.length < 2 ^ 32) : (freqOf cs).length ≤ cs.length := by
  have hsub := (freqOf_sums cs h).distinctChunks.subperm fun _ hx => mem_freqOf_chunks.1 hx
  simpa using hsub.length_le

/-- The first occurrences of the chunks a list holds are not moved by one more chunk. -/
theorem pairwise_idxOf_append {l cs : List Chunk} (c : Chunk) (hl : ∀ x ∈ l, x ∈ cs)
    (h : l.Pairwise fun x y => cs.idxOf x < cs.idxOf y) :
    l.Pairwise fun x y => (cs ++ [c]).idxOf x < (cs ++ [c]).idxOf y := by
  refine h.imp_of_mem fun {x y} hx hy hlt => ?_
  rwa [List.idxOf_append_of_mem (hl x hx), List.idxOf_append_of_mem (hl y hy)]

/-- FREQ's chunks stand in order of first occurrence: a new chunk's first occurrence is the last one. -/
theorem freqOf_firstSeen (cs : List Chunk) :
    (freqOf cs).Pairwise fun e e' => cs.idxOf e.chunk < cs.idxOf e'.chunk := by
  suffices ((freqOf cs).map (·.chunk)).Pairwise fun x y => cs.idxOf x < cs.idxOf y by
    rwa [List.pairwise_map] at this
  induction cs using List.reverseRecOn with
  | nil => exact List.Pairwise.nil
  | append_singleton cs c ih =>
    have hmem : ∀ x ∈ (freqOf cs).map (·.chunk), x ∈ cs := fun _ hx => mem_freqOf_chunks.1 hx
    have hold := pairwise_idxOf_append c hmem ih
    rw [freqOf_append_singleton, countChunk_chunks]
    split_ifs with hc
    · exact hold
    · refine List.pairwise_append.2 ⟨hold, List.pairwise_singleton .., fun x hx y hy => ?_⟩
      obtain rfl := List.mem_singleton.1 hy
      have hlt : cs.idxOf x < cs.length := List.idxOf_lt_length_iff.2 (hmem x hx)
      have hnew : y ∉ cs := fun hy => hc (mem_freqOf_chunks.2 hy)
      rw [List.idxOf_append_of_mem (hmem x hx), List.idxOf_append_of_notMem hnew]
      omega

/-- Each entry counts the occurrences of its chunk, where no count wraps (R50). -/
theorem freqOf_counts {cs : List Chunk} (h : cs.length < 2 ^ 32) :
    ∀ e ∈ freqOf cs, e.count.toNat = cs.count e.chunk := by
  induction cs using List.reverseRecOn with
  | nil => exact fun e he => absurd he List.not_mem_nil
  | append_singleton cs c ih =>
    rw [List.length_append, List.length_singleton] at h
    have hlen : cs.length < 2 ^ 32 := by omega
    intro e he
    rw [freqOf_append_singleton] at he
    rw [List.count_append, List.count_singleton]
    rcases countChunk_mem (freqOf_sums cs hlen).distinctChunks he with
      ⟨hne, hold⟩ | ⟨rfl, hone, hnew⟩ | ⟨e', he', rfl, rfl⟩
    · rw [ih hlen e hold, if_neg (by simpa using Ne.symm hne), Nat.add_zero]
    · rw [hone, List.count_eq_zero.2 fun hc => hnew (mem_freqOf_chunks.2 hc), if_pos (beq_self_eq_true _)]
      rfl
    · have hcount := ih hlen e' he'
      have hle : cs.count e'.chunk ≤ cs.length := List.count_le_length
      rw [toNat_add_of_lt (by simp; omega), hcount, if_pos (beq_self_eq_true _)]
      rfl

/-! ## SELECT's order (R112, R113) -/

theorem sortByCount_descending (l : List FreqEntry) :
    (sortByCount l).Pairwise fun e e' => e'.count.toNat ≤ e.count.toNat :=
  List.pairwise_insertionSort _ l

/-- The sort keeps the order of the entries with one count: they are in order already. -/
theorem sortByCount_stable (l : List FreqEntry) (n : BitVec 32) :
    (sortByCount l).filter (fun e => e.count == n) = l.filter (fun e => e.count == n) := by
  have hsorted : (l.filter fun e => e.count == n).Pairwise fun e e' => e'.count.toNat ≤ e.count.toNat := by
    refine List.pairwise_of_forall_mem_list fun e he e' he' => ?_
    have hcount := eq_of_beq (List.mem_filter.1 he).2
    have hcount' := eq_of_beq (List.mem_filter.1 he').2
    rw [hcount, hcount']
  have hsub : (l.filter fun e => e.count == n).Sublist (sortByCount l) :=
    List.sublist_insertionSort hsorted List.filter_sublist
  have hsub' := hsub.filter fun e => e.count == n
  rw [List.filter_filter] at hsub'
  simp only [Bool.and_self] at hsub'
  exact (hsub'.eq_of_length ((sortByCount_perm l).filter _).length_eq.symm).symm

/-! ## The run of phase COUNT (R110, R185) -/

section
variable {s : State} {cmd : Cmd}

/-- The command word of a CMD field given as a number (R89). -/
theorem decodeCtrl_of_cmd {w : Word} {n : Nat} (h : w.toNat % 16 = n) :
    decodeCtrl w = commandOf (w.extractLsb' 4 28) (BitVec.ofNat 4 n) := by
  rw [decodeCtrl, ← h, ← cmd_toNat, BitVec.ofNat_toNat, BitVec.setWidth_eq]

/-- The state once ANALYZE or COMPRESS has been accepted in `s` and `k` chunks have been counted, with no turn of
the host to come. -/
def State.counted (s : State) (cmd : Cmd) (k : Nat) : State :=
  { s.clearForCommand.startCount cmd with
    turns := [], pos := BitVec.ofNat 32 k, freq := freqOf (s.inputChunks.take k) }

@[simp] theorem State.counted_phase (k : Nat) : (s.counted cmd k).phase = .count := rfl

/-- With every chunk counted FREQ is that of the whole input (R111). -/
theorem State.counted_all_freq (s : State) (cmd : Cmd) :
    (s.counted cmd s.inputChunks.length).freq = freqOf s.inputChunks :=
  congrArg freqOf List.take_length

/-- An accepted ANALYZE has counted nothing yet (R179). -/
theorem step_analyze_accepted {w : Word} (hp : s.phase = .idle) (ht : s.turns = [ctrlTurn w])
    (hw : w.toNat % 16 = 1) (hl : s.inLen.toNat ≤ Config.ibufBytes)
    (hconf : configOk s.codeBase s.topN = true) : step s = .next (s.counted .analyze 0) := by
  have hcheck : check 1#4 s.popTurn = none := check_analyzer_none (.inl rfl) hl hconf
  calc step s = exec (.analyze (w.extractLsb' 4 28)) s.popTurn := by
        rw [step_ctrl ht rfl, decodeCtrl_of_cmd hw]; rfl
    _ = .next (s.popTurn.clearForCommand.startCount .analyze) :=
        (exec_analyze ..).trans (ctrlWrite_accepted hp hcheck)
    _ = .next (s.counted .analyze 0) := by rw [State.popTurn_eq ht]; rfl

/-- PAD leaves as many chunks to count as the padded input has (R102). -/
theorem State.counted_chunkCount (hl : s.inLen.toNat ≤ Config.ibufBytes) (k : Nat) :
    (s.counted cmd k).chunkCount = s.inputChunks.length := by
  have hpad : (s.counted cmd k).paddedLen.toNat = s.inLen.toNat + padOf s.inLen.toNat := (State.pad_toNat hl).2
  have hlen := s.inputChunks_length
  unfold State.chunkCount
  omega

/-- The padded input's chunks lie inside IBUF (R67, R102). -/
theorem State.inputChunks_inside (hl : s.inLen.toNat ≤ Config.ibufBytes) :
    4 * s.inputChunks.length ≤ Config.ibufBytes := by
  rw [s.inputChunks_length, ← (State.pad_toNat hl).2]
  exact ((State.pad_padded hl).le_ibufBytes hl).1

theorem State.inputChunks_length_lt (hl : s.inLen.toNat ≤ Config.ibufBytes) : s.inputChunks.length < 2 ^ 32 := by
  have hin := State.inputChunks_inside hl
  have hmax := ibufBytes_bounds.2.1
  omega

theorem State.counted_pos (hl : s.inLen.toNat ≤ Config.ibufBytes) {k : Nat} (h : k ≤ s.inputChunks.length) :
    (s.counted cmd k).pos.toNat = k := by
  have hlt := State.inputChunks_length_lt hl
  exact (BitVec.toNat_ofNat ..).trans (Nat.mod_eq_of_lt (by omega))

theorem State.inputChunks_take_succ {k : Nat} (h : k < s.inputChunks.length) :
    s.inputChunks.take (k + 1) = s.inputChunks.take k ++ [s.chunkAt k] := by
  rw [List.take_succ_eq_append_getElem h]
  simp [State.inputChunks]

/-- One chunk counted is the next state of phase COUNT (R110). -/
theorem State.countOne_counted {k : Nat} (h : k < s.inputChunks.length) :
    (s.counted cmd k).countOne (s.chunkAt k) = s.counted cmd (k + 1) := by
  unfold State.counted
  rw [State.inputChunks_take_succ h, freqOf_append_singleton, BitVec.ofNat_add]
  rfl

/-- While chunks are left, the block counts the next one (R185). -/
theorem step_counted (hl : s.inLen.toNat ≤ Config.ibufBytes) {k : Nat} (h : k < s.inputChunks.length) :
    step (s.counted cmd k) = .next (s.counted cmd (k + 1)) := by
  have hpos := State.counted_pos (cmd := cmd) hl (Nat.le_of_lt h)
  have hcount := State.counted_chunkCount (cmd := cmd) hl k
  have hin := State.inputChunks_inside hl
  calc step (s.counted cmd k) = countStep (s.counted cmd k) := by
        rw [step_block (.inl rfl) (by simp), blockStep_count rfl]; rfl
    _ = .next ((s.counted cmd k).countOne (s.chunkAt k)) := by
        rw [countStep_chunk (by omega) (by omega), hpos]; rfl
    _ = .next (s.counted cmd (k + 1)) := by rw [State.countOne_counted h]

/-- With every chunk counted the block enters SELECT (R185). -/
theorem step_counted_all (hl : s.inLen.toNat ≤ Config.ibufBytes) :
    step (s.counted cmd s.inputChunks.length) = .next ((s.counted cmd s.inputChunks.length).enter .select) := by
  have hpos := State.counted_pos (cmd := cmd) hl (Nat.le_refl _)
  have hcount := State.counted_chunkCount (cmd := cmd) hl s.inputChunks.length
  rw [step_block (.inl rfl) (by simp), blockStep_count rfl]
  exact countStep_exit (hpos.trans hcount.symm)

/-- After `k` block steps of phase COUNT, `k` chunks are counted. -/
theorem runSteps_counted (hl : s.inLen.toNat ≤ Config.ibufBytes) {k : Nat} (h : k ≤ s.inputChunks.length) :
    runSteps k (s.counted cmd 0) = .next (s.counted cmd k) := by
  induction k with
  | zero => rfl
  | succ k ih => rw [runSteps_add (ih (by omega)), runSteps_succ (step_counted hl h), runSteps_zero]

/-- Phase COUNT takes a block step for each chunk and one for its exit (R185). -/
theorem runSteps_counted_select (hl : s.inLen.toNat ≤ Config.ibufBytes) :
    runSteps (s.inputChunks.length + 1) (s.counted cmd 0) =
      .next ((s.counted cmd s.inputChunks.length).enter .select) := by
  rw [runSteps_add (runSteps_counted hl (Nat.le_refl _)), runSteps_succ (step_counted_all hl), runSteps_zero]

end

/-! ## The step of phase SELECT (R112, R120, R185) -/

section
variable {s : State}

/-- Under ANALYZE the SELECT step ends the command. -/
theorem step_select_analyze (hb : s.BlockTurn) (hp : s.phase = .select) (hc : s.cmd = .analyze) :
    step s = .next s.popTurn.selectAndBuild.finish := by
  rw [step_block hb (by simp [hp]), blockStep_select (s := s.popTurn) hp, selectStep_analyze (s := s.popTurn) hc]

/-- Under COMPRESS the SELECT step enters ENC at the start. -/
theorem step_select_compress (hb : s.BlockTurn) (hp : s.phase = .select) (hc : s.cmd = .compress) :
    step s = .next (s.popTurn.selectAndBuild.rewind.enter .enc) := by
  rw [step_block hb (by simp [hp]), blockStep_select (s := s.popTurn) hp, selectStep_compress (s := s.popTurn) hc]

/-! ## The whole ANALYZE (R179) -/

/-- The state an ANALYZE accepted in `s` ends in: FREQ holds all the input's chunks, and the SELECT step is done. -/
def State.analyzed (s : State) : State :=
  ((s.counted .analyze s.inputChunks.length).enter .select).selectAndBuild.finish

/-- An ANALYZE that has been accepted takes a block step for each chunk and two more. -/
theorem runSteps_analyzed (hl : s.inLen.toNat ≤ Config.ibufBytes) :
    runSteps (s.inputChunks.length + 2) (s.counted .analyze 0) = .next s.analyzed := by
  have hselect := step_select_analyze
    (s := (s.counted .analyze s.inputChunks.length).enter .select) (.inl rfl) rfl rfl
  rw [← Nat.add_assoc _ 1 1, runSteps_add (runSteps_counted_select hl), runSteps_succ hselect]
  rfl

/-- Before its last step the command is in COUNT or SELECT. -/
theorem runSteps_counted_busy (hl : s.inLen.toNat ≤ Config.ibufBytes) {cmd : Cmd} {k : Nat}
    (h : k ≤ s.inputChunks.length + 1) : ∃ u, runSteps k (s.counted cmd 0) = .next u ∧ u.phase ≠ .idle := by
  rcases Nat.le_or_eq_of_le_succ h with hle | rfl
  · exact ⟨_, runSteps_counted hl hle, by simp⟩
  · exact ⟨_, runSteps_counted_select hl, by simp⟩

/-- What an ANALYZE leaves, field by field: DISTINCT, DICT and FREQ are of all the input's chunks. -/
theorem State.analyzed_eq (s : State) :
    s.analyzed = { s with
      turns := [], cmd := .analyze, errPos := 0, errVal := 0, origSize := s.inLen,
      status := { Status.clear with done := true },
      padLen := s.analyzed.padLen, paddedLen := s.analyzed.paddedLen, pos := s.analyzed.pos,
      freq := freqOf s.inputChunks, distinct := s.analyzed.distinct, phase := .idle,
      dict := buildDict s.codeBase (selectTop s.topN (freqOf s.inputChunks)) } := by
  rw [← s.counted_all_freq .analyze]
  rfl

/-- DISTINCT after an ANALYZE is the number of entries of FREQ, unwrapped (R112). -/
theorem State.analyzed_distinct (hl : s.inLen.toNat ≤ Config.ibufBytes) :
    s.analyzed.distinct.toNat = (freqOf s.inputChunks).length := by
  have hlt := State.inputChunks_length_lt hl
  have hle := freqOf_length_le hlt
  have hdistinct : s.analyzed.distinct = BitVec.ofNat 32 (freqOf s.inputChunks).length :=
    congrArg (fun freq : List FreqEntry => BitVec.ofNat 32 freq.length) (s.counted_all_freq .analyze)
  rw [hdistinct, BitVec.toNat_ofNat, Nat.mod_eq_of_lt (by omega)]

end

/-! ## The statements about the frequency analyzer settled -/

/-- Settles O37: the CTRL write, then phase COUNT chunk by chunk, its exit and the SELECT step. -/
theorem analyzeCommandBuildsTheDictionary : Obligations.AnalyzeCommandBuildsTheDictionary := by
  intro s w _ hp ht hw hl hconf
  have haccept : runSteps 1 s = .next (s.counted .analyze 0) :=
    runSteps_succ (step_analyze_accepted hp ht hw hl hconf)
  have hpad := State.pad_toNat hl
  have hlen := s.inputChunks_length
  refine ⟨fun k hk => ?_, s.analyzed, ?_, ?_, hpad.2.trans hlen.symm, ?_, State.analyzed_distinct hl⟩
  · rw [runSteps_add haccept]
    exact runSteps_counted_busy hl hk
  · rw [runSteps_add haccept]
    exact runSteps_analyzed hl
  · rw [hp]
    exact s.analyzed_eq
  · have hpadLen : s.analyzed.padLen.toNat = padOf s.inLen.toNat := hpad.1
    omega

/-- Settles O26: the chunk is new to FREQ, or it is in an entry's place. -/
theorem countStepCountsOneChunk : Obligations.CountStepCountsOneChunk := by
  intro s hb hp hlt hlen
  have hstep : step s = .next (s.popTurn.countOne (s.chunkAt s.pos.toNat)) := by
    rw [step_block hb (by simp [hp]), blockStep_count (s := s.popTurn) hp]
    exact countStep_chunk (s := s.popTurn) hlt (by rw [State.popTurn_pos]; omega)
  exact ⟨_, hstep, rfl, countChunk_of_new, fun _ _ hn hc hfirst => countChunk_of_first hn hc hfirst⟩

/-- Settles O28, by induction on the chunks from the last one. -/
theorem freqIsFirstSeenOrderWithCounts : Obligations.FreqIsFirstSeenOrderWithCounts :=
  fun cs h => ⟨fun _ => mem_freqOf_chunks, freqOf_firstSeen cs, freqOf_counts h⟩

/-- Settles O29: an insertion sort from the right. -/
theorem selectionOrderIsDescendingAndStable : Obligations.SelectionOrderIsDescendingAndStable :=
  fun l => ⟨sortByCount_perm l, sortByCount_descending l, sortByCount_stable l⟩

/-- Settles O30: every slot that BUILD lists is valid. -/
theorem builtDictionaryCountsTheSelection : Obligations.BuiltDictionaryCountsTheSelection := by
  intro base n freq hn
  rw [dictCount, validSlots_buildDict, buildDict_length, selectTop_length]
  omega

/-- Settles O32: the phase table's two rows for SELECT. -/
theorem selectStepBuildsTheDictionary : Obligations.SelectStepBuildsTheDictionary :=
  fun _ hb hp => ⟨fun hc => ⟨_, step_select_analyze hb hp hc, rfl⟩, fun hc => step_select_compress hb hp hc⟩

end Sys2Proof.Machine
end

section
/-! PROOFS. The dictionary: what the table's lookups and checks say of its slots by index, what the checks make of
a command at acceptance, and which slots BUILD and CLEAR leave. -/

namespace Sys2Proof.Machine

section
variable {dict : List Slot}

/-! ## The table by slot index (R44) -/

theorem slotOf_of_lt {j : Nat} (h : j < dict.length) : slotOf dict j = dict[j] :=
  List.getD_eq_getElem dict Slot.empty h

/-- Only a listed slot is valid: every slot past the list's end is empty. -/
theorem lt_length_of_valid {j : Nat} (h : (slotOf dict j).valid = true) : j < dict.length := by
  obtain ⟨hj, -⟩ := slotOf_valid_iff.1 h
  exact (List.getElem?_eq_some_iff.1 hj).1

/-- What holds of the valid slots listed holds of the valid slots of every index. -/
theorem forall_valid_mem_iff {P : Slot → Prop} :
    (∀ d ∈ dict, d.valid = true → P d) ↔ ∀ j, (slotOf dict j).valid = true → P (slotOf dict j) := by
  constructor
  · intro h j hv
    have hj := lt_length_of_valid hv
    rw [slotOf_of_lt hj] at hv ⊢
    exact h _ (List.getElem_mem hj) hv
  · intro h d hd hv
    obtain ⟨j, hj, rfl⟩ := List.mem_iff_getElem.1 hd
    rw [← slotOf_of_lt hj] at hv ⊢
    exact h j hv

/-- A field of the valid slots repeats nothing exactly when no two valid slots share it (R126). -/
theorem validSlots_nodup_iff {α : Type} (f : Slot → α) :
    ((validSlots dict).map f).Nodup ↔
      ∀ j j', j ≠ j' → (slotOf dict j).valid = true → (slotOf dict j').valid = true →
        f (slotOf dict j) ≠ f (slotOf dict j') := by
  rw [List.Nodup, List.pairwise_map, validSlots, List.pairwise_filter, List.pairwise_iff_getElem]
  constructor
  · intro h
    have rising : ∀ j j', j < j' → (slotOf dict j).valid = true → (slotOf dict j').valid = true →
        f (slotOf dict j) ≠ f (slotOf dict j') := by
      intro j j' hlt hv hv'
      have hj := lt_length_of_valid hv
      have hj' := lt_length_of_valid hv'
      rw [slotOf_of_lt hj] at hv ⊢
      rw [slotOf_of_lt hj'] at hv' ⊢
      exact h j j' hj hj' hlt hv hv'
    intro j j' hne hv hv'
    rcases Nat.lt_or_gt_of_ne hne with hlt | hgt
    · exact rising j j' hlt hv hv'
    · exact (rising j' j hgt hv' hv).symm
  · intro h j j' hj hj' hlt hv hv'
    have := h j j' (Nat.ne_of_lt hlt)
    rw [slotOf_of_lt hj, slotOf_of_lt hj'] at this
    exact this hv hv'

/-! ## The lookups (R124, R125) -/

/-- A search among the valid slots finds the one of lowest index. -/
theorem find?_valid_eq_some_iff {p : Slot → Bool} {d : Slot} :
    dict.find? (fun d => d.valid && p d) = some d ↔
      ∃ j, slotOf dict j = d ∧ d.valid = true ∧ p d = true ∧
        ∀ j', j' < j → (slotOf dict j').valid = true → p (slotOf dict j') = false := by
  rw [List.find?_eq_some_iff_getElem, Bool.and_eq_true]
  constructor
  · rintro ⟨⟨hv, hp⟩, j, hj, rfl, before⟩
    refine ⟨j, slotOf_of_lt hj, hv, hp, fun j' hlt hv' => ?_⟩
    rw [slotOf_of_lt (hlt.trans hj)] at hv' ⊢
    simpa [hv'] using before j' hlt
  · rintro ⟨j, rfl, hv, hp, before⟩
    have hj := lt_length_of_valid hv
    refine ⟨⟨hv, hp⟩, j, hj, (slotOf_of_lt hj).symm, fun j' hlt => ?_⟩
    have := before j' hlt
    rw [slotOf_of_lt (hlt.trans hj)] at this
    cases hv' : dict[j'].valid <;> simp [hv', this]

/-- A field `g` of the valid slot of lowest index whose field `f` is the key. -/
theorem find?_valid_key_map_eq_some_iff {α β : Type} [DecidableEq α] (f : Slot → α) (g : Slot → β)
    {key : α} {r : β} :
    (dict.find? (fun d => d.valid && f d == key)).map g = some r ↔
      ∃ j, (slotOf dict j).valid = true ∧ f (slotOf dict j) = key ∧ g (slotOf dict j) = r ∧
        ∀ j', j' < j → (slotOf dict j').valid = true → f (slotOf dict j') ≠ key := by
  simp only [Option.map_eq_some_iff, find?_valid_eq_some_iff, beq_iff_eq, beq_eq_false_iff_ne]
  constructor
  · rintro ⟨_, ⟨j, rfl, hv, hf, before⟩, hg⟩
    exact ⟨j, hv, hf, hg, before⟩
  · rintro ⟨j, hv, hf, hg, before⟩
    exact ⟨_, ⟨j, rfl, hv, hf, before⟩, hg⟩

/-! ## WF_CHECK (R126) -/

/-- The dictionary check, slot against slot. -/
theorem dictWellFormed_iff_slots :
    dictWellFormed dict = true ↔
      (∀ j, (slotOf dict j).valid = true → (slotOf dict j).code.getLsbD 15 = true) ∧
      (∀ j j', j ≠ j' → (slotOf dict j).valid = true → (slotOf dict j').valid = true →
        (slotOf dict j).code ≠ (slotOf dict j').code ∧ (slotOf dict j).chunk ≠ (slotOf dict j').chunk) := by
  rw [dictWellFormed_iff, forall_valid_mem_iff, validSlots_nodup_iff, validSlots_nodup_iff]
  simp only [← forall_and, StreamUnit.tagged]

end

/-! ## The error a command records at acceptance (R177, R202) -/

/-- A command written while idle records the first failing check's error, or none. -/
theorem exec_commandOf_err (ign : BitVec 28) (c : BitVec 4) {s : State} (hp : s.phase = .idle) :
    ∃ t, exec (commandOf ign c) s = .next t ∧ t.status.err = (check c s).getD .none := by
  obtain ⟨act, hexec, herr⟩ := exec_commandOf ign c s
  rw [hexec, ← check_clearForCommand]
  cases hc : check c s.clearForCommand with
  | some e => exact ⟨_, ctrlWrite_refused hp hc, rfl⟩
  | none => exact ⟨_, ctrlWrite_accepted hp hc, herr _⟩

/-! ## BUILD under a legal configuration (R120, R122) -/

/-- SELECT's entries fit the codes and the table. -/
theorem selectTop_length_le (n : BitVec 8) (freq : List FreqEntry) : (selectTop n freq).length ≤ n.toNat := by
  rw [selectTop_length]
  exact Nat.min_le_left ..

/-- The slot of a rank that SELECT filled. -/
theorem slotOf_buildDict_selected (base : BitVec 16) {sel : List FreqEntry} (h : sel.length ≤ Config.dictDepth)
    {j : Nat} {e : FreqEntry} (he : sel[j]? = some e) :
    slotOf (buildDict base sel) j =
      { valid := true, chunk := e.chunk, code := BitVec.ofNat 16 (base.toNat + j), freq := e.count } := by
  obtain ⟨hj, rfl⟩ := List.getElem?_eq_some_iff.1 he
  rw [slotOf_buildDict base h, builtSlot_selected base hj]

/-! ## The statements about the dictionary settled -/

/-- Settles O31: the selection has at most TOP_N entries, so CFG_CHECK's bounds keep every rank inside the table
and every code from wrapping. -/
theorem builtDictionaryIsWellFormed : Obligations.BuiltDictionaryIsWellFormed := by
  intro base n freq hk hd
  obtain ⟨htag, hdepth, hsum⟩ := configOk_iff.1 hk
  have hn : (selectTop n freq).length ≤ n.toNat := selectTop_length_le n freq
  have hfit : (selectTop n freq).length ≤ Config.dictDepth := hn.trans hdepth
  refine ⟨hfit, fun j e he => ?_, fun j hj => ?_, buildDict_wellFormed hk hn (selectTop_nodup n hd)⟩
  · have hj : j < (selectTop n freq).length := (List.getElem?_eq_some_iff.1 he).1
    have hcode : (slotOf (buildDict base (selectTop n freq)) j).code.toNat = base.toNat + j := by
      rw [slotOf_buildDict base hfit, builtSlot_code_toNat hk hn hj]
    have htagged : StreamUnit.tagged (slotOf (buildDict base (selectTop n freq)) j).code = true := by
      rw [tagged_iff_le] at htag ⊢
      omega
    have hslot := slotOf_buildDict_selected base hfit he
    exact ⟨by rw [hslot], by rw [hslot], by rw [hslot], hcode, by omega, htagged⟩
  · exact (slotOf_buildDict base hfit j).trans (builtSlot_rest base hj)

/-- Settles O17: of the checks only CFG_CHECK is left to fail. -/
theorem configCheckIsItsThreeConditions : Obligations.ConfigCheckIsItsThreeConditions := by
  intro ign i s hi hp hl
  obtain ⟨c, hc, rfl⟩ : ∃ c : BitVec 4, (c.toNat = 1 ∨ c.toNat = 3) ∧ i = commandOf ign c := by
    rcases hi with rfl | rfl
    · exact ⟨1, .inl rfl, rfl⟩
    · exact ⟨3, .inr rfl, rfl⟩
  obtain ⟨t, ht, herr⟩ := exec_commandOf_err ign c hp
  refine ⟨t, ht, ?_⟩
  rw [herr, check_analyzer hc hl, ← StreamUnit.tagged, ← configOk_iff]
  cases configOk s.codeBase s.topN <;> simp

/-- Settles O18: of the checks only WF_CHECK is left to fail. -/
theorem dictionaryCheckIsPairwiseDistinctTaggedCodes : Obligations.DictionaryCheckIsPairwiseDistinctTaggedCodes := by
  intro ign i s hi hp hl
  obtain ⟨c, hc, rfl⟩ : ∃ c : BitVec 4, (c.toNat = 2 ∨ c.toNat = 4) ∧ i = commandOf ign c := by
    rcases hi with rfl | rfl
    · exact ⟨2, .inl rfl, rfl⟩
    · exact ⟨4, .inr rfl, rfl⟩
  obtain ⟨t, ht, herr⟩ := exec_commandOf_err ign c hp
  refine ⟨t, ht, ?_⟩
  simp only [State.slot]
  rw [herr, check_codec hc hl, ← dictWellFormed_iff_slots]
  cases dictWellFormed s.dict <;> simp

/-- Settles O19: the search skips invalid slots, so it stops at the first valid slot with the chunk. -/
theorem chunkLookupFindsTheLowestValidSlot : Obligations.ChunkLookupFindsTheLowestValidSlot :=
  fun _ _ => ⟨lookupChunk_eq_none.trans forall_valid_mem_iff,
    fun _ => find?_valid_key_map_eq_some_iff (·.chunk) (·.code)⟩

/-- Settles O20: the key is compared as a whole unit, its tag included. -/
theorem codeLookupComparesTheWholeUnit : Obligations.CodeLookupComparesTheWholeUnit :=
  fun _ _ => ⟨lookupCode_eq_none.trans forall_valid_mem_iff,
    fun _ => find?_valid_key_map_eq_some_iff (·.code) (·.chunk)⟩

/-- Settles O11: no check stands before DICT_CLEAR, and a table that lists no slot reads empty at every index. -/
theorem dictClearInvalidatesEverySlot : Obligations.DictClearInvalidatesEverySlot := by
  intro ign s hp
  refine ⟨s.clearForCommand.clearDict.markDone, ?_, rfl, slotOf_nil, rfl⟩
  rw [exec_dictClear, ctrlWrite_accepted hp (check_dictClear _)]

end Sys2Proof.Machine
end

section
/-! PROOFS. The encoder: a block step of phase ENC appends one chunk's output, and phase ENC as a whole, entered by
ENCODE or by COMPRESS, leaves the encoded stream of the padded input. -/

namespace Sys2Proof.Machine

section
variable {s : State}

/-! ## Bytes written to OBUF -/

/-- A byte written to OBUF reads back. -/
theorem State.obufByte_writeObuf_inside (s : State) (a : Nat) {bs : List Byte} {k : Nat} (h : k < bs.length) :
    (s.writeObuf a bs).obufByte (a + k) = bs[k] := by
  rw [State.obufByte_writeObuf, if_pos (by omega)]
  simp [h]

/-- A byte of OBUF outside those written is as before. -/
theorem State.obufByte_writeObuf_outside (s : State) {a x : Nat} {bs : List Byte}
    (h : x < a ∨ a + bs.length ≤ x) : (s.writeObuf a bs).obufByte x = s.obufByte x := by
  rw [State.obufByte_writeObuf, if_neg (by omega)]

/-- Two writes one after the other are one write of both. -/
theorem Memory.writeBytes_append (m : Memory) (a : Nat) (bs bs' : List Byte) :
    m.writeBytes a (bs ++ bs') = (m.writeBytes a bs).writeBytes (a + bs.length) bs' := by
  induction bs generalizing m a with
  | nil => rfl
  | cons b bs ih =>
    rw [List.cons_append, Memory.writeBytes, Memory.writeBytes, ih, List.length_cons, Nat.add_right_comm]
    rfl

/-! ## One chunk encoded (R140, R141) -/

/-- The step of phase ENC where chunks are left (R185). -/
theorem step_enc_chunk (hb : s.BlockTurn) (hp : s.phase = .enc) (hlt : s.pos.toNat < s.chunkCount)
    (hin : 4 * s.pos.toNat + 4 ≤ Config.ibufBytes) : step s = encodeChunk (s.chunkAt s.pos.toNat) s.popTurn := by
  rw [step_block hb (by simp [hp]), blockStep_enc (s := s.popTurn) hp]
  exact encStep_chunk (s := s.popTurn) hlt hin

/-- The step of phase ENC where no chunk is left (R142, R185). -/
theorem step_enc_end (hb : s.BlockTurn) (hp : s.phase = .enc) (he : s.pos.toNat = s.chunkCount) :
    step s = .next s.popTurn.encEnd := by
  rw [step_block hb (by simp [hp]), blockStep_enc (s := s.popTurn) hp]
  exact encStep_exit (s := s.popTurn) he

/-- A chunk's output written at `opos`, both positions moved past it, and HAZ set if it is a miss that collides. -/
def State.encodeOne (c : Chunk) (s : State) : State :=
  { (s.writeObuf s.opos.toNat (chunkOutput s.dict c)).advance 1 (BitVec.ofNat 32 (chunkOutput s.dict c).length) with
    status := { s.status with haz := s.status.haz || ((lookupChunk s.dict c).isNone && collides c) } }

/-- A hit and a miss alike append the chunk's output. -/
theorem encodeChunk_next {c : Chunk} (h : s.opos.toNat + 4 ≤ Config.obufBytes) :
    encodeChunk c s = .next (s.encodeOne c) := by
  unfold State.encodeOne chunkOutput
  cases hk : lookupChunk s.dict c with
  | some code =>
    rw [encodeChunk_hit hk (by omega), Option.isNone_some, Bool.false_and, Bool.or_false]
    rfl
  | none => exact encodeChunk_miss hk h

/-! ## The encoded stream, chunk by chunk -/

theorem encodedBytes_append_singleton (dict : List Slot) (cs : List Chunk) (c : Chunk) :
    encodedBytes dict (cs ++ [c]) = encodedBytes dict cs ++ chunkOutput dict c := by
  simp [encodedBytes]

theorem anyCollision_append_singleton (dict : List Slot) (cs : List Chunk) (c : Chunk) :
    anyCollision dict (cs ++ [c]) = (anyCollision dict cs || ((lookupChunk dict c).isNone && collides c)) := by
  simp [anyCollision]

/-! ## The run of phase ENC (R185) -/

/-- Phase ENC with no turn of the host to come, the input in range and padded: what ENCODE and COMPRESS enter it
with. -/
structure State.ReadyToEncode (s : State) : Prop where
  noTurns : s.turns = []
  phase : s.phase = .enc
  inRange : s.inLen.toNat ≤ Config.ibufBytes
  padded : s.Padded

/-- The state once `k` chunks have been encoded from the start of OBUF on. -/
def State.encodedTo (s : State) (k : Nat) : State :=
  { s.writeObuf 0 (encodedBytes s.dict (s.inputChunks.take k)) with
    pos := BitVec.ofNat 32 k
    opos := BitVec.ofNat 32 (encodedBytes s.dict (s.inputChunks.take k)).length
    status := { s.status with haz := s.status.haz || anyCollision s.dict (s.inputChunks.take k) } }

/-- The chunks before the `k`-th take at most four bytes each, which is no more than IBUF holds (R144). -/
theorem State.encodedBytes_take_length_le (hl : s.inLen.toNat ≤ Config.ibufBytes) {k : Nat}
    (h : k ≤ s.inputChunks.length) :
    (encodedBytes s.dict (s.inputChunks.take k)).length ≤ 4 * k ∧ 4 * k ≤ Config.ibufBytes := by
  have hlen := encodedBytes_length s.dict (s.inputChunks.take k)
  have hin := State.inputChunks_inside hl
  rw [List.length_take] at hlen
  omega

theorem State.encodedTo_pos (hl : s.inLen.toNat ≤ Config.ibufBytes) {k : Nat} (h : k ≤ s.inputChunks.length) :
    (s.encodedTo k).pos.toNat = k := by
  have hlt := State.inputChunks_length_lt hl
  exact (BitVec.toNat_ofNat ..).trans (Nat.mod_eq_of_lt (by omega))

/-- `opos` is the length of the stream written so far, unwrapped (R49). -/
theorem State.encodedTo_opos (hl : s.inLen.toNat ≤ Config.ibufBytes) {k : Nat} (h : k ≤ s.inputChunks.length) :
    (s.encodedTo k).opos.toNat = (encodedBytes s.dict (s.inputChunks.take k)).length := by
  have hle := s.encodedBytes_take_length_le hl h
  have hmax := ibufBytes_bounds.2.1
  exact (BitVec.toNat_ofNat ..).trans (Nat.mod_eq_of_lt (by omega))

/-- Every byte of OBUF below `opos` has been written. -/
theorem State.encodedTo_obufWritten (hl : s.inLen.toNat ≤ Config.ibufBytes) {k : Nat}
    (h : k ≤ s.inputChunks.length) : (s.encodedTo k).obufWritten (s.encodedTo k).opos.toNat := by
  have hwritten := s.obufWritten_zero.append (encodedBytes s.dict (s.inputChunks.take k))
  rwa [Nat.zero_add, ← State.encodedTo_opos hl h] at hwritten

/-- OBUF below `opos` is the stream of the chunks encoded so far. -/
theorem State.encodedTo_obufSlice (hl : s.inLen.toNat ≤ Config.ibufBytes) {k : Nat} (h : k ≤ s.inputChunks.length) :
    (s.encodedTo k).obufSlice 0 (s.encodedTo k).opos.toNat = encodedBytes s.dict (s.inputChunks.take k) := by
  have hslice := s.obufSlice_writeObuf 0 (encodedBytes s.dict (s.inputChunks.take k))
  rwa [Nat.zero_add, ← State.encodedTo_opos hl h] at hslice

/-- PAD's results give as many chunks to encode as the padded input has (R102). -/
theorem State.encodedTo_chunkCount (hpad : s.Padded) (k : Nat) :
    (s.encodedTo k).chunkCount = s.inputChunks.length := by
  have hlen := s.inputChunks_length
  have hpadded := hpad.paddedLen
  show s.paddedLen.toNat / 4 = _
  omega

/-- One more chunk's output appended is the next state of phase ENC (R140, R141). -/
theorem State.encodeOne_encodedTo (hl : s.inLen.toNat ≤ Config.ibufBytes) {k : Nat}
    (h : k < s.inputChunks.length) : (s.encodedTo k).encodeOne (s.chunkAt k) = s.encodedTo (k + 1) := by
  have hopos := State.encodedTo_opos hl (Nat.le_of_lt h)
  unfold State.encodeOne
  rw [hopos]
  unfold State.encodedTo State.writeObuf
  rw [State.inputChunks_take_succ h, encodedBytes_append_singleton, anyCollision_append_singleton,
    Memory.writeBytes_append, List.length_append, Nat.zero_add, BitVec.ofNat_add k, BitVec.ofNat_add,
    ← Bool.or_assoc]
  rfl

/-- With no turn left there is none to take off. -/
theorem State.popTurn_of_nil (h : s.turns = []) : s.popTurn = s := by
  unfold State.popTurn
  rw [h, List.tail_nil, ← h]

/-- While chunks are left, the block encodes the next one (R185). -/
theorem State.ReadyToEncode.step_chunk (hr : s.ReadyToEncode) {k : Nat} (h : k < s.inputChunks.length) :
    step (s.encodedTo k) = .next (s.encodedTo (k + 1)) := by
  have hpos := State.encodedTo_pos hr.inRange (Nat.le_of_lt h)
  have hopos := State.encodedTo_opos hr.inRange (Nat.le_of_lt h)
  have hcount := State.encodedTo_chunkCount hr.padded k
  have hin := State.inputChunks_inside hr.inRange
  have hout := s.encodedBytes_take_length_le hr.inRange (Nat.le_of_lt h)
  have hpop : (s.encodedTo k).popTurn = s.encodedTo k := State.popTurn_of_nil hr.noTurns
  calc step (s.encodedTo k) = encodeChunk (s.chunkAt k) (s.encodedTo k) := by
        rw [step_enc_chunk (s := s.encodedTo k) (.inl hr.noTurns) hr.phase (by omega) (by omega), hpos, hpop]; rfl
    _ = .next ((s.encodedTo k).encodeOne (s.chunkAt k)) := encodeChunk_next (by rw [obufBytes_eq]; omega)
    _ = .next (s.encodedTo (k + 1)) := by rw [State.encodeOne_encodedTo hr.inRange h]

/-- After `k` block steps of phase ENC, `k` chunks are encoded. -/
theorem State.ReadyToEncode.runSteps_chunks (hr : s.ReadyToEncode) {k : Nat} (h : k ≤ s.inputChunks.length) :
    runSteps k (s.encodedTo 0) = .next (s.encodedTo k) := by
  induction k with
  | zero => rfl
  | succ k ih => rw [runSteps_add (ih (by omega)), runSteps_succ (hr.step_chunk h), runSteps_zero]

/-- The state phase ENC ends in: every chunk encoded, then ENC_END (R142). -/
def State.encoded (s : State) : State := (s.encodedTo s.inputChunks.length).encEnd

/-- Phase ENC takes a block step for each chunk and one for its end (R185). -/
theorem State.ReadyToEncode.runSteps_encoded (hr : s.ReadyToEncode) :
    runSteps (s.inputChunks.length + 1) (s.encodedTo 0) = .next s.encoded := by
  have hpos := State.encodedTo_pos hr.inRange (Nat.le_refl _)
  have hcount := State.encodedTo_chunkCount hr.padded s.inputChunks.length
  have hend := step_enc_end (s := s.encodedTo s.inputChunks.length) (.inl hr.noTurns) hr.phase
    (hpos.trans hcount.symm)
  rw [runSteps_add (hr.runSteps_chunks (Nat.le_refl _)), runSteps_succ hend, runSteps_zero,
    State.popTurn_of_nil (s := s.encodedTo s.inputChunks.length) hr.noTurns]
  rfl

/-- OUT_LEN at the end of phase ENC is the encoded stream's length, unwrapped (R142). -/
theorem State.encoded_outLen (hl : s.inLen.toNat ≤ Config.ibufBytes) :
    s.encoded.outLen.toNat = (encodedBytes s.dict s.inputChunks).length := by
  have hopos := State.encodedTo_opos hl (Nat.le_refl _)
  rwa [List.take_length] at hopos

/-- OBUF up to OUT_LEN at the end of phase ENC is the encoded stream (R142, R146). -/
theorem State.encoded_obufSlice (hl : s.inLen.toNat ≤ Config.ibufBytes) :
    s.encoded.obufSlice 0 s.encoded.outLen.toNat = encodedBytes s.dict s.inputChunks := by
  have hwritten := State.encodedTo_obufWritten hl (Nat.le_refl _)
  have hslice := State.encodedTo_obufSlice hl (Nat.le_refl _)
  rw [List.take_length] at hslice
  exact (State.obufSlice_closeOutput (s := s.encodedTo s.inputChunks.length) hwritten).trans hslice

/-- What phase ENC leaves, field by field: HAZ is set by the collisions of all the chunks (R143). -/
theorem State.encoded_eq (s : State) :
    s.encoded = { s with
      outLen := s.encoded.outLen, pos := s.encoded.pos, opos := s.encoded.opos, obuf := s.encoded.obuf,
      obufGen := s.encoded.obufGen, phase := .idle,
      status := { s.status with done := true, haz := s.status.haz || anyCollision s.dict s.inputChunks } } := by
  have hhaz : (s.encodedTo s.inputChunks.length).status =
      { s.status with haz := s.status.haz || anyCollision s.dict s.inputChunks } := by
    unfold State.encodedTo
    rw [List.take_length]
  exact congrArg (fun st => { s.encoded with status := st.withDone }) hhaz

/-- Phase ENC entered at the start has encoded nothing yet. -/
theorem State.encodedTo_zero (hpos : s.pos = 0) (hopos : s.opos = 0) : s.encodedTo 0 = s := by
  cases s
  cases hpos
  cases hopos
  simp [State.encodedTo, State.writeObuf, encodedBytes, anyCollision, Memory.writeBytes]

/-! ## The whole ENCODE (R180) -/

/-- The state an ENCODE accepted in `s` starts in, with no turn of the host to come. -/
def State.encodeStarted (s : State) : State :=
  { s.clearForCommand.pad.rewind.start .encode .enc with turns := [] }

theorem State.encodeStarted_ready (hl : s.inLen.toNat ≤ Config.ibufBytes) : s.encodeStarted.ReadyToEncode :=
  ⟨rfl, rfl, hl, (State.pad_padded (s := s.clearForCommand) hl).of_fields rfl rfl rfl rfl⟩

/-- An accepted ENCODE has encoded nothing yet (R180). -/
theorem step_encode_accepted {w : Word} (hp : s.phase = .idle) (ht : s.turns = [ctrlTurn w])
    (hw : w.toNat % 16 = 2) (hl : s.inLen.toNat ≤ Config.ibufBytes) (hd : dictWellFormed s.dict = true) :
    step s = .next (s.encodeStarted.encodedTo 0) :=
  calc step s = exec (.encode (w.extractLsb' 4 28)) s.popTurn := by
        rw [step_ctrl ht rfl, decodeCtrl_of_cmd hw]; rfl
    _ = .next (s.popTurn.clearForCommand.pad.rewind.start .encode .enc) :=
        exec_encode_accepted (s := s.popTurn) _ hp hl hd
    _ = .next s.encodeStarted := by rw [State.popTurn_eq ht]; rfl
    _ = .next (s.encodeStarted.encodedTo 0) := by rw [State.encodedTo_zero rfl rfl]

end

/-! ## The statements about the encoder settled -/

/-- Settles O36: the CTRL write, then phase ENC chunk by chunk and its end. -/
theorem encodeCommandWritesTheEncodedStream : Obligations.EncodeCommandWritesTheEncodedStream := by
  intro s w _ hp ht hw hl hd
  have hready := State.encodeStarted_ready hl
  have haccept : runSteps 1 s = .next (s.encodeStarted.encodedTo 0) :=
    runSteps_succ (step_encode_accepted hp ht hw hl hd)
  have hpad := State.pad_toNat hl
  have hlen := s.inputChunks_length
  refine ⟨fun k hk => ?_, s.encodeStarted.encoded, ?_, ?_, hpad.2.trans hlen.symm, ?_,
    State.encoded_outLen hl, State.encoded_obufSlice hl⟩
  · rw [runSteps_add haccept]
    exact ⟨_, hready.runSteps_chunks hk, rfl⟩
  · rw [runSteps_add haccept]
    exact hready.runSteps_encoded
  · rw [hp]
    exact s.encodeStarted.encoded_eq
  · have hpadLen : s.encodeStarted.encoded.padLen.toNat = padOf s.inLen.toNat := hpad.1
    omega

/-- Settles O33: the code's two bytes at `opos`. -/
theorem encodeHitWritesTheCode : Obligations.EncodeHitWritesTheCode := by
  intro code s hb hp hlt hlen hroom hk
  have hstep := (step_enc_chunk hb hp hlt (by omega)).trans (encodeChunk_hit (s := s.popTurn) hk hroom)
  have hin {i : Nat} (h : i < 2) := s.obufByte_writeObuf_inside s.opos.toNat (bs := unitBytes code) h
  exact ⟨_, hstep, rfl, hin Nat.two_pos, hin Nat.one_lt_two, fun _ h => s.obufByte_writeObuf_outside h⟩

/-- Settles O34: the chunk's four bytes at `opos`; `collides` is bit 31. -/
theorem encodeMissWritesTheChunk : Obligations.EncodeMissWritesTheChunk := by
  intro s hb hp hlt hlen hroom hk
  have hstep := (step_enc_chunk hb hp hlt (by omega)).trans (encodeChunk_miss (s := s.popTurn) hk hroom)
  have hin {i : Nat} (h : i < 4) :=
    s.obufByte_writeObuf_inside s.opos.toNat (bs := chunkBytes (s.chunkAt s.pos.toNat)) h
  exact ⟨_, hstep, rfl, hin (i := 0) (by decide), hin (i := 1) (by decide), hin (i := 2) (by decide),
    hin (i := 3) (by decide), fun _ h => s.obufByte_writeObuf_outside h⟩

end Sys2Proof.Machine
end

section
/-! PROOFS. The decoder, one form at a time: what a step of phase DEC reads, what each form writes and how it
ends the decode, and that none of it reads the configuration. -/

namespace Sys2Proof

/-! ## A form is read from four bytes at most (R86) -/

theorem decodeStream_take_four (known : StreamUnit → Bool) (bs : List Byte) :
    decodeStream known (bs.take 4) = decodeStream known bs := by
  match bs with
  | [] => rfl
  | [_] => rfl
  | [_, _] => rfl
  | [_, _, _] => rfl
  | _ :: _ :: _ :: _ :: _ => rfl

/-- Four bytes appended as bit vectors are the chunk of those bytes (R65). -/
theorem append_bytes_eq_chunkOfBytes (b0 b1 b2 b3 : Byte) : b0 ++ b1 ++ b2 ++ b3 = chunkOfBytes b0 b1 b2 b3 := by
  refine BitVec.eq_of_getLsbD_eq fun i _ => ?_
  rw [getLsbD_chunkOfBytes, BitVec.getLsbD_append, BitVec.getLsbD_append, BitVec.getLsbD_append]
  grind

namespace Machine

section
variable {s t : State}

/-- The bytes of the stream that phase DEC has not read yet (R150). -/
def State.streamLeft (s : State) : List Byte := s.ibufSlice s.pos.toNat s.bytesLeft

@[simp] theorem State.streamLeft_length (s : State) : s.streamLeft.length = s.bytesLeft := by
  simp [State.streamLeft, State.ibufSlice]

theorem State.streamWindow_eq_take (s : State) : s.streamWindow = s.streamLeft.take 4 := by
  rw [State.streamWindow, State.streamLeft, State.ibufSlice, State.ibufSlice, ← List.map_take]
  exact congrArg _ (List.ext_getElem (by simp) (by simp))

/-- A step of phase DEC runs the form that all the bytes left decode to (R86, R150). -/
theorem step_dec (hb : s.BlockTurn) (hp : s.phase = .dec) (hpos : s.pos.toNat ≤ s.inLen.toNat)
    (hlen : s.inLen.toNat ≤ Config.ibufBytes) :
    step s = exec (decodeStream s.knows s.streamLeft) s.popTurn := by
  rw [step_form hb hp hpos hlen, State.streamWindow_eq_take, decode, decodeStream_take_four]

/-! ## What a form writes -/

/-- An emitted chunk: its four bytes at `opos`, both positions moved on, and nothing else (R152, R154). -/
theorem emitChunk_effect (ch : Chunk) (d : BitVec 32) (h : s.opos.toNat + 4 ≤ Config.obufBytes) :
    ∃ t, emitChunk ch d s = .next t ∧ t = { s with obuf := t.obuf, pos := s.pos + d, opos := s.opos + 4 } ∧
      t.obufByte s.opos.toNat = ch.extractLsb' 24 8 ∧ t.obufByte (s.opos.toNat + 1) = ch.extractLsb' 16 8 ∧
      t.obufByte (s.opos.toNat + 2) = ch.extractLsb' 8 8 ∧ t.obufByte (s.opos.toNat + 3) = ch.extractLsb' 0 8 ∧
      ∀ a, a < s.opos.toNat ∨ s.opos.toNat + 4 ≤ a → t.obufByte a = s.obufByte a := by
  have hin {i : Nat} (hi : i < 4) := s.obufByte_writeObuf_inside s.opos.toNat (bs := chunkBytes ch) hi
  exact ⟨_, emitChunk_inside h, rfl, hin (i := 0) (by decide), hin (i := 1) (by decide), hin (i := 2) (by decide),
    hin (i := 3) (by decide), fun _ ha => s.obufByte_writeObuf_outside ha⟩

/-- TRUNCATE at `opos`, field by field: OUT_LEN, SHORT, and OBUF cut at OUT_LEN (R158 to R160, R75). -/
theorem truncate_effect (h : s.truncate s.opos = t) :
    t = { s with
      phase := .idle, cmd := t.cmd,
      status := { s.status with
        done := true,
        short := s.status.short || decide (s.origSize ≠ 0 ∧ s.opos.toNat < s.origSize.toNat) },
      outLen := t.outLen, obuf := t.obuf, obufGen := t.obufGen } ∧
    (s.origSize = 0 ∨ s.opos.toNat < s.origSize.toNat → t.outLen = s.opos) ∧
    (s.origSize ≠ 0 → s.origSize.toNat ≤ s.opos.toNat → t.outLen = s.origSize) ∧
    (∀ a, a < t.outLen.toNat → (s.obuf.read a).isSome = true → t.obufByte a = s.obufByte a) ∧
    (∀ a, t.outLen.toNat ≤ a → t.obuf.read a = none) := by
  subst h
  refine ⟨?_, truncatedLen_eq_decoded, truncatedLen_eq_orig,
    fun _ ha hw => State.obufByte_closeOutput (s := s.setShort s.opos) ha hw,
    fun _ ha => State.read_closeOutput_above (s := s.setShort s.opos) ha⟩
  rw [← isShort_eq]
  rfl

/-! ## The configuration is not read (R164) -/

/-- The state with CODE_BASE and TOP_N at other values. -/
def State.withConfig (base : BitVec 16) (n : BitVec 8) (s : State) : State := { s with codeBase := base, topN := n }

variable (base : BitVec 16) (n : BitVec 8)

/-- CHECK of DECODE reads IN_LEN and DICT only (R202). -/
theorem check_decode_withConfig (s : State) : check 4#4 (s.withConfig base n) = check 4#4 s := by
  simp [check, State.withConfig]

theorem exec_decode_withConfig (ign : BitVec 28) (h : exec (.decode ign) s = .next t) :
    exec (.decode ign) (s.withConfig base n) = .next (t.withConfig base n) := by
  rw [exec_decode] at h ⊢
  rcases ctrlWrite_cases h with ⟨hp, ht⟩ | ⟨hp, e, hc, ht⟩ | ⟨hp, hc, ht⟩ <;> cases ht
  · exact ctrlWrite_busy hp
  · exact ctrlWrite_refused hp ((check_decode_withConfig base n s).trans hc)
  · exact ctrlWrite_accepted hp ((check_decode_withConfig base n s).trans hc)

theorem emitChunk_withConfig {ch : Chunk} {d : BitVec 32} (h : emitChunk ch d s = .next t) :
    emitChunk ch d (s.withConfig base n) = .next (t.withConfig base n) := by
  obtain ⟨hroom, rfl⟩ := emitChunk_cases h
  exact emitChunk_inside hroom

/-- Whatever form a stream's bytes decode to, it does the same under any configuration (R164). -/
theorem exec_decodeStream_withConfig (known : StreamUnit → Bool) (bs : List Byte)
    (h : exec (decodeStream known bs) s = .next t) :
    exec (decodeStream known bs) (s.withConfig base n) = .next (t.withConfig base n) := by
  rcases decodeStream_cases known bs with ⟨_, hd⟩ | ⟨b, _, hd⟩ | ⟨b0, b1, _, _, _, hd | hd⟩ |
    ⟨b0, b1, extra, _, _, hd⟩ | ⟨b0, b1, b2, b3, _, _, _, hd⟩ <;> rw [hd] at h ⊢
  · cases h
    exact exec_endOfStream _
  · cases h
    exact exec_tailByte b _
  · cases hk : lookupCode s.dict (unitOfBytes b0 b1) with
    | some ch =>
      rw [exec_code_known hk] at h
      exact (exec_code_known (s := s.withConfig base n) hk).trans (emitChunk_withConfig base n h)
    | none =>
      rw [exec_code_unknown hk] at h
      cases h
      exact exec_code_unknown (s := s.withConfig base n) hk
  · cases h
    exact exec_unknownCode _ _
  · cases h
    exact exec_tailHalf _ extra _
  · exact emitChunk_withConfig base n h

theorem fetchForm_cases (s : State) :
    fetchForm s = .instr (decodeStream s.knows s.streamWindow) ∨ ∃ f, fetchForm s = .stop f := by
  unfold fetchForm
  split_ifs
  · exact .inr ⟨_, rfl⟩
  · exact .inr ⟨_, rfl⟩
  · exact .inl rfl

/-- A block step in phase DEC does what its form does, or stops. -/
theorem step_dec_withConfig (hb : s.BlockTurn) (hp : s.phase = .dec) (h : step s = .next t) :
    step (s.withConfig base n) = .next (t.withConfig base n) := by
  have hwork (u : State) (hb : u.BlockTurn) (hp : u.phase = .dec) : nextWork u = fetchForm u := by
    rw [nextWork_of_blockTurn hb, blockWork, if_pos hp]
  have hfetch : fetchForm (s.withConfig base n) = fetchForm s := rfl
  rw [step, hwork s hb hp] at h
  rw [step, hwork (s.withConfig base n) hb hp, hfetch]
  rcases fetchForm_cases s with hf | ⟨f, hf⟩ <;> rw [hf] at h ⊢
  · exact exec_decodeStream_withConfig base n s.knows s.streamWindow h
  · cases h

end

/-! ## The statements about one form settled -/

/-- Settles O21: the key is found, and its chunk is emitted. -/
theorem codeHitAppendsTheChunk : Obligations.CodeHitAppendsTheChunk := by
  intro key ch s hk hroom
  rw [exec_code_known hk]
  exact emitChunk_effect ch 2 hroom

/-- Settles O22: the emitted chunk is put together from the four bytes, and taken apart into them again. -/
theorem verbatimAppendsItsFourBytes : Obligations.VerbatimAppendsItsFourBytes := by
  intro b0 b1 b2 b3 s hroom
  obtain ⟨h0, h1, h2, h3⟩ := extract_chunkOfBytes b0 b1 b2 b3
  have heffect := emitChunk_effect (chunkOfBytes b0 b1 b2 b3) 4 hroom
  rw [h0, h1, h2, h3] at heffect
  rw [append_bytes_eq_chunkOfBytes, exec_verbatim]
  exact heffect

/-- Settles O23: the output is closed at `opos`, which keeps the bytes below it. -/
theorem unknownCodeEndsTheDecodeWithItsUnit : Obligations.UnknownCodeEndsTheDecodeWithItsUnit := by
  intro key s
  exact ⟨fun hk => (exec_code_unknown hk).trans (exec_unknownCode key s).symm, _, exec_unknownCode key s, rfl,
    fun _ ha hw => State.obufByte_closeOutput ha hw, fun _ ha => State.read_closeOutput_above ha⟩

/-- Settles O24: each of the three forms is TRUNCATE at `opos`, the tails' after TAIL. -/
theorem endAndTailsFinishThroughTruncate : Obligations.EndAndTailsFinishThroughTruncate := by
  intro i u0 extra b tail s hi
  rcases hi with ⟨rfl | rfl, rfl⟩ | ⟨rfl, rfl⟩
  · exact ⟨_, exec_tailHalf u0 extra s, truncate_effect (s := s.setTail) rfl⟩
  · exact ⟨_, exec_tailByte b s, truncate_effect (s := s.setTail) rfl⟩
  · exact ⟨_, exec_endOfStream s, truncate_effect rfl⟩

/-- Settles O58: acceptance and the step of phase DEC, each for any configuration. -/
theorem decodingIgnoresTheConfiguration : Obligations.DecodingIgnoresTheConfiguration :=
  fun _ _ base n => ⟨fun ign h => exec_decode_withConfig base n ign h,
    fun hb hp h => step_dec_withConfig base n hb hp h⟩

/-- Settles O7: the model's window of four bytes decodes as all the bytes left do. -/
theorem decStepRunsTheDecodedForm : Obligations.DecStepRunsTheDecodedForm := by
  rintro s _ hb hp hpos hlen rfl _
  exact step_dec hb hp hpos hlen

end Machine

end Sys2Proof
end

section
/-! PROOFS. The decoder, the whole command: each step of phase DEC emits a chunk or ends the decode, and a run of them
leaves what the stream decodes to. -/

namespace Sys2Proof.Machine

/-! ## The stream, form by form (R150 to R157) -/

section
variable {dict : List Slot} {b0 b1 : Byte}

/-- A code unit that the dictionary holds decodes to its chunk. -/
theorem decoded_known (ht : b0.getLsbD 7 = true) {ch : Chunk} (hk : lookupCode dict (unitOfBytes b0 b1) = some ch)
    (rest : List Byte) :
    decodedBytes dict (b0 :: b1 :: rest) = chunkBytes ch ++ decodedBytes dict rest ∧
      ∀ i, streamEnd dict i (b0 :: b1 :: rest) = streamEnd dict (i + 2) rest := by
  have hu := (tagged_unitOfBytes b0 b1).trans ht
  exact ⟨by rw [decodedBytes.eq_def]; simp only [hu, hk, if_true],
    fun i => by rw [streamEnd.eq_def]; simp only [hu, hk, if_true]⟩

/-- A code unit that the dictionary does not hold ends the decode. -/
theorem decoded_unknown (ht : b0.getLsbD 7 = true) (hk : lookupCode dict (unitOfBytes b0 b1) = none)
    (rest : List Byte) :
    decodedBytes dict (b0 :: b1 :: rest) = [] ∧
      ∀ i, streamEnd dict i (b0 :: b1 :: rest) = .unknown i (unitOfBytes b0 b1) := by
  have hu := (tagged_unitOfBytes b0 b1).trans ht
  exact ⟨by rw [decodedBytes.eq_def]; simp only [hu, hk, if_true],
    fun i => by rw [streamEnd.eq_def]; simp only [hu, hk, if_true]⟩

/-- A half, with or without a third byte, is a tail. -/
theorem decoded_half (ht : b0.getLsbD 7 = false) (extra : Option Byte) :
    decodedBytes dict (b0 :: b1 :: extra.toList) = [] ∧
      ∀ i, streamEnd dict i (b0 :: b1 :: extra.toList) = .atTail := by
  have hu := ne_true_of_eq_false ((tagged_unitOfBytes b0 b1).trans ht)
  cases extra with
  | none => exact ⟨if_neg hu, fun _ => if_neg hu⟩
  | some b2 => exact ⟨if_neg hu, fun _ => if_neg hu⟩

/-- A verbatim pair decodes to its four bytes. -/
theorem decoded_pair (ht : b0.getLsbD 7 = false) (b2 b3 : Byte) (rest : List Byte) :
    decodedBytes dict (b0 :: b1 :: b2 :: b3 :: rest) =
        chunkBytes (chunkOfBytes b0 b1 b2 b3) ++ decodedBytes dict rest ∧
      ∀ i, streamEnd dict i (b0 :: b1 :: b2 :: b3 :: rest) = streamEnd dict (i + 4) rest := by
  have hu := ne_true_of_eq_false ((tagged_unitOfBytes b0 b1).trans ht)
  rw [chunkBytes_chunkOfBytes]
  exact ⟨by rw [decodedBytes, if_neg hu], fun i => by rw [streamEnd, if_neg hu]⟩

end

/-! ## One step of phase DEC: the decode ends, or a chunk is emitted -/

/-- What ends the decode in a state, by how the stream ends (R153, R155 to R157). -/
def State.endDecode (s : State) : StreamEnd → State
  | .atEnd => s.truncate s.opos
  | .atTail => s.setTail.truncate s.opos
  | .unknown _ val => s.unknownUnit val

/-- The form that a stream's bytes decode to either ends the decode, or emits a chunk for two or four of them. -/
theorem exec_decodeStream_cases (s : State) (bs : List Byte) :
    (decodedBytes s.dict bs = [] ∧
      (∀ p val, streamEnd s.dict s.pos.toNat bs = .unknown p val → s.pos.toNat = p) ∧
      exec (decodeStream s.knows bs) s = .next (s.endDecode (streamEnd s.dict s.pos.toNat bs))) ∨
    (∃ ch d, (d = 2 ∨ d = 4) ∧ d ≤ bs.length ∧
      decodedBytes s.dict bs = chunkBytes ch ++ decodedBytes s.dict (bs.drop d) ∧
      (∀ i, streamEnd s.dict i bs = streamEnd s.dict (i + d) (bs.drop d)) ∧
      exec (decodeStream s.knows bs) s = emitChunk ch (BitVec.ofNat 32 d) s) := by
  rcases decodeStream_cases s.knows bs with ⟨rfl, hd⟩ | ⟨b, rfl, hd⟩ | ⟨b0, b1, rest, rfl, ht, -⟩ |
    ⟨b0, b1, extra, rfl, ht, hd⟩ | ⟨b0, b1, b2, b3, rest, rfl, ht, hd⟩
  · exact .inl ⟨rfl, nofun, by rw [hd]; exact exec_endOfStream s⟩
  · exact .inl ⟨rfl, nofun, by rw [hd]; exact exec_tailByte b s⟩
  · rw [decodeStream_tagged s.knows b1 ht rest, State.knows]
    cases hk : lookupCode s.dict (unitOfBytes b0 b1) with
    | some ch =>
      obtain ⟨hbytes, hend⟩ := decoded_known ht hk rest
      exact .inr ⟨ch, 2, .inl rfl, by simp, hbytes, hend, exec_code_known hk⟩
    | none =>
      obtain ⟨hbytes, hend⟩ := decoded_unknown ht hk rest
      rw [hend]
      exact .inl ⟨hbytes, fun p val h => (StreamEnd.unknown.inj h).1, exec_unknownCode _ s⟩
  · obtain ⟨hbytes, hend⟩ := decoded_half (dict := s.dict) (b1 := b1) ht extra
    rw [hend, hd]
    exact .inl ⟨hbytes, nofun, exec_tailHalf _ extra s⟩
  · obtain ⟨hbytes, hend⟩ := decoded_pair (dict := s.dict) (b1 := b1) ht b2 b3 rest
    exact .inr ⟨_, 4, .inr rfl, by simp, hbytes, hend, by rw [hd]; exact exec_verbatim _ s⟩

/-! ## Runs inside a phase -/

/-- A run of `n` steps from `s` to `t`, every state before `t` in a phase of `P`. -/
structure RunsWhile (P : Phase → Prop) (n : Nat) (s t : State) : Prop where
  run : runSteps n s = .next t
  within : ∀ k, k < n → ∃ u, runSteps k s = .next u ∧ P u.phase

section
variable {P : Phase → Prop} {m n : Nat} {s t u : State}

theorem RunsWhile.single (hp : P s.phase) (h : step s = .next t) : RunsWhile P 1 s t where
  run := runSteps_succ h
  within k hk := by
    obtain rfl : k = 0 := by omega
    exact ⟨s, rfl, hp⟩

theorem RunsWhile.trans (h : RunsWhile P m s t) (h' : RunsWhile P n t u) : RunsWhile P (m + n) s u where
  run := (runSteps_add h.run).trans h'.run
  within k hk := by
    by_cases hlt : k < m
    · exact h.within k hlt
    · obtain ⟨j, rfl⟩ := Nat.exists_eq_add_of_le (Nat.le_of_not_lt hlt)
      rw [runSteps_add h.run]
      exact h'.within j (by omega)

end

/-! ## The run of phase DEC (R150 to R157, R165) -/

section
variable {s t u : State}

/-- Every byte that the decode leaves in OBUF: those decoded so far, then those to come. -/
def State.decodeOutput (s : State) : List Byte := s.obufSlice 0 s.opos.toNat ++ decodedBytes s.dict s.streamLeft

/-- How the stream that is being decoded ends. -/
def State.decodeEnd (s : State) : StreamEnd := streamEnd s.dict s.pos.toNat s.streamLeft

/-- `u` is reached from `s` by emitting chunks: the decode's output and end are the same, and of the state only the
positions and OBUF differ. -/
structure State.EmitsTo (s u : State) : Prop where
  inv : u.Inv
  fields : ∃ pos opos obuf, u = { s with pos := pos, opos := opos, obuf := obuf }
  output : u.decodeOutput = s.decodeOutput
  ending : u.decodeEnd = s.decodeEnd

theorem State.EmitsTo.refl (h : s.Inv) : s.EmitsTo s := ⟨h, ⟨_, _, _, rfl⟩, rfl, rfl⟩

theorem State.EmitsTo.trans (h : s.EmitsTo t) (h' : t.EmitsTo u) : s.EmitsTo u where
  inv := h'.inv
  fields := by
    obtain ⟨_, _, _, rfl⟩ := h.fields
    obtain ⟨pos, opos, obuf, rfl⟩ := h'.fields
    exact ⟨pos, opos, obuf, rfl⟩
  output := h'.output.trans h.output
  ending := h'.ending.trans h.ending

/-- The state after a chunk has been emitted for `d` bytes of the stream (R152, R154). -/
def State.emitted (ch : Chunk) (d : Nat) (s : State) : State :=
  (s.writeObuf s.opos.toNat (chunkBytes ch)).advance (BitVec.ofNat 32 d) 4

theorem emitChunk_next {ch : Chunk} {d : Nat} (h : s.opos.toNat + 4 ≤ Config.obufBytes) :
    emitChunk ch (BitVec.ofNat 32 d) s = .next (s.emitted ch d) := emitChunk_inside h

/-- While the bytes are there to be read, the chunk fits OBUF and neither position wraps (R50, R162). -/
theorem State.Inv.emit_bounds (h : s.Inv) (hp : s.phase = .dec) {d : Nat} (hd : 2 ≤ d) (hleft : d ≤ s.bytesLeft) :
    s.opos.toNat + 4 ≤ Config.obufBytes ∧ s.pos.toNat + d < 2 ^ 32 ∧ s.opos.toNat + 4 < 2 ^ 32 := by
  obtain ⟨_, _, _, hpos, _, hbound, _⟩ := (State.phaseInv_dec hp).1 h.phaseInv
  obtain ⟨_, hmax, _⟩ := ibufBytes_bounds
  have hlen := h.busyLen (by simp [hp])
  have hfits : s.pos.toNat + d ≤ s.inLen.toNat := by unfold State.bytesLeft at hleft; omega
  rw [obufBytes_eq]
  omega

theorem State.emitted_pos {ch : Chunk} {d : Nat} (h : s.pos.toNat + d < 2 ^ 32) :
    (s.emitted ch d).pos.toNat = s.pos.toNat + d := by
  have hd : (BitVec.ofNat 32 d).toNat = d := by rw [BitVec.toNat_ofNat]; omega
  exact (toNat_add_of_lt (x := s.pos) (by rwa [hd])).trans (by rw [hd])

theorem State.emitted_opos {ch : Chunk} {d : Nat} (h : s.opos.toNat + 4 < 2 ^ 32) :
    (s.emitted ch d).opos.toNat = s.opos.toNat + 4 := toNat_add_of_lt h

/-- Emitting takes the bytes read from what is left of the stream. -/
theorem State.emitted_streamLeft {ch : Chunk} {d : Nat} (h : s.pos.toNat + d < 2 ^ 32) :
    (s.emitted ch d).streamLeft = s.streamLeft.drop d := by
  unfold State.streamLeft State.bytesLeft State.ibufSlice
  rw [State.emitted_pos h, ← List.map_drop, List.drop_range', Nat.sub_sub, Nat.mul_one]
  rfl

/-- Emitting appends the chunk's bytes to what has been decoded. -/
theorem State.emitted_obufSlice {ch : Chunk} {d : Nat} (h : s.opos.toNat + 4 < 2 ^ 32) :
    (s.emitted ch d).obufSlice 0 (s.emitted ch d).opos.toNat = s.obufSlice 0 s.opos.toNat ++ chunkBytes ch := by
  rw [State.emitted_opos h]
  exact s.obufSlice_writeObuf s.opos.toNat (chunkBytes ch)

/-- Emitting the chunk that the next bytes decode to changes neither the output nor the end. -/
theorem State.Inv.emitsTo (h : s.Inv) (hp : s.phase = .dec) {ch : Chunk} {d : Nat} (hd : d = 2 ∨ d = 4)
    (hleft : d ≤ s.bytesLeft)
    (hbytes : decodedBytes s.dict s.streamLeft = chunkBytes ch ++ decodedBytes s.dict (s.streamLeft.drop d))
    (hend : ∀ i, streamEnd s.dict i s.streamLeft = streamEnd s.dict (i + d) (s.streamLeft.drop d)) :
    s.EmitsTo (s.emitted ch d) := by
  obtain ⟨hroom, hpos, hopos⟩ := h.emit_bounds hp (d := d) (by omega) hleft
  have hd32 : (BitVec.ofNat 32 d).toNat = d := by rw [BitVec.toNat_ofNat]; omega
  refine ⟨h.emitChunk hp hroom (by rwa [hd32]) (by rwa [hd32]) ch, ⟨_, _, _, rfl⟩, ?_, ?_⟩
  · rw [State.decodeOutput, State.decodeOutput, State.emitted_obufSlice hopos, State.emitted_streamLeft hpos, hbytes,
      List.append_assoc]
    rfl
  · rw [State.decodeEnd, State.decodeEnd, State.emitted_pos hpos, State.emitted_streamLeft hpos, hend]
    rfl

/-- A step of phase DEC, with no turn of the host to come: it ends the decode with everything decoded, or goes on
from a state that decodes to the same. -/
theorem State.Inv.step_ends_or_emits (h : s.Inv) (hp : s.phase = .dec) (ht : s.turns = []) :
    (s.obufSlice 0 s.opos.toNat = s.decodeOutput ∧ (∀ p val, s.decodeEnd = .unknown p val → s.pos.toNat = p) ∧
      step s = .next (s.endDecode s.decodeEnd)) ∨
    ∃ t, step s = .next t ∧ s.EmitsTo t ∧ t.bytesLeft + 2 ≤ s.bytesLeft := by
  obtain ⟨_, _, _, hpos, _⟩ := (State.phaseInv_dec hp).1 h.phaseInv
  rw [step_dec (.inl ht) hp hpos (h.busyLen (by simp [hp])), State.popTurn_of_nil ht]
  rcases exec_decodeStream_cases s s.streamLeft with ⟨hbytes, hunknown, hexec⟩ |
    ⟨ch, d, hd, hle, hbytes, hend, hexec⟩
  · refine .inl ⟨?_, hunknown, hexec⟩
    rw [State.decodeOutput, hbytes, List.append_nil]
  · rw [s.streamLeft_length] at hle
    obtain ⟨hroom, hpos, _⟩ := h.emit_bounds hp (d := d) (by omega) hle
    have hrest : (s.emitted ch d).bytesLeft = s.bytesLeft - d := by
      rw [← State.streamLeft_length, State.emitted_streamLeft hpos, List.length_drop, State.streamLeft_length]
    exact .inr ⟨s.emitted ch d, hexec.trans (emitChunk_next hroom), h.emitsTo hp hd hle hbytes hend, by omega⟩

/-- Phase DEC, left alone, ends after a step for every two bytes left at most, and one more: it emits chunks up to
a state that holds the whole output, and ends the decode there (R165). -/
theorem State.Inv.runs_dec (h : s.Inv) (hp : s.phase = .dec) (ht : s.turns = []) :
    ∃ n u, 1 ≤ n ∧ n ≤ s.bytesLeft / 2 + 1 ∧ s.EmitsTo u ∧ u.obufSlice 0 u.opos.toNat = s.decodeOutput ∧
      (∀ p val, s.decodeEnd = .unknown p val → u.pos.toNat = p) ∧
      RunsWhile (· = .dec) n s (u.endDecode s.decodeEnd) := by
  induction hn : s.bytesLeft using Nat.strong_induction_on generalizing s with
  | _ left ih =>
    rcases h.step_ends_or_emits hp ht with ⟨hout, hunknown, hstep⟩ | ⟨t, hstep, hto, hleft⟩
    · exact ⟨1, s, Nat.le_refl 1, by omega, .refl h, hout, hunknown, .single hp hstep⟩
    · obtain ⟨_, _, _, hfields⟩ := hto.fields
      have hpt : t.phase = .dec := by rw [hfields]; exact hp
      have htt : t.turns = [] := by rw [hfields]; exact ht
      obtain ⟨n, u, _, hbound, htu, hout, hunknown, hrun⟩ := ih t.bytesLeft (by omega) hto.inv hpt htt rfl
      rw [hto.ending] at hunknown hrun
      refine ⟨1 + n, u, by omega, by omega, hto.trans htu, hout.trans hto.output, hunknown, ?_⟩
      exact (RunsWhile.single hp hstep).trans hrun

/-! ## The end of the decode (R153, R158) -/

@[simp] theorem State.obufSlice_length (s : State) (a n : Nat) : (s.obufSlice a n).length = n := by
  simp [State.obufSlice]

/-- A shorter part of OBUF is the beginning of a longer one. -/
theorem State.obufSlice_eq_take (s : State) {m n : Nat} (h : m ≤ n) : s.obufSlice 0 m = (s.obufSlice 0 n).take m := by
  refine List.ext_getElem (by simp [h]) fun i _ _ => ?_
  simp [State.obufSlice]

/-- TRUNCATE's length as a number: ORIG_SIZE, where it is recorded, cuts the decoded length (R158 to R160). -/
theorem truncatedLen_toNat (o d : BitVec 32) :
    (truncatedLen o d).toNat = if o.toNat = 0 then d.toNat else min o.toNat d.toNat := by
  split_ifs with h0
  · rw [truncatedLen_eq_decoded (.inl (BitVec.eq_of_toNat_eq h0))]
  · rcases Nat.lt_or_ge d.toNat o.toNat with hlt | hle
    · rw [truncatedLen_eq_decoded (.inr hlt), Nat.min_eq_right (by omega)]
    · rw [truncatedLen_eq_orig (fun h => h0 (by rw [h]; rfl)) hle, Nat.min_eq_left hle]

/-- A recorded size is short of nothing when it is 0, so its condition is the comparison alone (R160). -/
theorem isShort_eq_lt (o d : BitVec 32) : isShort o d = decide (d.toNat < o.toNat) := by
  rw [isShort_eq, decide_eq_decide]
  refine and_iff_right_of_imp fun h h0 => ?_
  rw [h0] at h
  exact absurd h (Nat.not_lt_zero _)

/-- Phase DEC's output stands in OBUF as far as it is decoded. -/
theorem State.EmitsTo.written (h : s.EmitsTo u) (hp : s.phase = .dec) : u.obufWritten u.opos.toNat := by
  have hpu : u.phase = .dec := by
    obtain ⟨_, _, _, rfl⟩ := h.fields
    exact hp
  obtain ⟨_, _, _, _, _, _, hw⟩ := (State.phaseInv_dec hpu).1 h.inv.phaseInv
  exact hw

/-- TRUNCATE at `opos` leaves the first bytes decoded, as many as the recorded size allows, and records no error
(R155 to R160). -/
theorem State.truncate_decoded {out : List Byte} {cut : Nat} {orig : BitVec 32} {tail : Bool}
    (hw : s.obufWritten s.opos.toNat) (hout : s.obufSlice 0 s.opos.toNat = out) (horig : s.origSize = orig)
    (hcut : cut = if orig.toNat = 0 then out.length else min orig.toNat out.length)
    (hstatus : s.status = { Status.clear with tail := tail }) (hcaptures : s.errPos = 0 ∧ s.errVal = 0)
    (h : s.truncate s.opos = t) :
    t.status = { Status.clear with done := true, tail := tail, short := decide (out.length < orig.toNat) } ∧
      t.errPos = 0 ∧ t.errVal = 0 ∧ t.outLen.toNat = cut ∧ t.obufSlice 0 cut = out.take cut := by
  subst h hout horig
  rw [State.obufSlice_length, ← truncatedLen_toNat] at hcut
  have hle := truncatedLen_le s.origSize s.opos
  subst hcut
  refine ⟨?_, hcaptures.1, hcaptures.2, rfl, ?_⟩
  · rw [State.obufSlice_length, ← isShort_eq_lt]
    exact congrArg (fun st => (st.withShort s.origSize s.opos).withDone) hstatus
  · rw [← s.obufSlice_eq_take hle]
    exact State.obufSlice_closeOutput (s := s.setShort s.opos) (hw.mono hle)

/-- An unknown code leaves all the bytes decoded, and its unit's offset and value (R153). -/
theorem State.unknownUnit_decoded {out : List Byte} (hw : s.obufWritten s.opos.toNat)
    (hout : s.obufSlice 0 s.opos.toNat = out) (hstatus : s.status = Status.clear) {val : StreamUnit}
    (h : s.unknownUnit val = t) :
    t.status = { Status.clear with done := true, err := .unknownCode } ∧ t.errPos = s.pos ∧ t.errVal = val ∧
      t.outLen.toNat = out.length ∧ t.obufSlice 0 out.length = out := by
  subst h hout
  rw [State.obufSlice_length]
  exact ⟨congrArg (fun st => (st.withErr .unknownCode).withDone) hstatus, rfl, rfl, rfl,
    State.obufSlice_closeOutput hw⟩

/-! ## The whole DECODE (R182) -/

/-- The state a DECODE accepted in `s` starts in, with no turn of the host to come. -/
def State.decodeStarted (s : State) : State := { s.clearForCommand.rewind.start .decode .dec with turns := [] }

theorem State.Inv.decodeStarted (h : s.Inv) (hl : s.inLen.toNat ≤ Config.ibufBytes)
    (hd : dictWellFormed s.dict = true) : s.decodeStarted.Inv :=
  (h.startDecode (check_codec_none (.inr rfl) hl hd)).withHostFields [] s.draws s.replies false

theorem step_decode_accepted {w : Word} (hp : s.phase = .idle) (ht : s.turns = [ctrlTurn w])
    (hw : w.toNat % 16 = 4) (hl : s.inLen.toNat ≤ Config.ibufBytes) (hd : dictWellFormed s.dict = true) :
    step s = .next s.decodeStarted :=
  calc step s = exec (.decode (w.extractLsb' 4 28)) s.popTurn := by
        rw [step_ctrl ht rfl, decodeCtrl_of_cmd hw]; rfl
    _ = .next (s.popTurn.clearForCommand.rewind.start .decode .dec) :=
        (exec_decode ..).trans (ctrlWrite_accepted hp (check_codec_none (.inr rfl) hl hd))
    _ = .next s.decodeStarted := by rw [State.popTurn_eq ht]; rfl

/-- Emitting leaves what the acceptance has set, and ORIG_SIZE. -/
theorem State.EmitsTo.fields_of_started (h : s.decodeStarted.EmitsTo u) :
    u.origSize = s.origSize ∧ u.status = Status.clear ∧ u.errPos = 0 ∧ u.errVal = 0 := by
  obtain ⟨_, _, _, rfl⟩ := h.fields
  exact ⟨rfl, rfl, rfl, rfl⟩

/-- What the end of the decode changes of a state. -/
theorem State.endDecode_eq (s : State) (e : StreamEnd) :
    s.endDecode e = { s with
      phase := .idle, status := (s.endDecode e).status, errPos := (s.endDecode e).errPos,
      errVal := (s.endDecode e).errVal, outLen := (s.endDecode e).outLen, pos := (s.endDecode e).pos,
      opos := (s.endDecode e).opos, obuf := (s.endDecode e).obuf, obufGen := (s.endDecode e).obufGen } := by
  cases e <;> rfl

end

/-! ## The statement about the whole DECODE settled -/

/-- Settles O39: the CTRL write, then phase DEC chunk by chunk, and the end that the stream has. -/
theorem decodeCommandDecodesTheStream : Obligations.DecodeCommandDecodesTheStream := by
  intro s w hI hp ht hw hl hd out cut
  have haccept : runSteps 1 s = .next s.decodeStarted := runSteps_succ (step_decode_accepted hp ht hw hl hd)
  obtain ⟨n, u, hn, hbound, hto, hout, hunknown, hrun⟩ := (hI.decodeStarted hl hd).runs_dec rfl rfl
  have hwritten := hto.written rfl
  obtain ⟨horig, hstatus, hcaptures⟩ := hto.fields_of_started
  have hend : streamEnd s.dict 0 (s.ibufSlice 0 s.inLen.toNat) = s.decodeStarted.decodeEnd := rfl
  rw [hend]
  refine ⟨n, u.endDecode s.decodeStarted.decodeEnd, hn, hbound, fun k hk => ?_, (runSteps_add haccept).trans hrun.run,
    ?_, fun he => ?_, fun he => ?_, fun p val he => ?_⟩
  · rw [runSteps_add haccept]
    exact hrun.within k hk
  · rw [hp]
    obtain ⟨_, _, _, rfl⟩ := hto.fields
    exact State.endDecode_eq _ _
  · rw [he]
    exact State.truncate_decoded (s := u) hwritten hout horig rfl hstatus hcaptures rfl
  · rw [he]
    exact State.truncate_decoded (s := u.setTail) hwritten hout horig rfl (congrArg Status.withTail hstatus)
      hcaptures rfl
  · obtain ⟨hended, herrPos, hrest⟩ := State.unknownUnit_decoded hwritten hout hstatus (val := val) rfl
    rw [he]
    exact ⟨hended, (congrArg BitVec.toNat herrPos).trans (hunknown p val he), hrest⟩

end Sys2Proof.Machine
end

section
/-! PROOFS. The round trip: what ENCODE or COMPRESS leaves without a collision, DECODE gives back (R163). -/

namespace Sys2Proof.Machine

/-! ## Runs that end idle -/

section
variable {s t u : State} {m n : Nat}

/-- An idle block with no turn left stays as it is (R184, R222; log entry 4). -/
theorem runSteps_idle (hp : s.phase = .idle) (ht : s.turns = []) (n : Nat) : runSteps n s = .next s := by
  have hstep : step s = .next s := by
    rw [step_block (.inl ht) (by simp [hp]), State.popTurn_of_nil ht, blockStep_idle hp]
  induction n with
  | zero => rfl
  | succ n ih => rw [runSteps_succ hstep, ih]

/-- A run that is busy up to its end comes to no other idle state than that end. -/
theorem RunsWhile.eq_of_idle (h : RunsWhile (· ≠ .idle) n s t) (htp : t.phase = .idle) (htt : t.turns = [])
    (hr : runSteps m s = .next u) (hu : u.phase = .idle) : u = t := by
  by_cases hlt : m < n
  · obtain ⟨v, hv, hbusy⟩ := h.within m hlt
    obtain rfl : v = u := Host.Outcome.next.inj (hv.symm.trans hr)
    exact absurd hu hbusy
  · obtain ⟨j, rfl⟩ := Nat.exists_eq_add_of_le (Nat.le_of_not_lt hlt)
    rw [runSteps_add h.run, runSteps_idle htp htt] at hr
    exact (Host.Outcome.next.inj hr).symm

/-- A run keeps the invariant, its steps all doing so. -/
theorem runSteps_keeps_inv (h : s.Inv) (hr : runSteps n s = .next t) : t.Inv := by
  induction n generalizing s with
  | zero => exact Host.Outcome.next.inj hr ▸ h
  | succ n ih =>
    obtain ⟨v, hv⟩ := invariantStatesNeverStop s h
    exact ih (everyStepKeepsTheInvariant s v h hv) (runSteps_succ hv ▸ hr)

/-! ## Acceptance, seen from a command's end -/

/-- A failing check is an error (R202). -/
theorem check_ne_some_none (c : BitVec 4) (s : State) : check c s ≠ some .none := by
  unfold check
  split_ifs <;> simp

/-- A command that has ended without an error had been accepted (R177). -/
theorem check_none_of_run {w : Word} (hp : s.phase = .idle) (ht : s.turns = [ctrlTurn w])
    (hr : runSteps (m + 1) s = .next t) (he : t.status.err = .none) : check (w.extractLsb' 0 4) s = none := by
  obtain ⟨act, hact, _⟩ := exec_commandOf (w.extractLsb' 4 28) (w.extractLsb' 0 4) s.popTurn
  cases hc : check (w.extractLsb' 0 4) s with
  | none => rfl
  | some e =>
    have hstep : step s = .next (s.popTurn.clearForCommand.refuse e) :=
      (step_ctrl ht rfl).trans (hact.trans (ctrlWrite_refused (s := s.popTurn) hp hc))
    have hturns : s.popTurn.turns = [] := by rw [State.popTurn_turns, ht]; rfl
    rw [runSteps_succ hstep, runSteps_idle (s := s.popTurn.clearForCommand.refuse e) hp hturns] at hr
    obtain rfl := Host.Outcome.next.inj hr
    have he' : e = .none := he
    exact absurd (he' ▸ hc) (check_ne_some_none _ s)

/-! ## Into phase ENC (R180, R181, R185) -/

/-- The state in which a COMPRESS accepted in `s` enters phase ENC: everything counted, and DICT built. -/
def State.compressStarted (s : State) : State :=
  ((s.counted .compress s.inputChunks.length).enter .select).selectAndBuild.rewind.enter .enc

/-- An accepted COMPRESS has counted nothing yet (R181). -/
theorem step_compress_accepted {w : Word} (hp : s.phase = .idle) (ht : s.turns = [ctrlTurn w])
    (hw : w.toNat % 16 = 3) (hl : s.inLen.toNat ≤ Config.ibufBytes)
    (hconf : configOk s.codeBase s.topN = true) : step s = .next (s.counted .compress 0) :=
  calc step s = exec (.compress (w.extractLsb' 4 28)) s.popTurn := by
        rw [step_ctrl ht rfl, decodeCtrl_of_cmd hw]; rfl
    _ = .next (s.popTurn.clearForCommand.startCount .compress) :=
        (exec_compress ..).trans (ctrlWrite_accepted hp (check_analyzer_none (.inr rfl) hl hconf))
    _ = .next (s.counted .compress 0) := by rw [State.popTurn_eq ht]; rfl

/-- COMPRESS comes into phase ENC by phases COUNT and SELECT (R185). -/
theorem runsWhile_compressStarted (hl : s.inLen.toNat ≤ Config.ibufBytes) :
    RunsWhile (· ≠ .idle) (s.inputChunks.length + 2) (s.counted .compress 0) s.compressStarted where
  run := by
    have hselect := step_select_compress
      (s := (s.counted .compress s.inputChunks.length).enter .select) (.inl rfl) rfl rfl
    rw [← Nat.add_assoc _ 1 1, runSteps_add (runSteps_counted_select hl), runSteps_succ hselect]
    rfl
  within k hk := runSteps_counted_busy hl (by omega)

theorem State.compressStarted_ready (hl : s.inLen.toNat ≤ Config.ibufBytes) : s.compressStarted.ReadyToEncode :=
  ⟨rfl, rfl, hl, (State.pad_padded (s := s.clearForCommand) hl).of_fields rfl rfl rfl rfl⟩

/-- Phase ENC, once entered, runs to the end of the command (R185). -/
theorem State.ReadyToEncode.runsWhile_encoded (h : s.ReadyToEncode) :
    RunsWhile (· ≠ .idle) (s.inputChunks.length + 1) (s.encodedTo 0) s.encoded where
  run := h.runSteps_encoded
  within k hk := by
    refine ⟨_, h.runSteps_chunks (by omega), ?_⟩
    rw [show (s.encodedTo k).phase = .enc from h.phase]
    decide

/-- The encoded stream fits IBUF, to be decoded from there (R144). -/
theorem State.encoded_outLen_le (hl : s.inLen.toNat ≤ Config.ibufBytes) :
    s.encoded.outLen.toNat ≤ Config.ibufBytes := by
  obtain ⟨hle, hin⟩ := s.encodedBytes_take_length_le hl (Nat.le_refl _)
  rw [State.encoded_outLen hl]
  rw [List.take_length] at hle
  exact hle.trans hin

/-- An ENCODE or COMPRESS that ends without an error ends as a run of phase ENC over the padded input, entered with
HAZ clear, does (R163, R180, R181). -/
theorem ended_encode {w : Word} (h : s.Inv) (hp : s.phase = .idle) (ht : s.turns = [ctrlTurn w])
    (hw : w.toNat % 16 = 2 ∨ w.toNat % 16 = 3) (hr : runSteps (m + 1) s = .next t) (htp : t.phase = .idle)
    (he : t.status.err = .none) :
    ∃ r : State, r.ReadyToEncode ∧ dictWellFormed r.dict = true ∧ r.status.haz = false ∧
      r.inputChunks = s.inputChunks ∧ t = r.encoded := by
  have hcheck := check_none_of_run hp ht hr he
  have hcmd := cmd_toNat w
  rcases hw with hw | hw
  · obtain ⟨hl, hd⟩ := check_codec_accepts (.inl (BitVec.eq_of_toNat_eq (hcmd.trans hw))) hcheck
    have hready := State.encodeStarted_ready hl
    rw [runSteps_succ (step_encode_accepted hp ht hw hl hd)] at hr
    exact ⟨s.encodeStarted, hready, hd, rfl, rfl, hready.runsWhile_encoded.eq_of_idle rfl rfl hr htp⟩
  · obtain ⟨hl, hconf⟩ := check_analyzer_accepts (.inr (BitVec.eq_of_toNat_eq (hcmd.trans hw))) hcheck
    have hready := State.compressStarted_ready hl
    have hstart := step_compress_accepted hp ht hw hl hconf
    have hinv : s.compressStarted.Inv :=
      runSteps_keeps_inv h ((runSteps_succ hstart).trans (runsWhile_compressStarted hl).run)
    obtain ⟨_, _, hd, _⟩ := (State.phaseInv_enc rfl).1 hinv.phaseInv
    have hrun := hready.runsWhile_encoded
    rw [State.encodedTo_zero rfl rfl] at hrun
    rw [runSteps_succ hstart] at hr
    exact ⟨s.compressStarted, hready, hd, rfl, rfl,
      ((runsWhile_compressStarted hl).trans hrun).eq_of_idle rfl rfl hr htp⟩

end

/-! ## The valid pairs of a dictionary (R163) -/

section
variable {dict dict' : List Slot}

theorem mem_validPairs {c : Chunk} {code : BitVec 16} :
    (c, code) ∈ validPairs dict ↔ ∃ d ∈ dict, d.valid = true ∧ d.chunk = c ∧ d.code = code := by
  simp [validPairs, validSlots, and_assoc]

/-- WF_CHECK reads the valid pairs only (R126). -/
theorem dictWellFormed_iff_pairs :
    dictWellFormed dict = true ↔ (∀ p ∈ validPairs dict, StreamUnit.tagged p.2 = true) ∧
      ((validPairs dict).map (·.2)).Nodup ∧ ((validPairs dict).map (·.1)).Nodup := by
  rw [dictWellFormed_iff, validPairs, List.map_map, List.map_map, List.forall_mem_map]
  simp only [validSlots, List.mem_filter, and_imp, Function.comp_def]

/-- WF_CHECK does not see in which slots the valid pairs stand (R126, R163). -/
theorem dictWellFormed_perm (h : (validPairs dict').Perm (validPairs dict)) (hd : dictWellFormed dict = true) :
    dictWellFormed dict' = true := by
  rw [dictWellFormed_iff_pairs] at hd ⊢
  obtain ⟨htag, hcodes, hchunks⟩ := hd
  exact ⟨fun p hp => htag p (h.mem_iff.1 hp), (h.map _).nodup_iff.2 hcodes, (h.map _).nodup_iff.2 hchunks⟩

/-- In a well-formed dictionary a valid pair's code is found with the pair's chunk (R125, R126). -/
theorem lookupCode_of_pair (hd : dictWellFormed dict = true) {c : Chunk} {code : BitVec 16}
    (h : (c, code) ∈ validPairs dict) : lookupCode dict code = some c := by
  obtain ⟨_, hcodes, _⟩ := dictWellFormed_iff_pairs.1 hd
  cases hk : lookupCode dict code with
  | none =>
    obtain ⟨d, hmem, hv, _, hcode⟩ := mem_validPairs.1 h
    exact absurd hcode (lookupCode_eq_none.1 hk d hmem hv)
  | some c' =>
    obtain ⟨d, hmem, hv, hcode, hchunk⟩ := lookupCode_some hk
    have h' : (c', code) ∈ validPairs dict := mem_validPairs.2 ⟨d, hmem, hv, hchunk, hcode⟩
    have hpair := List.inj_on_of_nodup_map hcodes h' h rfl
    exact congrArg some (Prod.mk.inj hpair).1

/-- What LOOKUP_CHUNK answers under one dictionary, LOOKUP_CODE takes back under another of the same pairs (R163). -/
theorem lookupCode_of_lookupChunk (hperm : (validPairs dict').Perm (validPairs dict))
    (hd : dictWellFormed dict = true) {c : Chunk} {code : BitVec 16} (h : lookupChunk dict c = some code) :
    StreamUnit.tagged code = true ∧ lookupCode dict' code = some c := by
  have hpair : (c, code) ∈ validPairs dict := mem_validPairs.2 (lookupChunk_some h)
  obtain ⟨htag, _⟩ := dictWellFormed_iff_pairs.1 hd
  exact ⟨htag (c, code) hpair, lookupCode_of_pair (dictWellFormed_perm hperm hd) (hperm.mem_iff.2 hpair)⟩

/-! ## The encoded stream decoded (R163) -/

/-- A chunk's output that is not a collision decodes to the chunk, whatever follows it. -/
theorem decoded_chunkOutput (hperm : (validPairs dict').Perm (validPairs dict)) (hd : dictWellFormed dict = true)
    {c : Chunk} (hhaz : ((lookupChunk dict c).isNone && collides c) = false) (rest : List Byte) :
    decodedBytes dict' (chunkOutput dict c ++ rest) = chunkBytes c ++ decodedBytes dict' rest ∧
      ∀ i, ∃ j, streamEnd dict' i (chunkOutput dict c ++ rest) = streamEnd dict' j rest := by
  unfold chunkOutput
  cases hk : lookupChunk dict c with
  | some code =>
    obtain ⟨htag, hcode⟩ := lookupCode_of_lookupChunk hperm hd hk
    rw [← unitOfBytes_extract code] at htag hcode
    obtain ⟨hbytes, hend⟩ := decoded_known (tagged_unitOfBytes .. ▸ htag) hcode rest
    exact ⟨hbytes, fun i => ⟨_, hend i⟩⟩
  | none =>
    rw [hk, Option.isNone_none, Bool.true_and, collides, ← chunkOfBytes_extract c, chunkOfBytes, tag_chunkOfUnits,
      tagged_unitOfBytes] at hhaz
    obtain ⟨hbytes, hend⟩ := decoded_pair (dict := dict') hhaz _ _ rest
    rw [chunkOfBytes_extract] at hbytes
    exact ⟨hbytes, fun i => ⟨_, hend i⟩⟩

/-- Without a collision the encoded stream decodes to its chunks, and to its end. -/
theorem decoded_encodedBytes (hperm : (validPairs dict').Perm (validPairs dict)) (hd : dictWellFormed dict = true)
    {chunks : List Chunk} (hhaz : anyCollision dict chunks = false) :
    decodedBytes dict' (encodedBytes dict chunks) = chunks.flatMap chunkBytes ∧
      ∀ i, streamEnd dict' i (encodedBytes dict chunks) = .atEnd := by
  induction chunks with
  | nil => exact ⟨rfl, fun _ => rfl⟩
  | cons c cs ih =>
    rw [anyCollision, List.any_cons, Bool.or_eq_false_iff] at hhaz
    obtain ⟨hbytes, hend⟩ := decoded_chunkOutput hperm hd hhaz.1 (encodedBytes dict cs)
    obtain ⟨ihbytes, ihend⟩ := ih hhaz.2
    rw [encodedBytes_cons, hbytes, ihbytes, List.flatMap_cons]
    refine ⟨rfl, fun i => ?_⟩
    obtain ⟨j, hj⟩ := hend i
    rw [hj, ihend]

end

/-! ## The input's bytes in its chunks (R101, R102) -/

/-- The chunks' bytes, one after another, are the padded input's. -/
theorem State.inputChunks_flatMap (s : State) :
    s.inputChunks.flatMap chunkBytes = (List.range (4 * s.inputChunks.length)).map s.padByte := by
  have hchunk (k : Nat) : chunkBytes (s.chunkAt k) = (List.range' (4 * k) 4).map s.padByte := chunkBytes_chunkOfBytes ..
  have hfirst (n : Nat) : ((List.range n).map s.chunkAt).flatMap chunkBytes = (List.range (4 * n)).map s.padByte := by
    induction n with
    | zero => rfl
    | succ n ih =>
      rw [List.range_succ, List.map_append, List.flatMap_append, ih, Nat.mul_add, List.range_add, List.map_append,
        List.map_singleton, List.flatMap_singleton, hchunk, List.range'_eq_map_range]
  unfold State.inputChunks
  rw [hfirst, List.length_map, List.length_range]

theorem State.inputChunks_flatMap_length (s : State) :
    (s.inputChunks.flatMap chunkBytes).length = s.inLen.toNat + padOf s.inLen.toNat := by
  rw [s.inputChunks_flatMap, List.length_map, List.length_range, s.inputChunks_length]

/-- With IN_LEN recorded as the size, TRUNCATE cuts them to IN_LEN, and none is short (R158, R160). -/
theorem State.inputChunks_cut (s : State) :
    (if s.inLen.toNat = 0 then (s.inputChunks.flatMap chunkBytes).length
      else min s.inLen.toNat (s.inputChunks.flatMap chunkBytes).length) = s.inLen.toNat ∧
    decide ((s.inputChunks.flatMap chunkBytes).length < s.inLen.toNat) = false := by
  rw [s.inputChunks_flatMap_length]
  refine ⟨?_, decide_eq_false (by omega)⟩
  split_ifs with h0
  · rw [h0]
    rfl
  · omega

/-- Cut to IN_LEN, they are the input's. -/
theorem State.inputChunks_flatMap_take (s : State) :
    (s.inputChunks.flatMap chunkBytes).take s.inLen.toNat = (List.range s.inLen.toNat).map s.ibufByte := by
  have hlen := s.inputChunks_length
  rw [s.inputChunks_flatMap, ← List.map_take, List.take_range, Nat.min_eq_left (by omega)]
  exact List.map_congr_left fun a ha => State.padByte_of_lt (List.mem_range.1 ha)

/-! ## The statement about the round trip settled -/

/-- Settles O40: the stream that phase ENC leaves decodes to its chunks, which ORIG_SIZE cuts to the input. -/
theorem encodeThenDecodeGivesTheInputBack : Obligations.EncodeThenDecodeGivesTheInputBack := by
  intro s t u we wd m hs hsp hst hwe hr htp herr hhaz hu hup hut hwd huLen huOrig hbytes hperm
  obtain ⟨r, hready, hd, hrhaz, hchunks, rfl⟩ := ended_encode hs hsp hst hwe hr htp herr
  have hnoCollision : anyCollision r.dict s.inputChunks = false := by
    rw [r.encoded_eq, hrhaz, hchunks] at hhaz
    exact hhaz
  have hstream : u.ibufSlice 0 u.inLen.toNat = encodedBytes r.dict s.inputChunks := by
    rw [← hchunks, ← State.encoded_obufSlice hready.inRange, huLen, State.ibufSlice, State.obufSlice]
    exact List.map_congr_left fun a ha => hbytes a (by simpa using ha)
  have huRange : u.inLen.toNat ≤ Config.ibufBytes := by
    rw [huLen]
    exact State.encoded_outLen_le hready.inRange
  have hperm' : (validPairs u.dict).Perm (validPairs r.dict) := hperm
  obtain ⟨hdecoded, hend⟩ := decoded_encodedBytes hperm' hd hnoCollision
  obtain ⟨n, v, _, _, _, hrun, hv, hatEnd, _⟩ :=
    decodeCommandDecodesTheStream u wd hu hup hut hwd huRange (dictWellFormed_perm hperm' hd)
  obtain ⟨hcut, hshort⟩ := s.inputChunks_cut
  rw [hstream, hdecoded, huOrig, hcut, hshort, s.inputChunks_flatMap_take] at hatEnd
  obtain ⟨hstatus, _, _, houtLen, hslice⟩ := hatEnd (hend 0)
  rw [State.obufSlice, ← List.range_eq_range', List.map_inj_left] at hslice
  exact ⟨n, v, Nat.add_comm 1 n ▸ hrun, by rw [hv]; exact hup, hstatus, BitVec.eq_of_toNat_eq houtLen,
    fun a ha => hslice a (List.mem_range.2 ha)⟩

end Sys2Proof.Machine
end

section
/-! PROOFS. COMPRESS beside ANALYZE and ENCODE: one command ends in the state that the other two end in (R181). -/

namespace Sys2Proof.Machine

section
variable {s : State}

/-! ## What ENCODE finds after ANALYZE -/

/-- Under a configuration that ANALYZE accepts, the dictionary it leaves is one that ENCODE accepts (R122). -/
theorem State.analyzed_wellFormed (hl : s.inLen.toNat ≤ Config.ibufBytes)
    (hconf : configOk s.codeBase s.topN = true) : dictWellFormed s.analyzed.dict = true := by
  have hsums := freqOf_sums s.inputChunks (State.inputChunks_length_lt hl)
  rw [← s.counted_all_freq .analyze] at hsums
  exact State.selectAndBuild_wellFormed (s := (s.counted .analyze s.inputChunks.length).enter .select) hconf hsums

/-- COMPRESS enters phase ENC in the state that an ENCODE after an ANALYZE starts in: acceptance pads the input to the
same lengths again and clears a STATUS and captures that SELECT has left clear. -/
theorem State.compressStarted_eq (s : State) :
    s.compressStarted = { s.analyzed.encodeStarted with cmd := .compress } := rfl

/-- Phase ENC does not read `cmd`. -/
theorem State.encoded_withCmd (s : State) (cmd : Cmd) :
    State.encoded { s with cmd := cmd } = { s.encoded with cmd := cmd } := rfl

/-! ## The three commands, from acceptance to end -/

/-- An ANALYZE, from acceptance to its end. -/
theorem runSteps_analyze {w : Word} (hp : s.phase = .idle) (ht : s.turns = [ctrlTurn w]) (hw : w.toNat % 16 = 1)
    (hl : s.inLen.toNat ≤ Config.ibufBytes) (hconf : configOk s.codeBase s.topN = true) :
    runSteps (1 + (s.inputChunks.length + 2)) s = .next s.analyzed := by
  rw [Nat.add_comm, runSteps_succ (step_analyze_accepted hp ht hw hl hconf), runSteps_analyzed hl]

/-- An ENCODE, from acceptance to its end. -/
theorem runSteps_encode {w : Word} (hp : s.phase = .idle) (ht : s.turns = [ctrlTurn w]) (hw : w.toNat % 16 = 2)
    (hl : s.inLen.toNat ≤ Config.ibufBytes) (hd : dictWellFormed s.dict = true) :
    runSteps (1 + (s.inputChunks.length + 1)) s = .next s.encodeStarted.encoded := by
  rw [Nat.add_comm, runSteps_succ (step_encode_accepted hp ht hw hl hd)]
  exact (State.encodeStarted_ready hl).runSteps_encoded

/-- A COMPRESS, from acceptance to its end: phases COUNT and SELECT, then phase ENC. -/
theorem runSteps_compress {w : Word} (hp : s.phase = .idle) (ht : s.turns = [ctrlTurn w]) (hw : w.toNat % 16 = 3)
    (hl : s.inLen.toNat ≤ Config.ibufBytes) (hconf : configOk s.codeBase s.topN = true) :
    runSteps (1 + (2 * s.inputChunks.length + 3)) s = .next s.compressStarted.encoded := by
  have henc := (State.compressStarted_ready hl).runSteps_encoded
  rw [State.encodedTo_zero rfl rfl] at henc
  have hsteps : 1 + (2 * s.inputChunks.length + 3) = (s.inputChunks.length + 2) + (s.inputChunks.length + 1) + 1 := by
    omega
  rw [hsteps, runSteps_succ (step_compress_accepted hp ht hw hl hconf),
    runSteps_add (runsWhile_compressStarted hl).run]
  exact henc

end

/-- Settles O38: each command's end is known, and COMPRESS enters ENC where the ENCODE starts. -/
theorem compressEqualsAnalyzeThenEncode : Obligations.CompressEqualsAnalyzeThenEncode := by
  intro s wa we wc _ hp hwa hwe hwc hl hconf
  have hanalyze := runSteps_analyze (s := { s with turns := [ctrlTurn wa] }) hp rfl hwa hl hconf
  have hencode := runSteps_encode (s := { s.analyzed with turns := [ctrlTurn we] }) rfl rfl hwe hl
    (State.analyzed_wellFormed hl hconf)
  have hcompress := runSteps_compress (s := { s with turns := [ctrlTurn wc] }) hp rfl hwc hl hconf
  refine ⟨_, _, _, hanalyze, rfl, hencode, rfl, hcompress, rfl, ?_⟩
  calc s.compressStarted.encoded
    _ = State.encoded { s.analyzed.encodeStarted with cmd := .compress } := by rw [s.compressStarted_eq]
    _ = { s.analyzed.encodeStarted.encoded with cmd := .compress } := State.encoded_withCmd _ _

end Sys2Proof.Machine
end

section
/-! PROOFS. Every command ends: each block step leaves fewer steps to take, from a bounded number. -/

namespace Sys2Proof.Machine

section
variable {s t : State}

/-! ## How many steps a running command can still take (R185, R186) -/

/-- A bound on the block steps to the end of the running command. In COUNT the chunks left are counted, and a COMPRESS
then encodes all of them; in DEC a form takes two bytes at least. -/
def State.stepsLeft (s : State) : Nat :=
  match s.phase with
  | .idle => 0
  | .count => (s.chunkCount - s.pos.toNat) + s.chunkCount + 3
  | .select => s.chunkCount + 2
  | .enc => (s.chunkCount - s.pos.toNat) + 1
  | .dec => s.bytesLeft / 2 + 1

theorem State.stepsLeft_idle (hp : s.phase = .idle) : s.stepsLeft = 0 := by rw [State.stepsLeft, hp]

theorem State.stepsLeft_count (hp : s.phase = .count) :
    s.stepsLeft = (s.chunkCount - s.pos.toNat) + s.chunkCount + 3 := by rw [State.stepsLeft, hp]

theorem State.stepsLeft_select (hp : s.phase = .select) : s.stepsLeft = s.chunkCount + 2 := by
  rw [State.stepsLeft, hp]

theorem State.stepsLeft_enc (hp : s.phase = .enc) : s.stepsLeft = (s.chunkCount - s.pos.toNat) + 1 := by
  rw [State.stepsLeft, hp]

theorem State.stepsLeft_dec (hp : s.phase = .dec) : s.stepsLeft = s.bytesLeft / 2 + 1 := by rw [State.stepsLeft, hp]

/-- A length in range bounds the steps: there are at most IBUF_BYTES / 4 chunks, each counted and encoded once. -/
theorem State.Inv.stepsLeft_le (h : s.Inv) : s.stepsLeft ≤ Config.ibufBytes / 2 + 3 := by
  have hchunks (hpad : s.Padded) (hp : s.phase ≠ .idle) : s.chunkCount ≤ Config.ibufBytes / 4 :=
    Nat.div_le_div_right (hpad.le_ibufBytes (h.busyLen hp)).1
  cases hp : s.phase with
  | idle => rw [State.stepsLeft_idle hp]; exact Nat.zero_le _
  | count =>
    obtain ⟨_, hpad, _⟩ := (State.phaseInv_count hp).1 h.phaseInv
    have := hchunks hpad (by simp [hp])
    rw [State.stepsLeft_count hp]
    omega
  | select =>
    obtain ⟨_, hpad, _⟩ := (State.phaseInv_select hp).1 h.phaseInv
    have := hchunks hpad (by simp [hp])
    rw [State.stepsLeft_select hp]
    omega
  | enc =>
    obtain ⟨_, hpad, _⟩ := (State.phaseInv_enc hp).1 h.phaseInv
    have := hchunks hpad (by simp [hp])
    rw [State.stepsLeft_enc hp]
    omega
  | dec =>
    have hlen := h.busyLen (by simp [hp])
    rw [State.stepsLeft_dec hp, State.bytesLeft]
    omega

/-! ## Each step leaves fewer -/

/-- A chunk read inside IBUF leaves the position room to move on by one (R50). -/
theorem State.pos_succ_toNat (hin : 4 * s.pos.toNat + 4 ≤ Config.ibufBytes) :
    (s.pos + 1).toNat = s.pos.toNat + 1 := by
  have hmax := ibufBytes_bounds.2.1
  exact toNat_add_of_lt (by simp; omega)

/-- A chunk encoded, as a hit or as a miss, moves the position on by one and leaves phase ENC and the number of chunks
(R140, R141). -/
theorem encodeChunk_advances {c : Chunk} (hr : encodeChunk c s = .next t) :
    t.phase = s.phase ∧ t.chunkCount = s.chunkCount ∧ t.pos = s.pos + 1 := by
  rcases encodeChunk_cases hr with ⟨_, _, _, rfl⟩ | ⟨_, _, rfl⟩ <;> exact ⟨rfl, rfl, rfl⟩

/-- A block step of a running command outside phase DEC leaves fewer steps, by the rows of the phase table (R185). -/
theorem blockStep_stepsLeft_lt (hp : s.phase ≠ .idle) (hr : blockStep s = .next t) : t.stepsLeft < s.stepsLeft := by
  rcases blockStep_cases hr with ⟨hi, _⟩ | ⟨hp, hlt, hin, rfl⟩ | ⟨hp, _, rfl⟩ | ⟨hp, _, rfl⟩ | ⟨hp, _, rfl⟩ |
    ⟨hp, hlt, hin, hr⟩ | ⟨hp, _, rfl⟩
  · exact absurd hi hp
  · rw [State.stepsLeft_count hp, State.stepsLeft_count (by exact hp), State.countOne_pos, State.countOne_chunkCount,
      State.pos_succ_toNat hin]
    omega
  · rw [State.stepsLeft_count hp, State.stepsLeft_select rfl, State.enter_chunkCount]
    omega
  · rw [State.stepsLeft_select hp, State.stepsLeft_idle rfl]
    omega
  · have hchunks : (s.selectAndBuild.rewind.enter .enc).chunkCount = s.chunkCount := rfl
    rw [State.stepsLeft_select hp, State.stepsLeft_enc rfl, hchunks]
    omega
  · obtain ⟨hphase, hchunks, hpos⟩ := encodeChunk_advances hr
    rw [State.stepsLeft_enc hp, State.stepsLeft_enc (hphase.trans hp), hchunks, hpos, State.pos_succ_toNat hin]
    omega
  · rw [State.stepsLeft_enc hp, State.stepsLeft_idle rfl]
    omega

/-- A block step gives the host no turn. -/
theorem blockStep_turns (hr : blockStep s = .next t) : t.turns = s.turns := by
  rcases blockStep_cases hr with ⟨_, rfl⟩ | ⟨_, _, _, rfl⟩ | ⟨_, _, rfl⟩ | ⟨_, _, rfl⟩ | ⟨_, _, rfl⟩ |
    ⟨_, _, _, hr⟩ | ⟨_, _, rfl⟩
  case inr.inr.inr.inr.inr.inl =>
    rcases encodeChunk_cases hr with ⟨_, _, _, rfl⟩ | ⟨_, _, rfl⟩ <;> rfl
  all_goals rfl

/-- A step of phase DEC leaves fewer steps: it ends the command, or takes two bytes of the stream at least. -/
theorem decStep_stepsLeft_lt (h : s.Inv) (hp : s.phase = .dec) (ht : s.turns = []) :
    ∃ t, step s = .next t ∧ t.turns = [] ∧ t.stepsLeft < s.stepsLeft := by
  rw [State.stepsLeft_dec hp]
  rcases h.step_ends_or_emits hp ht with ⟨_, _, hstep⟩ | ⟨t, hstep, hto, hleft⟩
  · refine ⟨_, hstep, ?_⟩
    rw [State.stepsLeft_idle (by rw [State.endDecode_eq]), State.endDecode_eq]
    exact ⟨ht, Nat.succ_pos _⟩
  · obtain ⟨_, _, _, hfields⟩ := hto.fields
    have hpt : t.phase = .dec := by rw [hfields]; exact hp
    have htt : t.turns = [] := by rw [hfields]; exact ht
    refine ⟨t, hstep, htt, ?_⟩
    rw [State.stepsLeft_dec hpt]
    omega

/-- From a state of the invariant in which a command runs, the block left alone takes a step that leaves fewer. -/
theorem step_stepsLeft_lt (h : s.Inv) (hp : s.phase ≠ .idle) (ht : s.turns = []) :
    ∃ t, step s = .next t ∧ t.turns = [] ∧ t.stepsLeft < s.stepsLeft := by
  by_cases hdec : s.phase = .dec
  · exact decStep_stepsLeft_lt h hdec ht
  · obtain ⟨t, hstep⟩ := invariantStatesNeverStop s h
    have hblock : blockStep s = .next t := by rw [← hstep, step_block (.inl ht) hdec, State.popTurn_of_nil ht]
    exact ⟨t, hstep, (blockStep_turns hblock).trans ht, blockStep_stepsLeft_lt hp hblock⟩

/-- The block, left alone, is idle after as many steps as are left at most. -/
theorem State.Inv.runs_to_idle (h : s.Inv) (ht : s.turns = []) :
    ∃ n t, n ≤ s.stepsLeft ∧ runSteps n s = .next t ∧ t.phase = .idle := by
  induction hn : s.stepsLeft using Nat.strong_induction_on generalizing s with
  | _ left ih =>
    by_cases hp : s.phase = .idle
    · exact ⟨0, s, Nat.zero_le _, rfl, hp⟩
    · obtain ⟨t, hstep, htt, hlt⟩ := step_stepsLeft_lt h hp ht
      obtain ⟨n, u, hle, hrun, hu⟩ := ih t.stepsLeft (hn ▸ hlt) (everyStepKeepsTheInvariant s t h hstep) htt rfl
      exact ⟨n + 1, u, by omega, (runSteps_succ hstep).trans hrun, hu⟩

end

/-- Settles O41: the steps left fall to none, from at most `IBUF_BYTES / 2 + 3`. -/
theorem runningCommandAlwaysFinishes : Obligations.RunningCommandAlwaysFinishes := by
  intro s h ht
  obtain ⟨n, t, hle, hrun, hidle⟩ := h.runs_to_idle ht
  exact ⟨n, t, hle.trans h.stepsLeft_le, hrun, hidle⟩

end Sys2Proof.Machine
end

section
/-! PROOFS. The host's transactions: what a read answers and a write leaves, while idle and while BUSY, and what a CTRL
write's command does at acceptance. -/

namespace Sys2Proof.Machine

section
variable {s : State} {ts : List Turn}

/-! ## The host's turn -/

/-- A host transaction other than a register write, its turn taken off (R170). -/
theorem step_host_noRegWrite {x : Tx} (h : s.turns = .host x :: ts) (hx : ∀ off v, x ≠ .regWrite off v) :
    step s = .next (hostStep { s with turns := ts } x) := by
  rw [step_host h fun off v he => absurd he (hx off v), State.popTurn_eq h]

theorem step_regRead {off : Nat} (h : s.turns = .host (.regRead off) :: ts) :
    step s = .next (hostRegRead off { s with turns := ts }) := step_host_noRegWrite h nofun

theorem step_ibufRead {a : Nat} (h : s.turns = .host (.ibufRead a) :: ts) :
    step s = .next (hostIbufRead a { s with turns := ts }) := step_host_noRegWrite h nofun

/-- A read of an IBUF byte is exact, whether or not a command runs (R173). -/
theorem step_ibufRead_inside {a : Nat} (h : s.turns = .host (.ibufRead a) :: ts) (ha : a < Config.ibufBytes) :
    step s = .next { s with turns := ts, replies := .ibuf a (s.ibufByte a) :: s.replies } := by
  rw [step_ibufRead h, hostIbufRead, if_pos ha]
  rfl

theorem step_ibufWrite {a : Nat} {b : Byte} (h : s.turns = .host (.ibufWrite a b) :: ts) :
    step s = .next (hostIbufWrite a b { s with turns := ts }) := step_host_noRegWrite h nofun

theorem step_obufRead {a : Nat} (h : s.turns = .host (.obufRead a) :: ts) :
    step s = .next (hostObufRead a { s with turns := ts }) := step_host_noRegWrite h nofun

/-- While BUSY a register write, CTRL's included, is dropped (R176, R207). -/
theorem step_regWrite_busy {off : Nat} {v : Word} (h : s.turns = .host (.regWrite off v) :: ts)
    (hp : s.phase ≠ .idle) : step s = .next (State.dropWrite { s with turns := ts }) := by
  rw [← State.popTurn_eq h]
  by_cases ho : regAt off = .ctrl
  · exact (step_ctrl h ho).trans (exec_decodeCtrl_busy (s := s.popTurn) hp v)
  · rw [step_host h fun _ _ he => by cases he; exact ho]
    exact congrArg _ (hostRegWrite_busy (s := s.popTurn) off v hp)

/-! ## Registers as they are read -/

/-- The number of valid slots (R39). -/
theorem dictCount_eq_countP (dict : List Slot) : dictCount dict = dict.countP (·.valid) :=
  List.countP_eq_length_filter.symm

/-- DICT_CODE's word by its fields: VALID at bit 31, CODE below bit 16 (R45, R91). -/
theorem Slot.codeWord_eq (d : Slot) :
    d.codeWord = (if d.valid then 0x80000000 else 0) ||| d.code.setWidth 32 := by
  have hcode : d.code.toNat % 2 ^ 32 = d.code.toNat := Nat.mod_eq_of_lt (by omega)
  refine BitVec.eq_of_toNat_eq ?_
  rw [Slot.codeWord, BitVec.toNat_append, BitVec.toNat_append, BitVec.toNat_or, BitVec.toNat_setWidth, hcode]
  cases d.valid <;> simp

/-- The reserved offsets: those off the word grid, the gap below the DICT window, what lies past it, and each slot's
fourth word (R22, R45). -/
theorem regAt_reserved {off : Nat} (h : off % 4 ≠ 0 ∨ (0x040 ≤ off ∧ off < 0x100) ∨
    0x100 + 0x10 * Config.dictDepth ≤ off ∨ (0x100 ≤ off ∧ off % 0x10 = 0xC)) : regAt off = .reserved := by
  rcases regAt_cases off with ⟨hlt, hm⟩ | ⟨j, hj, hwin⟩ | hr
  · obtain ⟨hmul, hlow⟩ := fixedRegs_offset _ hm
    dsimp only at hmul hlow
    omega
  · omega
  · exact hr

/-- STATUS read with a HAZ bit of its own: every other bit is as it stands (R26, R176). -/
theorem State.getLsbD_statusWord (s : State) (haz : Bool) :
    (∀ k, k ≠ 3 → (s.statusWord haz).getLsbD k = (s.readReg .status).getLsbD k) ∧
      (s.statusWord haz).getLsbD 3 = haz := by
  simp only [State.statusWord, State.readReg_status, Status.getLsbD_word]
  exact ⟨fun k hk => by simp only [if_neg hk], rfl⟩

/-- The registers that read a free value while BUSY (R176). -/
theorem regAt_unspecifiedWhileBusy {off : Nat} (h : off = 0x018 ∨ off = 0x024 ∨ off = 0x028 ∨ off = 0x02C ∨
    off = 0x030 ∨ (∃ j r, j < Config.dictDepth ∧ (r = 0x0 ∨ r = 0x4 ∨ r = 0x8) ∧ off = 0x100 + 0x10 * j + r)) :
    (regAt off).unspecifiedWhileBusy = true := by
  rcases h with rfl | rfl | rfl | rfl | rfl | ⟨j, r, hj, hr, rfl⟩
  case inr.inr.inr.inr.inr =>
    rw [regAt_window hj (by omega)]
    rcases hr with rfl | rfl | rfl <;> rfl
  all_goals rfl

/-- The registers that read exactly at all times (R176). -/
theorem regAt_exactWhileBusy {off : Nat} (h : off = 0x000 ∨ off = 0x008 ∨ off = 0x00C ∨ off = 0x010 ∨ off = 0x014 ∨
    off = 0x01C ∨ off = 0x020 ∨ off = 0x034 ∨ off = 0x038 ∨ off = 0x03C ∨ regAt off = .reserved) :
    (regAt off).unspecifiedWhileBusy = false ∧ regAt off ≠ .status := by
  rcases h with rfl | rfl | rfl | rfl | rfl | rfl | rfl | rfl | rfl | rfl | h
  case inr.inr.inr.inr.inr.inr.inr.inr.inr.inr =>
    rw [h]
    exact ⟨rfl, Reg.noConfusion⟩
  all_goals exact ⟨rfl, Reg.noConfusion⟩

/-! ## IBUF as it is written -/

/-- An IBUF byte after one is written: the byte written at its address, every other as before (R71, R174). -/
theorem State.ibufByte_writeIbuf (s : State) (a : Nat) (b : Byte) :
    (s.writeIbuf a b).ibufByte a = b ∧ ∀ x, x ≠ a → (s.writeIbuf a b).ibufByte x = s.ibufByte x := by
  simp only [State.ibufByte, State.writeIbuf]
  exact ⟨by rw [Memory.read_write_same]; rfl, fun x hx => by rw [Memory.read_write_ne _ _ hx]⟩

end

/-! ## The statements about reads and writes settled -/

/-- Settles O47: the read answers the register, and the map gives the register of each offset. -/
theorem idleRegisterReadFollowsTheMap : Obligations.IdleRegisterReadFollowsTheMap := by
  intro s off ts h hp
  refine ⟨(step_regRead h).trans (congrArg _ (hostRegRead_idle off hp)), ?_⟩
  refine ⟨?_, ?_, ?_, ?_, ?_, ?_, ?_, ?_, ?_, ?dictCount, ?_, ?_, ?_, ?_, ?_, ?_,
    fun j hj => ⟨?dictChunk, ?dictCode, ?dictFreq⟩, fun hr => ?reserved⟩
  case dictCount => rintro rfl; exact congrArg (BitVec.ofNat 32) (dictCount_eq_countP s.dict)
  case dictChunk => rintro rfl; rw [regAt_dictChunk hj]; rfl
  case dictCode => rintro rfl; rw [regAt_dictCode hj]; exact (s.slot j).codeWord_eq
  case dictFreq => rintro rfl; rw [regAt_dictFreq hj]; rfl
  case reserved => rw [regAt_reserved hr]; rfl
  all_goals rintro rfl; rfl

/-- Settles O53: each offset is of a register that reads free, of STATUS, or of one that reads exactly. -/
theorem readsWhileBusyAreFreeOrExact : Obligations.ReadsWhileBusyAreFreeOrExact := by
  intro s ts hp
  refine ⟨fun off h => ⟨fun ho => ?_, fun ho => ?_, fun ho => ?_⟩, fun a h ha => step_ibufRead_inside h ha,
    fun a h => ?_⟩
  · exact (step_regRead h).trans (congrArg _ (hostRegRead_busy_free hp (regAt_unspecifiedWhileBusy ho)))
  · obtain ⟨hother, hhaz⟩ := s.getLsbD_statusWord ((Config.freeRead s.draws).getLsbD 0)
    subst ho
    exact ⟨_, hother, hhaz, (step_regRead h).trans (congrArg _ (hostRegRead_busy_status hp rfl))⟩
  · obtain ⟨hexact, hstatus⟩ := regAt_exactWhileBusy ho
    exact (step_regRead h).trans (congrArg _ (hostRegRead_busy_exact hexact hstatus))
  · exact (step_obufRead h).trans (congrArg _ (hostObufRead_busy a hp))

/-- Settles O54, by the transaction and whether its address is inside the buffer. -/
theorem bufferAccessesReadAndWriteBytes : Obligations.BufferAccessesReadAndWriteBytes := by
  intro s a b ts
  refine ⟨fun hp h ha => ?_, fun hp h ha => ?_, step_ibufRead_inside, fun h ha => ?_,
    fun hp h ha => ?_, fun hp h ha => ?_⟩
  · exact ⟨_, (step_ibufWrite h).trans (congrArg _ (hostIbufWrite_idle b hp ha)), rfl, s.ibufByte_writeIbuf a b⟩
  · exact (step_ibufWrite h).trans (congrArg _ (hostIbufWrite_outside b hp ha))
  · rw [step_ibufRead h, hostIbufRead, if_neg (Nat.not_lt.2 ha)]
    rfl
  · rw [step_obufRead h, hostObufRead_idle a (by exact hp), if_pos ha]
    rfl
  · rw [step_obufRead h, hostObufRead_idle a (by exact hp), if_neg (Nat.not_lt.2 ha)]
    rfl

/-- Settles O52: a register write is dropped whether or not it is CTRL's. -/
theorem writesWhileBusyAreDropped : Obligations.WritesWhileBusyAreDropped :=
  fun _ _ hp => ⟨fun _ _ h => step_regWrite_busy h hp,
    fun a b h => (step_ibufWrite h).trans (congrArg _ (hostIbufWrite_busy a b hp))⟩

/-! ## The statements about commands and waiting settled -/

/-- Settles O6: CTRL stands at offset 0, and its word is decoded without the dictionary. -/
theorem ctrlWriteStepRunsTheDecodedCommand : Obligations.CtrlWriteStepRunsTheDecodedCommand := by
  rintro s ts w known _ h rfl _
  rw [step_ctrl h rfl, State.popTurn_eq h]
  rfl

/-- Settles O8: with no turn left the step is the block's, and an idle block has none to take. -/
theorem idleBlockWithNoTurnWaits : Obligations.IdleBlockWithNoTurnWaits := by
  intro s ht hp
  rw [step_block (.inl ht) (by simp [hp]), State.popTurn_of_nil ht, blockStep_idle hp]

/-- Settles O10: no check stands before NOP. -/
theorem nopClearsStatusAndSetsDone : Obligations.NopClearsStatusAndSetsDone :=
  fun ign s hp => (exec_nop ign s).trans (ctrlWrite_accepted hp (check_nop _))

/-- Settles O15: of DECODE's checks, the length is in range and WF_CHECK holds. -/
theorem decodeStartsDecoding : Obligations.DecodeStartsDecoding :=
  fun ign s hp hl hd => (exec_decode ign s).trans (ctrlWrite_accepted hp (check_codec_none (.inr rfl) hl hd))

end Sys2Proof.Machine
end

section
/-! PROOFS. The errors of the spec (60_exceptions.md): a command's failing check is recorded and changes nothing else
(R202), and no step answers that it has no meaning (R204). -/

namespace Sys2Proof.Machine

/-! ## A command word by the outcome of its checks -/

section
variable {w : Word} {s : State}

/-- A command word whose check fails while idle is refused (R177, R202). -/
theorem exec_decodeCtrl_refused {e : ErrCode} (hp : s.phase = .idle) (hc : check (w.extractLsb' 0 4) s = some e) :
    exec (decodeCtrl w) s =
      .next { s with status := { Status.clear with done := true, err := e }, errPos := 0, errVal := 0 } := by
  obtain ⟨act, hexec, _⟩ := exec_commandOf (w.extractLsb' 4 28) (w.extractLsb' 0 4) s
  exact hexec.trans (ctrlWrite_refused hp hc)

/-- A command word whose checks pass while idle records no error (R177). -/
theorem exec_decodeCtrl_notRefused (hp : s.phase = .idle) (hc : check (w.extractLsb' 0 4) s = none) :
    ∃ t, exec (decodeCtrl w) s = .next t ∧ t.status.err = .none := by
  obtain ⟨t, ht, herr⟩ := exec_commandOf_err (w.extractLsb' 4 28) (w.extractLsb' 0 4) hp
  exact ⟨t, ht, by rw [herr, hc]; rfl⟩

/-- No check stands before NOP and DICT_CLEAR (R202). -/
theorem check_unchecked {c : BitVec 4} (hc : c.toNat = 0 ∨ c.toNat = 5) : check c s = none := by
  rcases hc with hc | hc
  · obtain rfl : c = 0x0 := BitVec.eq_of_toNat_eq hc
    exact check_nop s
  · obtain rfl : c = 0x5 := BitVec.eq_of_toNat_eq hc
    exact check_dictClear s

end

/-! ## No operation refuses

Each shared operation answers a next state or a fault, so what is built of them does. -/

section
variable {s : State} (r : Refusal)

theorem ctrlWrite_ne_refused {c : BitVec 4} {act : State → State} : ctrlWrite c act s ≠ .refused r := by
  intro h
  rcases ctrlWrite_cases h with ⟨_, hr⟩ | ⟨_, _, _, hr⟩ | ⟨_, _, hr⟩ <;> cases hr

theorem memWrite_ne_refused {a : Nat} {bs : List Byte} {k : State → State} : memWrite a bs k s ≠ .refused r := by
  intro h
  rcases memWrite_cases h with ⟨_, hr⟩ | ⟨_, hr⟩ <;> cases hr

theorem withChunk_ne_refused {k : Nat} {f : Chunk → Result} (hf : ∀ c, f c ≠ .refused r) :
    withChunk k f s ≠ .refused r := by
  unfold withChunk
  split
  · exact hf _
  · nofun

theorem encodeChunk_ne_refused (c : Chunk) : encodeChunk c s ≠ .refused r := by
  unfold encodeChunk
  split <;> exact memWrite_ne_refused r

theorem countStep_ne_refused : countStep s ≠ .refused r := by
  unfold countStep
  split_ifs
  · exact withChunk_ne_refused r nofun
  · nofun
  · nofun

theorem selectStep_ne_refused : selectStep s ≠ .refused r := by
  unfold selectStep
  split <;> nofun

theorem encStep_ne_refused : encStep s ≠ .refused r := by
  unfold encStep
  split_ifs
  · exact withChunk_ne_refused r (encodeChunk_ne_refused r)
  · nofun
  · nofun

/-- A block step outside phase DEC, by the phase (R185). -/
theorem blockStep_ne_refused : blockStep s ≠ .refused r := by
  unfold blockStep
  split
  · nofun
  · exact countStep_ne_refused r
  · exact selectStep_ne_refused r
  · exact encStep_ne_refused r
  · nofun

/-- Every row of the opcode table has a meaning: a command is a CTRL write, and a stream form emits a chunk or ends
the stream. -/
theorem exec_ne_refused (i : Instr) (s : State) : exec i s ≠ .refused r := by
  cases i with
  | nop ign => rw [exec_nop]; exact ctrlWrite_ne_refused r
  | analyze ign => rw [exec_analyze]; exact ctrlWrite_ne_refused r
  | encode ign => rw [exec_encode]; exact ctrlWrite_ne_refused r
  | compress ign => rw [exec_compress]; exact ctrlWrite_ne_refused r
  | decode ign => rw [exec_decode]; exact ctrlWrite_ne_refused r
  | dictClear ign => rw [exec_dictClear]; exact ctrlWrite_ne_refused r
  | reservedCmd67 ign low => rw [exec_reservedCmd67]; exact ctrlWrite_ne_refused r
  | reservedCmd8F ign low => rw [exec_reservedCmd8F]; exact ctrlWrite_ne_refused r
  | code key =>
    cases hk : lookupCode s.dict key with
    | some ch => rw [exec_code_known hk]; exact memWrite_ne_refused r
    | none => rw [exec_code_unknown hk]; nofun
  | unknownCode key => rw [exec_unknownCode]; nofun
  | verbatim chunk => rw [exec_verbatim]; exact memWrite_ne_refused r
  | tailHalf u0 extra => rw [exec_tailHalf]; nofun
  | tailByte b => rw [exec_tailByte]; nofun
  | endOfStream => rw [exec_endOfStream]; nofun

end

/-! ## The statements about errors settled -/

/-- Settles O9, by the work of the step: an instruction, a block step, or work that always answers. -/
theorem noStepRefuses : Obligations.NoStepRefuses := by
  intro s r
  unfold step
  split
  · exact exec_ne_refused r _ _
  · nofun
  · exact blockStep_ne_refused r
  · nofun
  · nofun

/-- Settles O16: in each clause the outcome of the checks is known, and it decides what the word does. -/
theorem firstFailingCheckRefusesTheCommand : Obligations.FirstFailingCheckRefusesTheCommand := by
  intro w s hp
  rw [← cmd_toNat w]
  refine ⟨fun hc => exec_decodeCtrl_refused hp (check_badCmd s hc),
    fun hc => exec_decodeCtrl_notRefused hp (check_unchecked hc),
    fun h1 h4 hl => exec_decodeCtrl_refused hp (check_badLen h1 h4 hl),
    fun hc hl hk => exec_decodeCtrl_refused hp ?badCfg, fun hc hl hk => exec_decodeCtrl_notRefused hp ?legal,
    fun hc hl hd => exec_decodeCtrl_refused hp ?badDict, fun hc hl hd => exec_decodeCtrl_notRefused hp ?wellFormed⟩
  case badCfg | legal => rw [check_analyzer hc hl, hk]; rfl
  case badDict | wellFormed => rw [check_codec hc hl, hd]; rfl

end Sys2Proof.Machine
end
